-- ==== Sys2Proof/Word.lean ====
section
/-! DEFINITION. The two word types of the block (00_scope R13) and the type of a byte string. -/

namespace Sys2Proof

/-- An unsigned 8-bit value (00_scope R13). -/
abbrev Byte := BitVec 8

/-- An unsigned 16-bit value (00_scope R13). -/
abbrev U16 := BitVec 16

/-- A byte string (00_scope R14), first byte first on the wire. -/
abbrev Bytes := List Byte

end Sys2Proof
end

