-- ==== Sys2Proof/Config.lean ====
section
/-! DEFINITION. The parameters of the block (00_scope R4 to R9): the ones the spec fixes are constants, the open ones
and the ones it asks a model to keep as configuration are the fields of `Config`, which State carries (log 1). -/

namespace Sys2Proof

/-- Start marker of the short form (00_scope R6). -/
def startShort : Byte := 0x02
/-- Start marker of the long form (00_scope R6). -/
def startLong : Byte := 0x03
/-- End marker of both forms (00_scope R6). -/
def endMark : Byte := 0x03
/-- Framing overhead of the short form in bytes (00_scope R6). -/
def ovhShort : Nat := 5
/-- Framing overhead of the long form in bytes (00_scope R6). -/
def ovhLong : Nat := 6
/-- Minimum packet size in bytes (00_scope R6). -/
def minPacket : Nat := 6
/-- Largest payload length a length field can declare (00_scope R6). -/
def lMax : Nat := 65535
/-- Largest payload length ENCODE frames in the short form (00_scope R7). -/
def shortMax : Nat := 255
/-- Largest count STORE and CRC16 take (40_fifo R112, 41_crc16 R130). -/
def countMax : Nat := 65535
/-- The data value POP returns on an empty FIFO (40_fifo R113). -/
def popEmptyData : Byte := 0xFF

/-- The CRC parameters that 00_scope R8 asks a model to keep as configuration. -/
structure CrcParams where
  poly    : U16
  init    : U16
  reflect : Bool
  xorout  : U16
  deriving DecidableEq, Repr

/-- The values 00_scope R8 fixes (CRC-16/XMODEM). PRESUMED by the spec itself, from general knowledge (log 3). -/
def CrcParams.xmodem : CrcParams := ⟨0x1021, 0x0000, false, 0x0000⟩

/-- What the decoder does with a declared payload length of zero (00_scope R9). -/
inductive ZeroLen
  | reject | accept
  deriving DecidableEq, Repr

/-- What the framer does with a declared packet size above `S` (00_scope R9). -/
inductive OversizePolicy
  | discardAll | resync
  deriving DecidableEq, Repr

/-- The configuration of one block, fixed at construction (10_state R33).
`crcSerial` says whether the byte-serial CRC form with its accumulator is built (10_state R31, R35). -/
structure Config where
  cRx       : Nat
  cTx       : Nat
  stgCap    : Nat
  crc       : CrcParams
  zeroLen   : ZeroLen
  oversize  : OversizePolicy
  crcSerial : Bool
  deriving DecidableEq, Repr

/-- The constraints of 00_scope R4 and R5 on the open capacities. -/
abbrev Config.valid (c : Config) : Prop := 2 ≤ c.cRx ∧ 2 ≤ c.cTx ∧ 6 ≤ c.stgCap

/-- The configuration of `State.reset`. DESIGN CHOICE for the open parameters (log 2): capacity 8 and staging size 128
are the source's example numbers; the CRC parameters and `ZERO_LEN` are those of 00_scope R8 and R9. -/
def Config.standard : Config :=
  ⟨8, 8, 128, CrcParams.xmodem, .reject, .resync, true⟩

end Sys2Proof
end

