-- ==== Sys2Proof/Syntax.lean ====
section
/-! DEFINITION. The operations of the block as syntax: one constructor per row of spec/opcode_table.json, and the two
shapes in which one is presented to the block (an operation word with its operands, or bytes on the line). -/

namespace Sys2Proof

/-- The two FIFO instances (10_state R25); `opw[4]` selects one (30_encoding R90). -/
inductive Inst
  | rx | tx
  deriving DecidableEq, Repr

/-- The operations of 30_encoding R90, the two unassigned codes of R91, and the two wire formats of R80 and R81.
The count of a byte string is its length, as R90 has it. -/
inductive Instr
  | reset
  | push (f : Inst) (b : Byte)
  | store (f : Inst) (data : Bytes)
  | pop (f : Inst)
  | length (f : Inst)
  | freeSpace (f : Inst)
  | fifoReset (f : Inst)
  | crc16 (bytes : Bytes)
  | encode (payload : Bytes)
  | decode (win : Bytes)
  | feed (b : Byte)
  | poll
  | framerReset
  | write (frame : Bytes)
  /-- `op = 0xE`; `hi` is `opw[7:4]`, which the row leaves free. -/
  | unassignedE (hi : BitVec 4)
  /-- `op = 0xF`; `hi` is `opw[7:4]`, which the row leaves free. -/
  | unassignedF (hi : BitVec 4)
  /-- A short-form packet on the line; `crc` is its CRC field, right or wrong. -/
  | frameShort (payload : Bytes) (crc : U16)
  /-- A long-form packet on the line; `crc` is its CRC field, right or wrong. -/
  | frameLong (payload : Bytes) (crc : U16)
  deriving DecidableEq, Repr

/-- An operation as it is presented: the 8-bit word of 30_encoding R90 and, beside it, a byte operand and a byte-string
operand. An operation reads only the operands its row names. DESIGN CHOICE (log 19). -/
structure OpRequest where
  opw  : Byte
  b    : Byte
  data : Bytes
  deriving DecidableEq, Repr

/-- What an instruction is encoded as: an operation request, or bytes on the line. -/
inductive Encoded
  | op (r : OpRequest)
  | line (bytes : Bytes)
  deriving DecidableEq, Repr

/-- Why a word or a byte string is no instruction. -/
inductive DecodeReject
  /-- `opw[7:5] != 000` (30_encoding R91). -/
  | reservedBits
  /-- `inst = 1` on an operation that takes no instance (30_encoding R91). -/
  | instOnNonFifo
  /-- The first byte on the line is neither start marker (30_encoding R85). -/
  | badMarker
  /-- A declared payload length of zero, a reserved value (30_encoding R80, R88). -/
  | zeroLength
  /-- Fewer bytes than the declared size. -/
  | truncated
  /-- The last byte of the declared size is not the end marker (30_encoding R80, R81). -/
  | badEnd
  deriving DecidableEq, Repr

end Sys2Proof
end

