-- ==== Sys2Proof/WellFormed.lean ====
section
/-! DEFINITION. The domain of each operand (spec/opcode_table.json): the counts a well-formed instruction may carry.
An operation outside it is still decoded, and refused by its meaning with the reason 60_exceptions R208 gives. -/

namespace Sys2Proof

/-- The operands are inside the domain the table gives the row. -/
def Instr.wellFormed : Instr → Bool
  | .reset => true
  | .push _ _ => true
  | .store _ data => data.length ≤ countMax
  | .pop _ => true
  | .length _ => true
  | .freeSpace _ => true
  | .fifoReset _ => true
  | .crc16 bytes => bytes.length ≤ countMax
  | .encode payload => 1 ≤ payload.length && payload.length ≤ lMax
  | .decode _ => true
  | .feed _ => true
  | .poll => true
  | .framerReset => true
  | .write _ => true
  | .unassignedE _ => true
  | .unassignedF _ => true
  | .frameShort payload _ => 1 ≤ payload.length && payload.length ≤ shortMax
  | .frameLong payload _ => 1 ≤ payload.length && payload.length ≤ lMax

end Sys2Proof
end

