-- ==== Sys2Proof/Decode.lean ====
section
/-! DEFINITION. The decoder of operation words (30_encoding R90, R91) and of packets on the line (R80 to R85), total and
rejecting by name, and after it the encoder, written from the same tables. -/

namespace Sys2Proof

/-- `v[15:8]` (00_scope R14). -/
def hi8 (v : U16) : Byte := v.extractLsb' 8 8

/-- `v[7:0]` (00_scope R14). -/
def lo8 (v : U16) : Byte := v.extractLsb' 0 8

/-- The `U16` whose high byte is `h` (00_scope R14; big-endian fields, 20_memory R53). -/
def be16 (h l : Byte) : U16 := BitVec.ofNat 16 (h.toNat * 256 + l.toNat)

/-! ### Operation words -/

/-- `opw[3:0]` (30_encoding R90). -/
def opField (w : Byte) : BitVec 4 := w.extractLsb' 0 4

/-- `opw[4]` (30_encoding R90): 0 selects `RX_FIFO`, 1 `TX_FIFO`. -/
def instField (w : Byte) : Inst := if w.getLsbD 4 then .tx else .rx

/-- `opw[7:5]` (30_encoding R90). -/
def zeroField (w : Byte) : BitVec 3 := w.extractLsb' 5 3

/-- `opw[7:4]`, free in the two unassigned rows of the table. -/
def highField (w : Byte) : BitVec 4 := w.extractLsb' 4 4

/-- An operation that takes an instance: `opw[7:5]` must be zero (30_encoding R90, R91). -/
def withInst (w : Byte) (mk : Inst → Instr) : Except DecodeReject Instr :=
  if zeroField w = 0 then .ok (mk (instField w)) else .error .reservedBits

/-- An operation that takes no instance: `opw[4]` must be zero as well (30_encoding R90, R91). -/
def withoutInst (w : Byte) (i : Instr) : Except DecodeReject Instr :=
  if zeroField w ≠ 0 then .error .reservedBits
  else if instField w = .tx then .error .instOnNonFifo
  else .ok i

/-- The operation a request selects (30_encoding R90). The two unassigned codes are rows of the table whatever their
high bits. -/
def decodeOp (r : OpRequest) : Except DecodeReject Instr :=
  match (opField r.opw).toNat with
  | 0x0 => withoutInst r.opw .reset
  | 0x1 => withInst r.opw (fun f => .push f r.b)
  | 0x2 => withInst r.opw (fun f => .store f r.data)
  | 0x3 => withInst r.opw .pop
  | 0x4 => withInst r.opw .length
  | 0x5 => withInst r.opw .freeSpace
  | 0x6 => withInst r.opw .fifoReset
  | 0x7 => withoutInst r.opw (.crc16 r.data)
  | 0x8 => withoutInst r.opw (.encode r.data)
  | 0x9 => withoutInst r.opw (.decode r.data)
  | 0xA => withoutInst r.opw (.feed r.b)
  | 0xB => withoutInst r.opw .poll
  | 0xC => withoutInst r.opw .framerReset
  | 0xD => withoutInst r.opw (.write r.data)
  | 0xE => .ok (.unassignedE (highField r.opw))
  | _ => .ok (.unassignedF (highField r.opw))

/-! ### Packets on the line -/

/-- The rest of a packet after its header: `len` payload bytes, two CRC bytes, the end marker (30_encoding R80, R81).
Answers the packet and the bytes after it. -/
def takeFrame (len : Nat) (body : Bytes) (mk : Bytes → U16 → Instr) : Except DecodeReject (Instr × Bytes) :=
  if len = 0 then .error .zeroLength
  else match body.drop len with
    | hi :: lo :: e :: rest =>
      if e = endMark then .ok (mk (body.take len) (be16 hi lo), rest) else .error .badEnd
    | _ => .error .truncated

/-- The packet at the head of a byte stream: its first byte selects the form, the length field gives its size
(30_encoding R82, R85). -/
def decodeLine : Bytes → Except DecodeReject (Instr × Bytes)
  | [] => .error .truncated
  | m :: rest =>
    if m = startShort then
      match rest with
      | l :: body => takeFrame l.toNat body .frameShort
      | [] => .error .truncated
    else if m = startLong then
      match rest with
      | h :: l :: body => takeFrame (be16 h l).toNat body .frameLong
      | _ => .error .truncated
    else .error .badMarker

/-- Either shape; a request leaves no bytes over. -/
def decode : Encoded → Except DecodeReject (Instr × Bytes)
  | .op r => (decodeOp r).map (fun i => (i, []))
  | .line bytes => decodeLine bytes

/-! ### The encoder -/

/-- `opw = inst << 4 | op` (30_encoding R90; 95_test_vectors part 4). -/
def fifoWord (f : Inst) (op : Byte) : Byte :=
  match f with
  | .rx => op
  | .tx => 0x10#8 ||| op

/-- The bytes of a short-form packet (30_encoding R80). -/
def shortFrame (payload : Bytes) (crc : U16) : Bytes :=
  [startShort, BitVec.ofNat 8 payload.length] ++ payload ++ [hi8 crc, lo8 crc, endMark]

/-- The bytes of a long-form packet (30_encoding R81). -/
def longFrame (payload : Bytes) (crc : U16) : Bytes :=
  let l : U16 := BitVec.ofNat 16 payload.length
  [startLong, hi8 l, lo8 l] ++ payload ++ [hi8 crc, lo8 crc, endMark]

/-- The presentation of an instruction; operands its row does not name are zero. -/
def encode : Instr → Encoded
  | .reset => .op ⟨0x00, 0, []⟩
  | .push f b => .op ⟨fifoWord f 0x01, b, []⟩
  | .store f data => .op ⟨fifoWord f 0x02, 0, data⟩
  | .pop f => .op ⟨fifoWord f 0x03, 0, []⟩
  | .length f => .op ⟨fifoWord f 0x04, 0, []⟩
  | .freeSpace f => .op ⟨fifoWord f 0x05, 0, []⟩
  | .fifoReset f => .op ⟨fifoWord f 0x06, 0, []⟩
  | .crc16 bytes => .op ⟨0x07, 0, bytes⟩
  | .encode payload => .op ⟨0x08, 0, payload⟩
  | .decode win => .op ⟨0x09, 0, win⟩
  | .feed b => .op ⟨0x0A, b, []⟩
  | .poll => .op ⟨0x0B, 0, []⟩
  | .framerReset => .op ⟨0x0C, 0, []⟩
  | .write frame => .op ⟨0x0D, 0, frame⟩
  | .unassignedE hi => .op ⟨hi ++ 0xE#4, 0, []⟩
  | .unassignedF hi => .op ⟨hi ++ 0xF#4, 0, []⟩
  | .frameShort payload crc => .line (shortFrame payload crc)
  | .frameLong payload crc => .line (longFrame payload crc)

/-! ### The table's numbering -/

/-- The `n` bytes of a number, the least significant first (the table's numbering of a row's bits). -/
def wordBytes : Nat → Nat → Bytes
  | 0, _ => []
  | n + 1, w => BitVec.ofNat 8 w :: wordBytes n (w / 256)

/-- The instruction of a table row's bits. A row of at most 8 bits is an operation word, its operands zero and empty; a
wider one is a packet on the line, which must fill its bits exactly (log 19). -/
def decodeTableWord (nbits w : Nat) : Option Instr :=
  if nbits ≤ 8 then (decodeOp ⟨BitVec.ofNat 8 w, 0, []⟩).toOption
  else match decodeLine (wordBytes ((nbits + 7) / 8) w) with
    | .ok (i, []) => some i
    | _ => none

end Sys2Proof
end

