-- ==== Sys2Proof/Machine/State.lean ====
section
/-! DEFINITION. The state of the block (10_state R20 to R35) as plain data, the reasons a step can stop, and reset. -/

namespace Sys2Proof.Machine

/-- The four agents (00_scope R10). -/
inductive Agent
  | rxp | frm | host | txc
  deriving DecidableEq, Repr

/-- Why DECODE rejects a window (42_packet_codec R143). -/
inductive RejectReason
  | badMarker | zeroLen | oversize | badTerminator | badCrc
  deriving DecidableEq, Repr

/-- The verdict of DECODE, a closed type (42_packet_codec R143). -/
inductive Verdict
  | needMore
  | ok (hdr len size : Nat)
  | reject (r : RejectReason)
  deriving DecidableEq, Repr

/-- The error codes of 60_exceptions R200, labels for the event history only. -/
inductive ErrorCode
  /-- Bad terminator. -/
  | e1
  /-- Declared size exceeds the staging capacity. -/
  | e2
  /-- CRC mismatch. -/
  | e3
  /-- First byte of the window is no marker. -/
  | e4
  /-- Declared payload length is zero. -/
  | e5
  /-- FIFO overflow. -/
  | e6
  /-- POP on an empty FIFO. -/
  | e7
  /-- Transport error: outside the block, never recorded by it. -/
  | e8
  /-- Semantic error: outside the block, never recorded by it. -/
  | e9
  deriving DecidableEq, Repr

/-- The result of an operation (the table of 30_encoding R90), which travels beside the word. -/
inductive Result
  | none
  /-- POP. -/
  | popped (ok : Bool) (b : Byte)
  /-- LENGTH, FREESPACE. -/
  | count (n : Nat)
  /-- CRC16. -/
  | crc (c : U16)
  /-- ENCODE. -/
  | frame (bytes : Bytes)
  /-- DECODE. -/
  | verdict (v : Verdict)
  /-- FEED, POLL, and a packet that arrives on the line. -/
  | payloads (ps : List Bytes)
  /-- WRITE when it is not enabled (00_scope R12). -/
  | held
  deriving DecidableEq, Repr

/-- A request to the block, in the global order of 20_memory R60 (log 12). -/
inductive Event
  /-- An agent issues an operation. -/
  | op (agent : Agent) (r : OpRequest)
  /-- FRM takes its step (44_boundary R191). -/
  | framerStep
  /-- TXC takes its step (44_boundary R194). -/
  | txStep
  /-- Bytes arrive on the line (44_boundary R190). -/
  | line (bytes : Bytes)
  deriving DecidableEq, Repr

/-- A byte storage (20_memory R50): (index, byte) pairs, indices strictly rising; an index that is not listed has no
value, since the spec gives a storage no contents at reset (10_state R35, log 6). -/
abbrev Memory := List Host.Cell

/-- One circular byte FIFO (10_state R20 to R22). -/
structure Fifo where
  mem    : Memory
  start  : Nat
  length : Nat
  deriving DecidableEq, Repr

/-- The framer (10_state R26, R27). -/
structure Framer where
  stg            : Memory
  lastValidIndex : Int
  deriving DecidableEq, Repr

/-- The block. `cfg` is fixed at construction (10_state R33). `delivered`, `txLine` and `errors` are the event history
(10_state R32, 60_exceptions R200). `result`, `agent` and `pending` are the model's own (log 9, log 12, log 17). -/
structure State where
  cfg       : Config
  rx        : Fifo
  tx        : Fifo
  framer    : Framer
  crcAcc    : U16
  delivered : List Bytes
  txLine    : Bytes
  errors    : List ErrorCode
  result    : Result
  agent     : Agent
  pending   : List Event
  deriving DecidableEq, Repr

/-- Why the machine stops. None is reachable from a state that meets the invariant of Safety.lean. -/
inductive Fault
  /-- An append to a staging buffer that is full (43_stream_framer R162 names it). Raised by FEED, POLL, a framer step and
  a packet on the line. Safe: the spec proves the case unreachable (R170). -/
  | stagingOverflow
  /-- A read of a storage byte that nothing has written. Raised by POP, FEED, POLL, a framer step, a transmit step and a
  packet on the line. Safe: such a byte is never read (10_state R34, R35; log 6). -/
  | unwrittenByte
  /-- An index outside a storage. Raised by every operation that reads or writes a storage. Safe: no operation makes such
  an index (20_memory R56; log 20). -/
  | noSuchIndex
  deriving DecidableEq, Repr

/-- Why an operation is refused: the closed list of 60_exceptions R208, and the model's own `notModelled`. All safe: a
refusal changes no state and outputs nothing, and a claim about a run takes "no operation was refused" as a premise. -/
inductive Refusal
  /-- An instruction the model gives no meaning to; raised by a refused arm of `exec` only. -/
  | notModelled (mnemonic : String)
  /-- `NO_SUCH_OPERATION` (30_encoding R91): raised by UNASSIGNED_E, UNASSIGNED_F and by a word that selects no operation. -/
  | noSuchOperation
  /-- `BAD_COUNT` (40_fifo R112, 41_crc16 R130): raised by STORE, by CRC16 and by the STORE inside WRITE (log 23). -/
  | badCount
  /-- `BAD_LENGTH` (42_packet_codec R141): raised by ENCODE. -/
  | badLength
  /-- `FRAME_TOO_LONG` (44_boundary R193): raised by WRITE. -/
  | frameTooLong
  deriving DecidableEq, Repr

/-- An empty FIFO whose storage nothing has written. -/
def Fifo.reset : Fifo := ⟨[], 0, 0⟩

/-- The block right after construction with the configuration `c` (10_state R35, 70 R221; log 5, log 6, log 18). -/
def State.resetWith (c : Config) : State where
  cfg       := c
  rx        := Fifo.reset
  tx        := Fifo.reset
  framer    := ⟨[], -1⟩
  crcAcc    := c.crc.init
  delivered := []
  txLine    := []
  errors    := []
  result    := .none
  agent     := .host
  pending   := []

/-- The block right after reset, with the configuration of log 2. -/
def State.reset : State := State.resetWith Config.standard

end Sys2Proof.Machine
end

