-- ==== Sys2Proof/Machine/Ops.lean ====
section
/-! DEFINITION. The named operations over storages, registers and the event history. The block has no exception entry and
no return from one (60_exceptions R203, R204): what stands in their place is `State.recordError`, which names the condition
in the history while the operation completes as its own rule says. -/

namespace Sys2Proof.Machine

/-! ### Storages (20_memory R50, R56) -/

/-- The byte at index `i`, if one was written. -/
def Memory.read : Memory → Nat → Option Byte
  | [], _ => none
  | (a, v) :: m, i => if a = i then some v else Memory.read m i

/-- Write byte `v` at index `i`, keeping the indices rising. -/
def Memory.write : Memory → Nat → Byte → Memory
  | [], i, v => [(i, v)]
  | (a, w) :: m, i, v =>
    if i < a then (i, v) :: (a, w) :: m
    else if i = a then (i, v) :: m
    else (a, w) :: Memory.write m i v

/-- The canonical form: indices strictly rising. No entry equals what an unlisted index reads as, since that is no value. -/
def Memory.wf : Memory → Bool
  | [] => true
  | [_] => true
  | (a, _) :: (b, w) :: m => a < b && Memory.wf ((b, w) :: m)

/-- `M[i]` in a storage of `cap` bytes (00_scope R14). -/
def storageRead (cap : Nat) (m : Memory) (i : Nat) : Except Fault Byte :=
  if i < cap then
    match m.read i with
    | some b => .ok b
    | none => .error .unwrittenByte
  else .error .noSuchIndex

/-- `M[i] <- v` in a storage of `cap` bytes (00_scope R14). -/
def storageWrite (cap : Nat) (m : Memory) (i : Nat) (v : Byte) : Except Fault Memory :=
  if i < cap then .ok (m.write i v) else .error .noSuchIndex

/-- `M[i .. i+n)`. -/
def readRun (cap : Nat) (m : Memory) (i : Nat) : Nat → Except Fault Bytes
  | 0 => .ok []
  | n + 1 =>
    match storageRead cap m i with
    | .error e => .error e
    | .ok b =>
      match readRun cap m (i + 1) n with
      | .error e => .error e
      | .ok bs => .ok (b :: bs)

/-- Write a byte string to the indices `i`, `i+1`, … in ascending order. -/
def writeRun (cap : Nat) (m : Memory) (i : Nat) : Bytes → Except Fault Memory
  | [] => .ok m
  | b :: bs =>
    match storageWrite cap m i b with
    | .error e => .error e
    | .ok m' => writeRun cap m' (i + 1) bs

/-- Write a byte string to the indices `w mod cap`, `(w+1) mod cap`, … in ascending order (20_memory R57). -/
def writeRing (cap : Nat) (m : Memory) (w : Nat) : Bytes → Except Fault Memory
  | [] => .ok m
  | b :: bs =>
    match storageWrite cap m (w % cap) b with
    | .error e => .error e
    | .ok m' => writeRing cap m' (w + 1) bs

/-! ### Registers -/

/-- The capacity `C` of an instance (00_scope R4). -/
def State.cap (s : State) : Inst → Nat
  | .rx => s.cfg.cRx
  | .tx => s.cfg.cTx

/-- The instance `F` that an operation names (10_state R25). -/
def State.fifo (s : State) : Inst → Fifo
  | .rx => s.rx
  | .tx => s.tx

/-- Replace the instance `F`; the two share no state (10_state R25). -/
def State.setFifo (s : State) (i : Inst) (f : Fifo) : State :=
  match i with
  | .rx => { s with rx := f }
  | .tx => { s with tx := f }

/-- `lastValidIndex <- i`. -/
def State.setLastValidIndex (s : State) (i : Int) : State :=
  { s with framer := { s.framer with lastValidIndex := i } }

/-- Replace the staging storage. -/
def State.setStg (s : State) (m : Memory) : State :=
  { s with framer := { s.framer with stg := m } }

/-- The result of the operation (00_scope R12). -/
def State.setResult (s : State) (r : Result) : State := { s with result := r }

/-- The serial CRC form, where it is built, holds the result of a computation after its last byte (10_state R31). -/
def State.noteCrc (s : State) (c : U16) : State :=
  if s.cfg.crcSerial then { s with crcAcc := c } else s

/-! ### The event history -/

/-- An error condition is met (60_exceptions R200): nothing is surfaced and nothing else changes (R201, R203). -/
def State.recordError (s : State) (e : ErrorCode) : State := { s with errors := s.errors ++ [e] }

/-- `deliver(p)` (00_scope R14, 44_boundary R192). -/
def State.deliver (s : State) (p : Bytes) : State := { s with delivered := s.delivered ++ [p] }

/-- A byte leaves on the line (10_state R32, 44_boundary R194). -/
def State.sendByte (s : State) (b : Byte) : State := { s with txLine := s.txLine ++ [b] }

/-- The code of a rejected window (60_exceptions R200). -/
def errorOfReject : RejectReason → ErrorCode
  | .badTerminator => .e1
  | .oversize => .e2
  | .badCrc => .e3
  | .badMarker => .e4
  | .zeroLen => .e5

/-- A computation either gives the next state or stops with a fault. -/
def ofExcept : Except Fault State → Host.Outcome State Fault Refusal
  | .ok s => .next s
  | .error f => .fault f

end Sys2Proof.Machine
end

