-- ==== Sys2Proof/Machine/Operands.lean ====
section
/-! DEFINITION. The operand forms: the fields of a window, and byte strings out of it (30_encoding R82 to R85). -/

namespace Sys2Proof.Machine

/-- `bs[i]` (00_scope R14). Every use reads an index below the length of the window (20_memory R56). -/
def byteAt (bs : Bytes) (i : Nat) : Byte := bs.getD i 0

/-- `bs[i .. j)` (00_scope R14). -/
def slice (bs : Bytes) (i j : Nat) : Bytes := (bs.drop i).take (j - i)

/-- What the header of a packet says (30_encoding R82, R84); `size` is a natural, which needs 17 bits (00_scope R13). -/
structure Header where
  hdr  : Nat
  len  : Nat
  size : Nat
  deriving DecidableEq, Repr

/-- The header at the front of a window: `win[0]` selects the form (30_encoding R82, R84, R85). -/
def headerOf (win : Bytes) : Option Header :=
  if byteAt win 0 = startShort then
    let len := (byteAt win 1).toNat
    some ⟨2, len, len + ovhShort⟩
  else if byteAt win 0 = startLong then
    let len := (be16 (byteAt win 1) (byteAt win 2)).toNat
    some ⟨3, len, len + ovhLong⟩
  else none

/-- `win[hdr .. hdr+len)` (30_encoding R83). -/
def payloadOf (win : Bytes) (h : Header) : Bytes := slice win h.hdr (h.hdr + h.len)

/-- `crc_rx` (30_encoding R83). -/
def crcFieldOf (win : Bytes) (h : Header) : U16 := be16 (byteAt win (h.size - 3)) (byteAt win (h.size - 2))

/-- A candidate start byte (00_scope glossary; 43_stream_framer R161). -/
def isCandidate (b : Byte) : Bool := b = startShort || b = startLong

/-- The index of the first candidate start in a byte string. -/
def firstCandidate : Bytes → Option Nat
  | [] => none
  | b :: bs => if isCandidate b then some 0 else (firstCandidate bs).map (· + 1)

/-- The least index in `1 .. n-1` of a candidate start (43_stream_framer R165). -/
def resyncPoint (win : Bytes) : Option Nat := (firstCandidate (win.drop 1)).map (· + 1)

end Sys2Proof.Machine
end

