-- ==== Sys2Proof/Machine/Flags.lean ====
section
/-! DEFINITION. The derived status values (10_state R24, R27, R29): the block stores no flag. -/

namespace Sys2Proof.Machine

/-- `empty` (10_state R24). -/
def Fifo.isEmpty (f : Fifo) : Bool := f.length = 0

/-- `full` (10_state R24). -/
def Fifo.isFull (cap : Nat) (f : Fifo) : Bool := f.length = cap - 1

/-- `freeSpace` (10_state R24). -/
def Fifo.freeSpace (cap : Nat) (f : Fifo) : Nat := cap - f.length - 1

/-- `n = lastValidIndex + 1` (10_state R27). -/
def Framer.n (f : Framer) : Nat := (f.lastValidIndex + 1).toNat

/-- The control state SEEKING (10_state R29). -/
def Framer.seeking (f : Framer) : Bool := f.lastValidIndex = -1

end Sys2Proof.Machine
end

