-- ==== Sys2Proof/Machine/Crc.lean ====
section
/-! DEFINITION. The CRC-16 generator (41_crc16 R130, R131). -/

namespace Sys2Proof.Machine

/-- One conditional shift-and-XOR step (41_crc16 R130). -/
def crcBit (poly c : U16) : U16 := if c.getLsbD 15 then (c <<< 1) ^^^ poly else c <<< 1

/-- `n` such steps. -/
def crcBits (poly : U16) : Nat → U16 → U16
  | 0, c => c
  | n + 1, c => crcBits poly n (crcBit poly c)

/-- `crc_step`: the byte enters at the high end, then eight steps (41_crc16 R131). -/
def crcStep (poly c : U16) (b : Byte) : U16 := crcBits poly 8 (c ^^^ (b.setWidth 16 <<< 8))

/-- The accumulator after the bytes of a string (41_crc16 R131). -/
def crcFold (poly : U16) : U16 → Bytes → U16
  | c, [] => c
  | c, b :: bs => crcFold poly (crcStep poly c b) bs

/-- The checksum (41_crc16 R130). The reflected variants of 00_scope R8's configuration record reflect each input byte and
the output, then XOR: PRESUMED, from the common catalogue of CRCs (log 4); R8 fixes no reflection and no final XOR. -/
def crc16 (p : CrcParams) (bytes : Bytes) : U16 :=
  if p.reflect then (crcFold p.poly p.init (bytes.map BitVec.reverse)).reverse ^^^ p.xorout
  else crcFold p.poly p.init bytes ^^^ p.xorout

/-- CRC16 (41_crc16 R130). -/
def execCrc16 (bytes : Bytes) (s : State) : Host.Outcome State Fault Refusal :=
  if countMax < bytes.length then .refused .badCount
  else
    let c := crc16 s.cfg.crc bytes
    .next ((s.noteCrc c).setResult (.crc c))

end Sys2Proof.Machine
end

