-- ==== Sys2Proof/Machine/Codec.lean ====
section
/-! DEFINITION. The packet codec: ENCODE and DECODE (42_packet_codec R140 to R143). -/

namespace Sys2Proof.Machine

/-- The frame of a payload, whose length is in ENCODE's domain (42_packet_codec R140, 30_encoding R87). -/
def frameOf (p : CrcParams) (payload : Bytes) : Bytes :=
  if payload.length ≤ shortMax then shortFrame payload (crc16 p payload)
  else longFrame payload (crc16 p payload)

/-- Lines 1 to 6 of DECODE, in their fixed order: a verdict that they decide, or the header of a packet whose CRC is still
to be checked (42_packet_codec R142, 60_exceptions R202). -/
def checkWindow (c : Config) (win : Bytes) : Except Verdict Header :=
  if win.length < minPacket then .error .needMore
  else match headerOf win with
    | none => .error (.reject .badMarker)
    | some h =>
      if h.len = 0 ∧ c.zeroLen = .reject then .error (.reject .zeroLen)
      else if c.stgCap < h.size then .error (.reject .oversize)
      else if win.length < h.size then .error .needMore
      else if byteAt win (h.size - 1) ≠ endMark then .error (.reject .badTerminator)
      else .ok h

/-- DECODE: lines 1 to 8 (42_packet_codec R142). -/
def decodeWindow (c : Config) (win : Bytes) : Verdict :=
  match checkWindow c win with
  | .error v => v
  | .ok h =>
    if crc16 c.crc (payloadOf win h) ≠ crcFieldOf win h then .reject .badCrc
    else .ok h.hdr h.len h.size

/-- The CRC accumulator after a DECODE: a CRC is computed only if lines 1 to 6 pass (42_packet_codec R142). -/
def State.noteDecode (s : State) (win : Bytes) : State :=
  match checkWindow s.cfg win with
  | .error _ => s
  | .ok h => s.noteCrc (crc16 s.cfg.crc (payloadOf win h))

/-- ENCODE (42_packet_codec R140, R141). -/
def execEncode (payload : Bytes) (s : State) : Host.Outcome State Fault Refusal :=
  if payload.length < 1 ∨ lMax < payload.length then .refused .badLength
  else .next ((s.noteCrc (crc16 s.cfg.crc payload)).setResult (.frame (frameOf s.cfg.crc payload)))

/-- DECODE (42_packet_codec R142). -/
def execDecode (win : Bytes) (s : State) : Host.Outcome State Fault Refusal :=
  .next ((s.noteDecode win).setResult (.verdict (decodeWindow s.cfg win)))

end Sys2Proof.Machine
end

