-- ==== Sys2Proof/Machine/Fifo.lean ====
section
/-! DEFINITION. The FIFO operations (40_fifo R110 to R115). -/

namespace Sys2Proof.Machine

/-! ### One instance -/

/-- `F.start <- 0; F.length <- 0`, the storage unchanged (40_fifo R110). -/
def Fifo.clear (f : Fifo) : Fifo := { f with start := 0, length := 0 }

/-- PUSH on one instance; the flag says that it overflowed (40_fifo R111). -/
def fifoPush (cap : Nat) (f : Fifo) (b : Byte) : Except Fault (Fifo × Bool) :=
  if f.isFull cap then .ok (f.clear, true)
  else
    match storageWrite cap f.mem ((f.start + f.length) % cap) b with
    | .error e => .error e
    | .ok m => .ok ({ f with mem := m, length := f.length + 1 }, false)

/-- STORE on one instance; the flag says that it overflowed (40_fifo R112). -/
def fifoStore (cap : Nat) (f : Fifo) (data : Bytes) : Except Fault (Fifo × Bool) :=
  if f.freeSpace cap < data.length then .ok (f.clear, true)
  else
    match writeRing cap f.mem (f.start + f.length) data with
    | .error e => .error e
    | .ok m => .ok ({ f with mem := m, length := f.length + data.length }, false)

/-- POP on one instance: the `ok` bit, the byte and the instance after it (40_fifo R113). -/
def fifoPop (cap : Nat) (f : Fifo) : Except Fault (Bool × Byte × Fifo) :=
  if f.isEmpty then .ok (false, popEmptyData, f)
  else
    match storageRead cap f.mem f.start with
    | .error e => .error e
    | .ok b => .ok (true, b, { f with start := (f.start + 1) % cap, length := f.length - 1 })

/-- An overflow is error condition E6 (60_exceptions R200, R207). -/
def State.noteOverflow (s : State) (overflowed : Bool) : State :=
  if overflowed then s.recordError .e6 else s

/-- PUSH on the instance of a state, without the result: PUSH and RXP's step share it. -/
def pushInst (i : Inst) (b : Byte) (s : State) : Except Fault State :=
  match fifoPush (s.cap i) (s.fifo i) b with
  | .error e => .error e
  | .ok (f, ov) => .ok ((s.setFifo i f).noteOverflow ov)

/-- STORE on the instance of a state, without the count check and the result: STORE and WRITE share it. -/
def storeInst (i : Inst) (data : Bytes) (s : State) : Except Fault State :=
  match fifoStore (s.cap i) (s.fifo i) data with
  | .error e => .error e
  | .ok (f, ov) => .ok ((s.setFifo i f).noteOverflow ov)

/-- A byte that TXC pops from `TX_FIFO` leaves on the line (10_state R32, 44_boundary R194; log 17). -/
def State.notePop (s : State) (i : Inst) (b : Byte) : State :=
  if i = .tx ∧ s.agent = .txc then s.sendByte b else s

/-- POP on the instance of a state, with its result: POP and TXC's step share it. -/
def popInst (i : Inst) (s : State) : Except Fault State :=
  match fifoPop (s.cap i) (s.fifo i) with
  | .error e => .error e
  | .ok (true, b, f) => .ok (((s.setFifo i f).notePop i b).setResult (.popped true b))
  | .ok (false, b, _) => .ok ((s.recordError .e7).setResult (.popped false b))

/-! ### The operations -/

/-- FIFO_RESET (40_fifo R110). -/
def execFifoReset (i : Inst) (s : State) : Host.Outcome State Fault Refusal :=
  .next ((s.setFifo i (s.fifo i).clear).setResult .none)

/-- PUSH (40_fifo R111). -/
def execPush (i : Inst) (b : Byte) (s : State) : Host.Outcome State Fault Refusal :=
  ofExcept ((pushInst i b s).map (·.setResult .none))

/-- STORE (40_fifo R112). -/
def execStore (i : Inst) (data : Bytes) (s : State) : Host.Outcome State Fault Refusal :=
  if countMax < data.length then .refused .badCount
  else ofExcept ((storeInst i data s).map (·.setResult .none))

/-- POP (40_fifo R113). -/
def execPop (i : Inst) (s : State) : Host.Outcome State Fault Refusal :=
  ofExcept (popInst i s)

/-- LENGTH (40_fifo R114). -/
def execLength (i : Inst) (s : State) : Host.Outcome State Fault Refusal :=
  .next (s.setResult (.count (s.fifo i).length))

/-- FREESPACE (40_fifo R115). -/
def execFreeSpace (i : Inst) (s : State) : Host.Outcome State Fault Refusal :=
  .next (s.setResult (.count ((s.fifo i).freeSpace (s.cap i))))

end Sys2Proof.Machine
end

