-- ==== Sys2Proof/Machine/Framer.lean ====
section
/-! DEFINITION. The stream framer and resynchroniser: FRAMER_RESET, FEED, POLL (43_stream_framer R160 to R168) and the
framer agent's step (44_boundary R191). -/

namespace Sys2Proof.Machine

/-! ### The decode pass -/

/-- Remove the first `k` staging bytes: the rest is copied to index 0 in ascending order (20_memory R61). `win` is
`stg.contents`; an ascending copy reads each byte before it is overwritten. -/
def shiftLeft (k : Nat) (win : Bytes) (s : State) : Except Fault State :=
  match writeRun s.cfg.stgCap s.framer.stg 0 (win.drop k) with
  | .error e => .error e
  | .ok m => .ok ((s.setStg m).setLastValidIndex (s.framer.lastValidIndex - k))

/-- Discard everything: `lastValidIndex <- -1` (43_stream_framer R165, R166). -/
def discardAll (s : State) : State := s.setLastValidIndex (-1)

/-- Success: deliver a copy, then remove the packet (43_stream_framer R164). -/
def consume (hdr len size : Nat) (win : Bytes) (s : State) : Except Fault State :=
  shiftLeft size win (s.deliver (slice win hdr (hdr + len)))

/-- Slide forward to the next candidate start (43_stream_framer R165). -/
def resync (win : Bytes) (s : State) : Except Fault State :=
  match resyncPoint win with
  | some j => shiftLeft j win s
  | none => .ok (discardAll s)

/-- The reaction to a rejected window (43_stream_framer R163, R165, R166). -/
def react (r : RejectReason) (win : Bytes) (s : State) : Except Fault State :=
  if r = .oversize ∧ s.cfg.oversize = .discardAll then .ok (discardAll s) else resync win s

/-- One trip round the loop on the window `win`; `none` when the pass returns with `need_more` (43_stream_framer R163). -/
def passTrip (win : Bytes) (s : State) : Except Fault (Option State) :=
  match decodeWindow s.cfg win with
  | .needMore => .ok none
  | .ok hdr len size => (consume hdr len size win (s.noteDecode win)).map some
  | .reject r => (react r win ((s.noteDecode win).recordError (errorOfReject r))).map some

/-- The loop (43_stream_framer R163). The first argument bounds the trips; `n + 1` is enough, since each trip that does not
return removes at least one byte (R167). -/
def passLoop : Nat → State → Except Fault State
  | 0, s => .ok s
  | k + 1, s =>
    if s.framer.n = 0 then .ok s
    else
      match readRun s.cfg.stgCap s.framer.stg 0 s.framer.n with
      | .error e => .error e
      | .ok win =>
        match passTrip win s with
        | .error e => .error e
        | .ok none => .ok s
        | .ok (some s') => passLoop k s'

/-- The decode pass, the common tail of FEED (43_stream_framer R163). -/
def decodePass (s : State) : Except Fault State := passLoop (s.framer.n + 1) s

/-! ### FEED -/

/-- Append a byte to the staging buffer (43_stream_framer R161, R162); with no room it is the fault R162 names. -/
def appendByte (b : Byte) (s : State) : Except Fault State :=
  if s.framer.n < s.cfg.stgCap then
    .ok ((s.setStg (s.framer.stg.write s.framer.n b)).setLastValidIndex (s.framer.lastValidIndex + 1))
  else .error .stagingOverflow

/-- FEED without its result (43_stream_framer R161, R162): FEED, POLL and the framer's step share it. -/
def feedByte (b : Byte) (s : State) : Except Fault State :=
  if s.framer.seeking ∧ ¬ isCandidate b then .ok s
  else
    match appendByte b s with
    | .error e => .error e
    | .ok s' => decodePass s'

/-- The result of an operation that delivers: the payloads delivered since `before`. -/
def State.withPayloadsSince (s before : State) : State :=
  s.setResult (.payloads (s.delivered.drop before.delivered.length))

/-! ### The framer agent -/

/-- POP RX, then FEED of the byte popped (44_boundary R191); with `RX_FIFO` empty there is no such step and nothing
changes. -/
def framerStep (s : State) : Except Fault State :=
  match fifoPop s.cfg.cRx s.rx with
  | .error e => .error e
  | .ok (false, _, _) => .ok s
  | .ok (true, b, f) => feedByte b (s.setFifo .rx f)

/-- A run of `k` framer steps. -/
def framerSteps : Nat → State → Except Fault State
  | 0, s => .ok s
  | k + 1, s =>
    match framerStep s with
    | .error e => .error e
    | .ok s' => framerSteps k s'

/-! ### The operations -/

/-- FRAMER_RESET (43_stream_framer R160). -/
def execFramerReset (s : State) : Host.Outcome State Fault Refusal :=
  .next ((discardAll s).setResult .none)

/-- FEED (43_stream_framer R161, R162). -/
def execFeed (b : Byte) (s : State) : Host.Outcome State Fault Refusal :=
  ofExcept ((feedByte b s).map (·.withPayloadsSince s))

/-- POLL (43_stream_framer R168): framer steps until `RX_FIFO` is empty. Nothing is pushed in between (log 14), so as many
steps as there are bytes. -/
def execPoll (s : State) : Host.Outcome State Fault Refusal :=
  ofExcept ((framerSteps s.rx.length s).map (·.withPayloadsSince s))

end Sys2Proof.Machine
end

