-- ==== Sys2Proof/Machine/Boundary.lean ====
section
/-! DEFINITION. The boundary with the surrounding software (44_boundary R190 to R195): WRITE, the transmit drain, and
bytes and packets that arrive on the line. -/

namespace Sys2Proof.Machine

/-! ### Transmit side -/

/-- A WRITE that could fit but finds no room waits (44_boundary R193, 00_scope R12). -/
def writeHolds (frame : Bytes) (s : State) : Bool :=
  frame.length ≤ s.cfg.cTx - 1 && s.tx.freeSpace s.cfg.cTx < frame.length

/-- WRITE (44_boundary R193). The STORE inside it has STORE's own domain (40_fifo R112; log 23). -/
def execWrite (frame : Bytes) (s : State) : Host.Outcome State Fault Refusal :=
  if s.cfg.cTx - 1 < frame.length then .refused .frameTooLong
  else if writeHolds frame s then .next (s.setResult .held)
  else if countMax < frame.length then .refused .badCount
  else ofExcept ((storeInst .tx frame s).map (·.setResult .none))

/-- TXC's step: POP TX, the byte leaving on the line (44_boundary R194). -/
def txStep (s : State) : Except Fault State := popInst .tx { s with agent := .txc }

/-! ### Receive side -/

/-- A byte arrives: RXP pushes it (44_boundary R190) and the framer takes its step if it is enabled (R191). DESIGN CHOICE
of one schedule out of all (log 15); every other one is a list of PUSH requests and framer steps. -/
def receiveByte (b : Byte) (s : State) : Except Fault State :=
  match pushInst .rx b s with
  | .error e => .error e
  | .ok s' => framerStep s'

/-- A byte string arrives, in order. -/
def receiveBytes : Bytes → State → Except Fault State
  | [], s => .ok s
  | b :: bs, s =>
    match receiveByte b s with
    | .error e => .error e
    | .ok s' => receiveBytes bs s'

/-- A short-form packet arrives on the line (30_encoding R80; log 15). -/
def execFrameShort (payload : Bytes) (crc : U16) (s : State) : Host.Outcome State Fault Refusal :=
  ofExcept ((receiveBytes (shortFrame payload crc) s).map (·.withPayloadsSince s))

/-- A long-form packet arrives on the line (30_encoding R81; log 15). -/
def execFrameLong (payload : Bytes) (crc : U16) (s : State) : Host.Outcome State Fault Refusal :=
  ofExcept ((receiveBytes (longFrame payload crc) s).map (·.withPayloadsSince s))

end Sys2Proof.Machine
end

