-- ==== Sys2Proof/Machine/Control.lean ====
section
/-! DEFINITION. RESET (70_reset_and_hazards R220) and the two unassigned codes (30_encoding R91). -/

namespace Sys2Proof.Machine

/-- Both FIFOs, the framer, the CRC accumulator and the event history at their reset values; the storages keep what they
hold (70 R220, 10_state R35; log 7). -/
def resetBlock (s : State) : State :=
  { s with
    rx        := s.rx.clear
    tx        := s.tx.clear
    framer    := (discardAll s).framer
    crcAcc    := if s.cfg.crcSerial then s.cfg.crc.init else s.crcAcc
    delivered := []
    txLine    := []
    errors    := [] }

/-- RESET (70 R220). -/
def execReset (s : State) : Host.Outcome State Fault Refusal :=
  .next ((resetBlock s).setResult .none)

/-- `op = 0xE` selects no operation (30_encoding R91). -/
def execUnassignedE (_hi : BitVec 4) (_s : State) : Host.Outcome State Fault Refusal := .refused .noSuchOperation

/-- `op = 0xF` selects no operation (30_encoding R91). -/
def execUnassignedF (_hi : BitVec 4) (_s : State) : Host.Outcome State Fault Refusal := .refused .noSuchOperation

end Sys2Proof.Machine
end

