-- ==== Sys2Proof/Machine/Dispatch.lean ====
section
/-! DEFINITION. One arm per instruction, each one direct call of its meaning. -/

namespace Sys2Proof.Machine

def exec (i : Instr) (s : State) : Host.Outcome State Fault Refusal :=
  match i with
  | .reset => Sys2Proof.Machine.execReset s
  | .push f b => Sys2Proof.Machine.execPush f b s
  | .store f data => Sys2Proof.Machine.execStore f data s
  | .pop f => Sys2Proof.Machine.execPop f s
  | .length f => Sys2Proof.Machine.execLength f s
  | .freeSpace f => Sys2Proof.Machine.execFreeSpace f s
  | .fifoReset f => Sys2Proof.Machine.execFifoReset f s
  | .crc16 bytes => Sys2Proof.Machine.execCrc16 bytes s
  | .encode payload => Sys2Proof.Machine.execEncode payload s
  | .decode win => Sys2Proof.Machine.execDecode win s
  | .feed b => Sys2Proof.Machine.execFeed b s
  | .poll => Sys2Proof.Machine.execPoll s
  | .framerReset => Sys2Proof.Machine.execFramerReset s
  | .write frame => Sys2Proof.Machine.execWrite frame s
  | .unassignedE hi => Sys2Proof.Machine.execUnassignedE hi s
  | .unassignedF hi => Sys2Proof.Machine.execUnassignedF hi s
  | .frameShort payload crc => Sys2Proof.Machine.execFrameShort payload crc s
  | .frameLong payload crc => Sys2Proof.Machine.execFrameLong payload crc s

end Sys2Proof.Machine
end

