-- ==== Sys2Proof/Machine/Schedule.lean ====
section
/-! DEFINITION. Which request the block serves next and how (00_scope R10 to R12, 20_memory R60; log 11, log 12, log 13).
The order of the agents is the order of the list `pending`; a request that is not enabled waits, and so do the later
requests of its agent. -/

namespace Sys2Proof.Machine

/-- Whose request an event is. -/
def Event.agent : Event → Agent
  | .op a _ => a
  | .framerStep => .frm
  | .txStep => .txc
  | .line _ => .rxp

/-- Only WRITE can hold (00_scope R12). -/
def instrHolds (i : Instr) (s : State) : Bool :=
  match i with
  | .write frame => writeHolds frame s
  | _ => false

/-- An event is enabled: a framer step when `RX_FIFO` is not empty (44_boundary R191), a transmit step when `TX_FIFO` is not
empty (R194), an operation unless it holds (R193). -/
def Event.enabled (s : State) : Event → Bool
  | .op _ r =>
    match decodeOp r with
    | .ok i => !instrHolds i s
    | .error _ => true
  | .framerStep => !s.rx.isEmpty
  | .txStep => !s.tx.isEmpty
  | .line _ => true

/-- The first enabled event whose agent has no earlier event waiting, and the list without it. -/
def pick (s : State) : List Agent → List Event → Option (Event × List Event)
  | _, [] => none
  | waiting, e :: es =>
    if e.agent ∈ waiting ∨ ¬ e.enabled s then
      match pick s (e.agent :: waiting) es with
      | none => none
      | some (e', rest) => some (e', e :: rest)
    else some (e, es)

/-- Bytes still to come on the line stay at the head. -/
def putBack (rest : Bytes) (es : List Event) : List Event :=
  match rest with
  | [] => es
  | _ :: _ => .line rest :: es

/-- Serve one event; `rest` is the list without it. A word that selects no operation is refused (30_encoding R91). Bytes on
the line are taken a packet at a time where they form one, and one byte at a time where they do not (log 16). -/
def serve (e : Event) (rest : List Event) (s : State) : Host.Outcome State Fault Refusal :=
  match e with
  | .op a r =>
    match decodeOp r with
    | .ok i => exec i { s with agent := a, pending := rest }
    | .error _ => .refused .noSuchOperation
  | .framerStep =>
    let s' := { s with agent := .frm, pending := rest }
    ofExcept ((framerStep s').map (·.withPayloadsSince s'))
  | .txStep => ofExcept (txStep { s with pending := rest })
  | .line [] => .next { s with agent := .rxp, pending := rest }
  | .line (b :: bs) =>
    match decodeLine (b :: bs) with
    | .ok (i, more) => exec i { s with agent := .rxp, pending := putBack more rest }
    | .error _ =>
      let s' := { s with agent := .rxp, pending := putBack bs rest }
      ofExcept ((receiveByte b s').map (·.withPayloadsSince s'))

/-- With no request enabled FRM takes its step if it has one, else TXC, else nothing happens: the weak fairness of
44_boundary R191 (log 13). -/
def idle (s : State) : Host.Outcome State Fault Refusal :=
  if s.rx.isEmpty then
    if s.tx.isEmpty then .next s else serve .txStep s.pending s
  else serve .framerStep s.pending s

/-- One step of the block: the next enabled request, or the step of an agent on its own. -/
def advance (s : State) : Host.Outcome State Fault Refusal :=
  match pick s [] s.pending with
  | some (e, rest) => serve e rest s
  | none => idle s

/-- The agent whose operation a word is by the discipline of 60_exceptions R206: RXP fills RX, TXC pops TX, FRM pops RX,
feeds, polls and resets the framer, HOST does the rest. -/
def roleOf (w : Byte) : Agent :=
  match decodeOp ⟨w, 0, []⟩ with
  | .ok (.push .rx _) => .rxp
  | .ok (.store .rx _) => .rxp
  | .ok (.pop .rx) => .frm
  | .ok (.pop .tx) => .txc
  | .ok (.feed _) => .frm
  | .ok .poll => .frm
  | .ok .framerReset => .frm
  | _ => .host

/-- The request that presents a table row's bits (log 19). -/
def eventOfWord (nbits w : Nat) : Event :=
  if nbits ≤ 8 then .op (roleOf (BitVec.ofNat 8 w)) ⟨BitVec.ofNat 8 w, 0, []⟩
  else .line (wordBytes ((nbits + 7) / 8) w)

end Sys2Proof.Machine
end

