-- ==== Sys2Proof/Machine/Step.lean ====
section
/-! DEFINITION. One step of the machine, and the placing of an instruction where the step takes its next one. -/

namespace Sys2Proof.Machine

/-- One step: the block serves its next enabled request (log 12). -/
def step (s : State) : Host.Outcome State Fault Refusal := advance s

/-- `s` with the table row's bits as the first request the step serves. -/
def State.withFetchWord (s : State) (nbits w : Nat) : State :=
  { s with pending := eventOfWord nbits w :: s.pending }

end Sys2Proof.Machine
end

