-- ==== Sys2Proof/Safety.lean ====
section
/-! DEFINITION. What counts as a safe state and a safe run, in the terms the claims use: the invariants of 10_state R23 and
R30, the contents of a storage as a byte string (R23, R28), and what it is to leave a part of the block alone. -/

namespace Sys2Proof.Machine

/-! ### Invariants -/

/-- Nothing is written outside a storage of `cap` bytes (20_memory R56). -/
abbrev Memory.within (cap : Nat) (m : Memory) : Prop := ∀ c ∈ m, c.1 < cap

/-- The invariant of a FIFO instance (10_state R23), the canonical form of its storage, and that its valid bytes have been
written (R34, R35). -/
abbrev Fifo.ok (cap : Nat) (f : Fifo) : Prop :=
  f.start < cap ∧ f.length ≤ cap - 1 ∧ f.mem.wf = true ∧ Memory.within cap f.mem ∧
    ∀ k, k < f.length → (f.mem.read ((f.start + k) % cap)).isSome = true

/-- The invariant of the framer between operations (10_state R27, R30), the canonical form of its storage, and that its
valid bytes have been written (R34, R35). -/
abbrev Framer.ok (cap : Nat) (f : Framer) : Prop :=
  -1 ≤ f.lastValidIndex ∧ f.lastValidIndex + 1 ≤ (cap : Int) - 1 ∧ f.stg.wf = true ∧ Memory.within cap f.stg ∧
    ∀ k, k < f.n → (f.stg.read k).isSome = true

/-- The invariant of the block. -/
abbrev State.inv (s : State) : Prop :=
  s.cfg.valid ∧ s.rx.ok s.cfg.cRx ∧ s.tx.ok s.cfg.cTx ∧ s.framer.ok s.cfg.stgCap

/-! ### Contents -/

/-- `F.contents = bs` (10_state R23). -/
def Fifo.holds (cap : Nat) (f : Fifo) (bs : Bytes) : Prop :=
  f.length = bs.length ∧ ∀ k, k < bs.length → f.mem.read ((f.start + k) % cap) = bs[k]?

/-- `stg.contents = bs` (10_state R28). -/
def Framer.holds (f : Framer) (bs : Bytes) : Prop :=
  f.lastValidIndex = (bs.length : Int) - 1 ∧ ∀ k, k < bs.length → f.stg.read k = bs[k]?

/-- Two instances that differ in nothing an operation can show (10_state R34). -/
def Fifo.sameContents (cap : Nat) (f g : Fifo) : Prop := ∃ bs, f.holds cap bs ∧ g.holds cap bs

/-! ### Runs -/

/-- `k` steps of the block, stopping at the first fault or refusal. -/
abbrev run (k : Nat) (s : State) : Host.Outcome State Fault Refusal := Sys2Proof.core.run k s

/-- A run of single operations, stopping at the first fault or refusal. -/
def execAll : List Instr → State → Host.Outcome State Fault Refusal
  | [], s => .next s
  | i :: is, s =>
    match exec i s with
    | .next t => execAll is t
    | .fault f => .fault f
    | .refused r => .refused r

/-! ### Frames -/

/-- The other instance. -/
def other : Inst → Inst
  | .rx => .tx
  | .tx => .rx

/-- The configuration, the acting agent and the requests are as before. -/
abbrev keepsControl (s t : State) : Prop := t.cfg = s.cfg ∧ t.agent = s.agent ∧ t.pending = s.pending

/-- The framer, the CRC accumulator and what has been delivered are as before. -/
abbrev keepsFramer (s t : State) : Prop := t.framer = s.framer ∧ t.crcAcc = s.crcAcc ∧ t.delivered = s.delivered

/-- Both FIFOs and the transmit line are as before. -/
abbrev keepsFifos (s t : State) : Prop := t.rx = s.rx ∧ t.tx = s.tx ∧ t.txLine = s.txLine

/-- Every byte of a storage outside the set `P` of indices reads as before. -/
def keepsBytesOutside (P : Nat → Prop) (m m' : Memory) : Prop := ∀ a, ¬ P a → Memory.read m' a = Memory.read m a

/-! ### The spec's own descriptions, for the claims to compare with -/

/-- The staging shift as 20_memory R61 writes it: `for i in 0 .. c-1: stg[i] <- stg[i+k]`, in ascending `i`. -/
def copyDown (cap k : Nat) (m : Memory) (i : Nat) : Nat → Except Fault Memory
  | 0 => .ok m
  | c + 1 =>
    match storageRead cap m (i + k) with
    | .error e => .error e
    | .ok b =>
      match storageWrite cap m i b with
      | .error e => .error e
      | .ok m' => copyDown cap k m' (i + 1) c

/-- The table `T` as 41_crc16 R132 prints it, row by row. -/
def crcTable : List U16 :=
  [0x0000, 0x1021, 0x2042, 0x3063, 0x4084, 0x50a5, 0x60c6, 0x70e7] ++
  [0x8108, 0x9129, 0xa14a, 0xb16b, 0xc18c, 0xd1ad, 0xe1ce, 0xf1ef] ++
  [0x1231, 0x0210, 0x3273, 0x2252, 0x52b5, 0x4294, 0x72f7, 0x62d6] ++
  [0x9339, 0x8318, 0xb37b, 0xa35a, 0xd3bd, 0xc39c, 0xf3ff, 0xe3de] ++
  [0x2462, 0x3443, 0x0420, 0x1401, 0x64e6, 0x74c7, 0x44a4, 0x5485] ++
  [0xa56a, 0xb54b, 0x8528, 0x9509, 0xe5ee, 0xf5cf, 0xc5ac, 0xd58d] ++
  [0x3653, 0x2672, 0x1611, 0x0630, 0x76d7, 0x66f6, 0x5695, 0x46b4] ++
  [0xb75b, 0xa77a, 0x9719, 0x8738, 0xf7df, 0xe7fe, 0xd79d, 0xc7bc] ++
  [0x48c4, 0x58e5, 0x6886, 0x78a7, 0x0840, 0x1861, 0x2802, 0x3823] ++
  [0xc9cc, 0xd9ed, 0xe98e, 0xf9af, 0x8948, 0x9969, 0xa90a, 0xb92b] ++
  [0x5af5, 0x4ad4, 0x7ab7, 0x6a96, 0x1a71, 0x0a50, 0x3a33, 0x2a12] ++
  [0xdbfd, 0xcbdc, 0xfbbf, 0xeb9e, 0x9b79, 0x8b58, 0xbb3b, 0xab1a] ++
  [0x6ca6, 0x7c87, 0x4ce4, 0x5cc5, 0x2c22, 0x3c03, 0x0c60, 0x1c41] ++
  [0xedae, 0xfd8f, 0xcdec, 0xddcd, 0xad2a, 0xbd0b, 0x8d68, 0x9d49] ++
  [0x7e97, 0x6eb6, 0x5ed5, 0x4ef4, 0x3e13, 0x2e32, 0x1e51, 0x0e70] ++
  [0xff9f, 0xefbe, 0xdfdd, 0xcffc, 0xbf1b, 0xaf3a, 0x9f59, 0x8f78] ++
  [0x9188, 0x81a9, 0xb1ca, 0xa1eb, 0xd10c, 0xc12d, 0xf14e, 0xe16f] ++
  [0x1080, 0x00a1, 0x30c2, 0x20e3, 0x5004, 0x4025, 0x7046, 0x6067] ++
  [0x83b9, 0x9398, 0xa3fb, 0xb3da, 0xc33d, 0xd31c, 0xe37f, 0xf35e] ++
  [0x02b1, 0x1290, 0x22f3, 0x32d2, 0x4235, 0x5214, 0x6277, 0x7256] ++
  [0xb5ea, 0xa5cb, 0x95a8, 0x8589, 0xf56e, 0xe54f, 0xd52c, 0xc50d] ++
  [0x34e2, 0x24c3, 0x14a0, 0x0481, 0x7466, 0x6447, 0x5424, 0x4405] ++
  [0xa7db, 0xb7fa, 0x8799, 0x97b8, 0xe75f, 0xf77e, 0xc71d, 0xd73c] ++
  [0x26d3, 0x36f2, 0x0691, 0x16b0, 0x6657, 0x7676, 0x4615, 0x5634] ++
  [0xd94c, 0xc96d, 0xf90e, 0xe92f, 0x99c8, 0x89e9, 0xb98a, 0xa9ab] ++
  [0x5844, 0x4865, 0x7806, 0x6827, 0x18c0, 0x08e1, 0x3882, 0x28a3] ++
  [0xcb7d, 0xdb5c, 0xeb3f, 0xfb1e, 0x8bf9, 0x9bd8, 0xabbb, 0xbb9a] ++
  [0x4a75, 0x5a54, 0x6a37, 0x7a16, 0x0af1, 0x1ad0, 0x2ab3, 0x3a92] ++
  [0xfd2e, 0xed0f, 0xdd6c, 0xcd4d, 0xbdaa, 0xad8b, 0x9de8, 0x8dc9] ++
  [0x7c26, 0x6c07, 0x5c64, 0x4c45, 0x3ca2, 0x2c83, 0x1ce0, 0x0cc1] ++
  [0xef1f, 0xff3e, 0xcf5d, 0xdf7c, 0xaf9b, 0xbfba, 0x8fd9, 0x9ff8] ++
  [0x6e17, 0x7e36, 0x4e55, 0x5e74, 0x2e93, 0x3eb2, 0x0ed1, 0x1ef0]

/-- The bytes from the least index in `1 .. n-1` that is a candidate start, or none (43_stream_framer R165). -/
def afterResync (win : Bytes) : Bytes := (win.drop 1).dropWhile (fun b => b ≠ startShort ∧ b ≠ startLong)

/-- What a decode pass does, in the spec's own terms: the bytes it leaves buffered, the payloads it delivers, the error
conditions it meets (60_exceptions R200, log 8), and the CRCs it computes (log 5), each in order. -/
structure Pass where
  left     : Bytes
  payloads : List Bytes
  codes    : List ErrorCode
  crcs     : List U16
  deriving DecidableEq, Repr

/-- A pass that ends with `win` buffered. -/
def Pass.stop (win : Bytes) : Pass := ⟨win, [], [], []⟩

/-- The CRC that DECODE computes on a window: at line 7, which it reaches with the verdict `ok` or `BAD_CRC`
(42_packet_codec R142). -/
def computedCrc (c : Config) (win : Bytes) : List U16 :=
  match decodeWindow c win, headerOf win with
  | .ok _ _ _, some h => [crc16 c.crc (payloadOf win h)]
  | .reject .badCrc, some h => [crc16 c.crc (payloadOf win h)]
  | _, _ => []

/-- The decode pass on a byte string (43_stream_framer R163 to R166). -/
def listPass (c : Config) : Nat → Bytes → Pass
  | 0, win => Pass.stop win
  | _ + 1, [] => Pass.stop []
  | k + 1, b :: win =>
    match decodeWindow c (b :: win) with
    | .needMore => Pass.stop (b :: win)
    | .ok hdr len size =>
      let r := listPass c k ((b :: win).drop size)
      { r with payloads := slice (b :: win) hdr (hdr + len) :: r.payloads, crcs := computedCrc c (b :: win) ++ r.crcs }
    | .reject why =>
      let r := if why = .oversize ∧ c.oversize = .discardAll then Pass.stop [] else listPass c k (afterResync (b :: win))
      { r with codes := errorOfReject why :: r.codes, crcs := computedCrc c (b :: win) ++ r.crcs }

/-- FEED on a byte string (43_stream_framer R161, R162). -/
def listFeed (c : Config) (win : Bytes) (b : Byte) : Pass :=
  if win = [] ∧ b ≠ startShort ∧ b ≠ startLong then Pass.stop [] else listPass c (win.length + 1) (win ++ [b])

/-- The results of a run of operations and the state after it. -/
def traceAll : List Instr → State → Option (List Result × State)
  | [], s => some ([], s)
  | i :: is, s =>
    match exec i s with
    | .next t => (traceAll is t).map (fun r => (t.result :: r.1, r.2))
    | .fault _ => none
    | .refused _ => none

/-! ### FIFO traffic (40_fifo R117) -/

/-- PUSH, STORE or POP on the instance `x`. -/
def isTraffic (x : Inst) : Instr → Bool
  | .push f _ => f = x
  | .store f _ => f = x
  | .pop f => f = x
  | _ => false

/-- The bytes an operation puts in. -/
def putIn : Instr → Bytes
  | .push _ b => [b]
  | .store _ data => data
  | _ => []

/-- The bytes a result takes out. -/
def takenOut : Result → Bytes
  | .popped true b => [b]
  | _ => []

/-! ### The discipline of roles (60_exceptions R206), a premise: the block does not enforce it -/

/-- `RX_FIFO` is filled by RXP alone and popped by FRM alone, and FEED, POLL and FRAMER_RESET are FRM's. A framer step and
bytes on the line are FRM's and RXP's by what they are. -/
def keepsReceiveRoles : Event → Bool
  | .op a r =>
    match decodeOp r with
    | .ok (.push .rx _) => a = .rxp
    | .ok (.store .rx _) => a = .rxp
    | .ok (.pop .rx) => a = .frm
    | .ok (.feed _) => a = .frm
    | .ok .poll => a = .frm
    | .ok .framerReset => a = .frm
    | _ => true
  | _ => true

/-- `TX_FIFO` is filled by HOST alone, through WRITE, and popped by TXC alone. -/
def keepsTransmitRoles : Event → Bool
  | .op a r =>
    match decodeOp r with
    | .ok (.push .tx _) => false
    | .ok (.store .tx _) => false
    | .ok (.write _) => a = .host
    | .ok (.pop .tx) => a = .txc
    | _ => true
  | _ => true

/-- A request that empties the instance `x`: RESET and FIFO_RESET, which R206 gives to no role. -/
def empties (x : Inst) : Event → Bool
  | .op _ r =>
    match decodeOp r with
    | .ok .reset => true
    | .ok (.fifoReset f) => f = x
    | _ => false
  | _ => false

/-- FRM acts through its one kind of step, or a POLL, which is a run of them (44_boundary R191): no POP RX, FEED or
FRAMER_RESET by itself. -/
def framerActsByStep : Event → Bool
  | .op _ r =>
    match decodeOp r with
    | .ok (.pop .rx) => false
    | .ok (.feed _) => false
    | .ok .framerReset => false
    | _ => true
  | _ => true

/-- The frames of the WRITE requests of HOST, in order. -/
def hostWrites : List Event → List Bytes
  | [] => []
  | .op .host r :: es =>
    match decodeOp r with
    | .ok (.write frame) => frame :: hostWrites es
    | _ => hostWrites es
  | _ :: es => hostWrites es

/-- The bytes that RXP has still to put into `RX_FIFO`, in order: its PUSHes, its STOREs, and the bytes on the line. -/
def rxpBytes : List Event → Bytes
  | [] => []
  | .op .rxp r :: es =>
    match decodeOp r with
    | .ok (.push .rx b) => b :: rxpBytes es
    | .ok (.store .rx data) => data ++ rxpBytes es
    | _ => rxpBytes es
  | .line bytes :: es => bytes ++ rxpBytes es
  | _ :: es => rxpBytes es

/-! ### Waiting (00_scope R12, 20_memory R60) -/

/-- A request is passed over, all of `earlier` being passed over before it: it is not enabled, or it is behind a request of
its own agent. -/
def Event.waits (s : State) (earlier : List Event) (e : Event) : Prop :=
  e.enabled s = false ∨ ∃ d ∈ earlier, d.agent = e.agent

/-! ### What no operation can show (10_state R34) -/

/-- Two staging buffers with the same valid bytes. -/
def Framer.sameContents (f g : Framer) : Prop := ∃ bs, f.holds bs ∧ g.holds bs

/-- Two states that differ at most in stale storage bytes and in where the valid bytes of a FIFO lie. -/
def State.similar (s t : State) : Prop :=
  t.cfg = s.cfg ∧ Fifo.sameContents s.cfg.cRx s.rx t.rx ∧ Fifo.sameContents s.cfg.cTx s.tx t.tx ∧
    Framer.sameContents s.framer t.framer ∧ t.crcAcc = s.crcAcc ∧ t.delivered = s.delivered ∧ t.txLine = s.txLine ∧
    t.errors = s.errors ∧ t.result = s.result ∧ t.agent = s.agent ∧ t.pending = s.pending

end Sys2Proof.Machine
end

