-- ==== Sys2Proof/Certificates/Slice0/Obligations.lean ====
section
/-! DEFINITION. The statements for the provers. Each docstring names the rule of spec/ it formalises, and the log entry of
any clause that rests on a choice of the model. -/

open Sys2Proof Sys2Proof.Machine

/-! ### Encoding -/

/-- 30_encoding R90: the operation words, for both instances, whatever the operands beside them. -/
def Obligations.OperationWordsSelectOperations : Prop :=
  ∀ (b : Byte) (d : Bytes),
    decodeOp ⟨0x00, b, d⟩ = .ok .reset ∧
    decodeOp ⟨0x01, b, d⟩ = .ok (.push .rx b) ∧ decodeOp ⟨0x11, b, d⟩ = .ok (.push .tx b) ∧
    decodeOp ⟨0x02, b, d⟩ = .ok (.store .rx d) ∧ decodeOp ⟨0x12, b, d⟩ = .ok (.store .tx d) ∧
    decodeOp ⟨0x03, b, d⟩ = .ok (.pop .rx) ∧ decodeOp ⟨0x13, b, d⟩ = .ok (.pop .tx) ∧
    decodeOp ⟨0x04, b, d⟩ = .ok (.length .rx) ∧ decodeOp ⟨0x14, b, d⟩ = .ok (.length .tx) ∧
    decodeOp ⟨0x05, b, d⟩ = .ok (.freeSpace .rx) ∧ decodeOp ⟨0x15, b, d⟩ = .ok (.freeSpace .tx) ∧
    decodeOp ⟨0x06, b, d⟩ = .ok (.fifoReset .rx) ∧ decodeOp ⟨0x16, b, d⟩ = .ok (.fifoReset .tx) ∧
    decodeOp ⟨0x07, b, d⟩ = .ok (.crc16 d) ∧ decodeOp ⟨0x08, b, d⟩ = .ok (.encode d) ∧
    decodeOp ⟨0x09, b, d⟩ = .ok (.decode d) ∧ decodeOp ⟨0x0A, b, d⟩ = .ok (.feed b) ∧
    decodeOp ⟨0x0B, b, d⟩ = .ok .poll ∧ decodeOp ⟨0x0C, b, d⟩ = .ok .framerReset ∧
    decodeOp ⟨0x0D, b, d⟩ = .ok (.write d)

/-- 30_encoding R91: `op` in E, F; or `opw[7:5] != 000`; or `inst = 1` on an operation that takes no instance (the
operations other than 1 to 6). A request with such a word is refused, and a refusal carries no state. -/
def Obligations.ReservedWordsRefused : Prop :=
  ∀ (s : State) (a : Agent) (r : OpRequest) (es : List Event), s.pending = .op a r :: es →
    (14 ≤ r.opw.toNat % 16 ∨ r.opw.toNat / 32 ≠ 0 ∨
      (r.opw.toNat / 16 % 2 = 1 ∧ (r.opw.toNat % 16 = 0 ∨ 7 ≤ r.opw.toNat % 16))) →
    step s = .refused .noSuchOperation

/-- 30_encoding R90, R91: every other word selects an operation, whose encoding is that word: no bit is dropped. -/
def Obligations.OtherWordsSelectOneOperation : Prop :=
  ∀ r : OpRequest, ¬ (14 ≤ r.opw.toNat % 16 ∨ r.opw.toNat / 32 ≠ 0 ∨
      (r.opw.toNat / 16 % 2 = 1 ∧ (r.opw.toNat % 16 = 0 ∨ 7 ≤ r.opw.toNat % 16))) →
    ∃ i q, decodeOp r = .ok i ∧ encode i = .op q ∧ q.opw = r.opw

/-- 30_encoding R80 to R90: decoding the encoding of a well-formed instruction gives it back, every operand at every value,
and a packet on the line is cut off exactly where it ends. -/
def Obligations.DecodeInvertsEncode : Prop :=
  ∀ (i : Instr) (rest : Bytes), i.wellFormed = true →
    match encode i with
    | .op r => decodeOp r = .ok i
    | .line bytes => decodeLine (bytes ++ rest) = .ok (i, rest)

/-! ### The step -/

/-- The model's fetch (log 12): a request at the head of the list whose word decodes, and that does not hold, is executed
with its agent as the acting one and the request removed. Bytes on the line that form a packet are executed as that packet
(log 15), with the bytes after it put back. Where they form none, the first byte is received (log 16): it is pushed on
`RX_FIFO`, the framer takes its step (44_boundary R190, R191), and the other bytes are put back. -/
def Obligations.StepRunsDecodedInstruction : Prop :=
  (∀ (s : State) (a : Agent) (r : OpRequest) (i : Instr) (es : List Event), s.pending = .op a r :: es →
    decodeOp r = .ok i → instrHolds i s = false → step s = exec i { s with agent := a, pending := es }) ∧
  (∀ (s : State) (bytes more : Bytes) (i : Instr) (es : List Event), s.pending = .line bytes :: es →
    decodeLine bytes = .ok (i, more) → step s = exec i { s with agent := .rxp, pending := putBack more es }) ∧
  (∀ (s : State) (b : Byte) (bs : Bytes) (why : DecodeReject) (es : List Event), s.inv → s.pending = .line (b :: bs) :: es →
    decodeLine (b :: bs) = .error why →
    ∃ u v, pushInst .rx b { s with agent := .rxp, pending := putBack bs es } = .ok u ∧ framerStep u = .ok v ∧
      step s = .next { v with result := .payloads (v.delivered.drop s.delivered.length) }) ∧
  (∀ (s : State) (es : List Event), s.pending = .line [] :: es →
    step s = .next { s with agent := .rxp, pending := es })

/-- The model's order of requests (log 11, log 12; 00_scope R12, 20_memory R60): a request that is not enabled is passed over,
and so is one behind an earlier request of its own agent, enabled or not, since each agent sees its own operations in issue
order. The first request that is enabled and behind none of its agent is served, the others keeping their order. -/
def Obligations.StepServesFirstEnabledRequest : Prop :=
  ∀ (s : State) (before after : List Event) (e : Event), s.pending = before ++ e :: after →
    (∀ (earlier later : List Event) (d : Event), before = earlier ++ d :: later → d.waits s earlier) →
    ¬ e.waits s before →
    step s = serve e (before ++ after) s

/-- 00_scope R12, 20_memory R60: an operation that holds waits: a step never drops a request that is not enabled, nor one of
the same agent behind it, enabled or not, and keeps the two in that order. -/
def Obligations.WaitingRequestIsKept : Prop :=
  (∀ (s t : State) (e : Event), step s = .next t → e ∈ s.pending → e.enabled s = false → e ∈ t.pending) ∧
  (∀ (s t : State) (before mid after : List Event) (d e : Event), step s = .next t →
    s.pending = before ++ d :: mid ++ e :: after → d.enabled s = false → d.agent = e.agent →
    List.Sublist [d, e] t.pending)

/-- 10_state R33: the configuration cannot be written by any operation, nor by any step. -/
def Obligations.ConfigurationNeverChanges : Prop :=
  (∀ (i : Instr) (s t : State), exec i s = .next t → t.cfg = s.cfg) ∧
  (∀ s t : State, step s = .next t → t.cfg = s.cfg)

/-! ### Invariants -/

/-- 10_state R23, R30, 20_memory R56: from every state that meets the invariant (indices and counts in range, storages in
canonical form and written only inside their capacity, valid bytes written) a step gives a state that meets it. -/
def Obligations.StepKeepsInvariant : Prop :=
  ∀ s t : State, s.inv → step s = .next t → t.inv

/-- 10_state R23, R30 "true after reset": the block of any valid configuration meets the invariant after reset. -/
def Obligations.ResetMeetsInvariant : Prop :=
  (∀ c : Config, c.valid → (State.resetWith c).inv) ∧ State.reset.inv

/-- 00_scope R12: no operation traps, and none leaves the block in a fault state. The faults of the model (STAGING_OVERFLOW
of 43_stream_framer R162 among them) are unreachable from a state that meets the invariant. -/
def Obligations.NoStepFaults : Prop :=
  (∀ (i : Instr) (s : State) (f : Fault), s.inv → exec i s ≠ .fault f) ∧
  (∀ (s : State) (f : Fault), s.inv → step s ≠ .fault f)

/-- 00_scope R12: every well-formed instruction but the two unassigned codes completes, from every state that meets the
invariant; WRITE needs room for its frame (44_boundary R193) and a count that STORE takes (40_fifo R112). -/
def Obligations.EveryInstructionCompletes : Prop :=
  ∀ (i : Instr) (s : State), s.inv → i.wellFormed = true →
    (∀ hi, i ≠ .unassignedE hi) → (∀ hi, i ≠ .unassignedF hi) →
    (∀ frame, i = .write frame → frame.length ≤ 65535 ∧ frame.length ≤ s.cfg.cTx - s.tx.length - 1) →
    ∃ t, exec i s = .next t ∧ t.inv

/-! ### Storages -/

/-- The canonical form of a storage: two storages in canonical form that read alike at every index are equal. -/
def Obligations.StoragesThatReadAlikeAreEqual : Prop :=
  ∀ m m' : Memory, m.wf = true → m'.wf = true → (∀ i, m.read i = Memory.read m' i) → m = m'

/-- 20_memory R61: removing a prefix of `k` bytes, `1 <= k <= n`, is the ascending copy loop on the staging buffer followed
by `lastValidIndex <- lastValidIndex - k`, and leaves the bytes after the prefix. -/
def Obligations.StagingShiftIsAscendingCopy : Prop :=
  ∀ (s : State) (win : Bytes) (k : Nat), s.framer.holds win → win.length ≤ s.cfg.stgCap → 1 ≤ k → k ≤ win.length →
    ∃ m, copyDown s.cfg.stgCap k s.framer.stg 0 (win.length - k) = .ok m ∧
      shiftLeft k win s = .ok { s with framer := ⟨m, s.framer.lastValidIndex - k⟩ } ∧
      Framer.holds ⟨m, s.framer.lastValidIndex - k⟩ (win.drop k)

/-! ### Reset -/

/-- 10_state R35: the reset values the spec gives, for every configuration, and for the reset state of the machine
(whose configuration is the model's choice, log 2). -/
def Obligations.ResetValues : Prop :=
  (∀ c : Config, (State.resetWith c).rx.start = 0 ∧ (State.resetWith c).rx.length = 0 ∧
    (State.resetWith c).tx.start = 0 ∧ (State.resetWith c).tx.length = 0 ∧
    (State.resetWith c).framer.lastValidIndex = -1 ∧ (State.resetWith c).delivered = [] ∧
    (State.resetWith c).txLine = []) ∧
  State.reset = State.resetWith Config.standard

/-- 70_reset_and_hazards R220: RESET on any state: both FIFOs empty with `start` 0, the framer SEEKING, the three storages,
the configuration and the requests as before. -/
def Obligations.ResetOperationEmptiesTheBlock : Prop :=
  ∀ s : State, ∃ t, exec .reset s = .next t ∧ keepsControl s t ∧ t.result = .none ∧
    t.rx.start = 0 ∧ t.rx.length = 0 ∧ t.rx.mem = s.rx.mem ∧
    t.tx.start = 0 ∧ t.tx.length = 0 ∧ t.tx.mem = s.tx.mem ∧
    t.framer.lastValidIndex = -1 ∧ t.framer.stg = s.framer.stg

/-- The model's reading of 10_state R35 for a RESET on a live block (log 5, log 7): the event history starts anew, and the CRC
accumulator, where it is built, holds `CRC_INIT`. -/
def Obligations.ResetOperationRestartsHistory : Prop :=
  ∀ s : State, ∃ t, exec .reset s = .next t ∧ t.delivered = [] ∧ t.txLine = [] ∧ t.errors = [] ∧
    t.crcAcc = if s.cfg.crcSerial then s.cfg.crc.init else s.crcAcc

/-! ### FIFO -/

/-- 40_fifo R110: FIFO_RESET: `start` and `length` of the instance are 0; its storage, the other instance and the framer are
as before. -/
def Obligations.FifoResetClearsOneInstance : Prop :=
  ∀ (i : Inst) (s : State), ∃ t, exec (.fifoReset i) s = .next t ∧ t.result = .none ∧
    (t.fifo i).start = 0 ∧ (t.fifo i).length = 0 ∧ (t.fifo i).mem = (s.fifo i).mem ∧
    t.fifo (other i) = s.fifo (other i) ∧ keepsControl s t ∧ keepsFramer s t ∧ t.txLine = s.txLine ∧ t.errors = s.errors

/-- 40_fifo R111: PUSH. On a full instance the FIFO is emptied and the byte is not stored; otherwise it is written at
`(start + length) mod C`, every other slot keeps its byte, and `length` grows by one. -/
def Obligations.PushWritesOrEmpties : Prop :=
  ∀ (i : Inst) (b : Byte) (s : State), 2 ≤ s.cap i → ∃ t, exec (.push i b) s = .next t ∧ t.result = .none ∧
    ((s.fifo i).length = s.cap i - 1 →
      (t.fifo i).start = 0 ∧ (t.fifo i).length = 0 ∧ (t.fifo i).mem = (s.fifo i).mem) ∧
    ((s.fifo i).length ≠ s.cap i - 1 →
      (t.fifo i).start = (s.fifo i).start ∧ (t.fifo i).length = (s.fifo i).length + 1 ∧
      (t.fifo i).mem.read (((s.fifo i).start + (s.fifo i).length) % s.cap i) = some b ∧
      keepsBytesOutside (· = ((s.fifo i).start + (s.fifo i).length) % s.cap i) (s.fifo i).mem (t.fifo i).mem) ∧
    t.fifo (other i) = s.fifo (other i) ∧ keepsControl s t ∧ keepsFramer s t ∧ t.txLine = s.txLine

/-- 40_fifo R112: STORE. A count above 65535 is refused; bytes that do not fit empty the FIFO and none is stored; otherwise
byte `k` is written at `(start + length + k) mod C`, every other slot keeps its byte, `length` grows by `n`, and the STORE
equals `n` successive PUSHes. -/
def Obligations.StoreWritesOrEmpties : Prop :=
  ∀ (i : Inst) (data : Bytes) (s : State), 2 ≤ s.cap i → (s.fifo i).length ≤ s.cap i - 1 →
    (65535 < data.length → exec (.store i data) s = .refused .badCount) ∧
    (data.length ≤ 65535 → ∃ t, exec (.store i data) s = .next t ∧ t.result = .none ∧
      (s.cap i - (s.fifo i).length - 1 < data.length →
        (t.fifo i).start = 0 ∧ (t.fifo i).length = 0 ∧ (t.fifo i).mem = (s.fifo i).mem) ∧
      (data.length ≤ s.cap i - (s.fifo i).length - 1 →
        (t.fifo i).start = (s.fifo i).start ∧ (t.fifo i).length = (s.fifo i).length + data.length ∧
        (∀ k, k < data.length →
          (t.fifo i).mem.read (((s.fifo i).start + (s.fifo i).length + k) % s.cap i) = data[k]?) ∧
        keepsBytesOutside (fun a => ∃ k, k < data.length ∧ a = ((s.fifo i).start + (s.fifo i).length + k) % s.cap i)
          (s.fifo i).mem (t.fifo i).mem ∧
        execAll (data.map (.push i)) (s.setResult .none) = .next t) ∧
      t.fifo (other i) = s.fifo (other i) ∧ keepsControl s t ∧ keepsFramer s t ∧ t.txLine = s.txLine)

/-- 20_memory R57: a STORE that fits is two contiguous runs, from `w = (start + length) mod C` to the end of the storage and
then from index 0, and no other write. -/
def Obligations.StoreIsTwoRuns : Prop :=
  ∀ (i : Inst) (data : Bytes) (s : State) (w : Nat), 2 ≤ s.cap i → data.length ≤ 65535 →
    data.length ≤ s.cap i - (s.fifo i).length - 1 → w = ((s.fifo i).start + (s.fifo i).length) % s.cap i →
    ∃ t m1 m2, exec (.store i data) s = .next t ∧
      writeRun (s.cap i) (s.fifo i).mem w (data.take (min data.length (s.cap i - w))) = .ok m1 ∧
      writeRun (s.cap i) m1 0 (data.drop (min data.length (s.cap i - w))) = .ok m2 ∧ (t.fifo i).mem = m2

/-- 40_fifo R113: POP. On an empty instance the result is `(0, 0xFF)` and nothing changes; otherwise the byte at `start` is
returned, `start` advances modulo `C` and `length` falls by one. Whether a POP TX puts its byte on the line is another statement
(TransmitStepSendsOldestByte, log 17). -/
def Obligations.PopReturnsOldestOrSentinel : Prop :=
  ∀ (i : Inst) (s : State), (s.fifo i).ok (s.cap i) → ∃ t, exec (.pop i) s = .next t ∧
    ((s.fifo i).length = 0 → t.result = .popped false 0xFF ∧ t.fifo i = s.fifo i ∧ t.txLine = s.txLine) ∧
    ((s.fifo i).length ≠ 0 → ∃ v, (s.fifo i).mem.read (s.fifo i).start = some v ∧ t.result = .popped true v ∧
      (t.fifo i).start = ((s.fifo i).start + 1) % s.cap i ∧ (t.fifo i).length = (s.fifo i).length - 1 ∧
      (t.fifo i).mem = (s.fifo i).mem) ∧
    (i = .rx → t.txLine = s.txLine) ∧
    t.fifo (other i) = s.fifo (other i) ∧ keepsControl s t ∧ keepsFramer s t

/-- 40_fifo R115, R116: LENGTH and FREESPACE are pure reads, and their results add up to `C - 1`. -/
def Obligations.LengthAndFreeSpaceAddUp : Prop :=
  ∀ (i : Inst) (s : State), 2 ≤ s.cap i → (s.fifo i).length ≤ s.cap i - 1 →
    ∃ l f, exec (.length i) s = .next { s with result := .count l } ∧ l = (s.fifo i).length ∧
      exec (.freeSpace i) s = .next { s with result := .count f } ∧ f = s.cap i - (s.fifo i).length - 1 ∧
      f + l = s.cap i - 1

/-- 40_fifo R117: seen through its contents an instance is a bounded queue: PUSH and STORE append or empty it, POP takes the
head. -/
def Obligations.FifoIsBoundedQueue : Prop :=
  ∀ (i : Inst) (s : State) (bs : Bytes), s.inv → (s.fifo i).holds (s.cap i) bs →
    (∀ b, ∃ t, exec (.push i b) s = .next t ∧
      (t.fifo i).holds (s.cap i) (if bs.length = s.cap i - 1 then [] else bs ++ [b])) ∧
    (∀ data : Bytes, data.length ≤ 65535 → ∃ t, exec (.store i data) s = .next t ∧
      (t.fifo i).holds (s.cap i) (if s.cap i - 1 - bs.length < data.length then [] else bs ++ data)) ∧
    (∃ t, exec (.pop i) s = .next t ∧ t.result = (match bs with | [] => .popped false 0xFF | b :: _ => .popped true b) ∧
      (t.fifo i).holds (s.cap i) bs.tail)

/-- 40_fifo R117: in any run of PUSH, STORE and POP on one instance in which no overflow occurs (the history of 60_exceptions
R207 and log 8 names none) the bytes popped and then the bytes still held are the bytes held at first and then the bytes
put in, in order: none lost, duplicated or corrupted. And in any run of the block under the discipline of 60_exceptions R206
on the receive side (RXP alone fills `RX_FIFO`, FRM alone pops it, and FEED, POLL and FRAMER_RESET are FRM's), FRM acting by
its steps (44_boundary R191), with no overflow and no reset of `RX_FIFO` asked for: the framer is as after a FEED of each
byte it took, and those bytes, then the bytes still held, are the bytes held at first, then the bytes RXP put in. -/
def Obligations.FifoTrafficKeepsOrder : Prop :=
  (∀ (x : Inst) (is : List Instr) (s t : State) (rs : List Result) (bs : Bytes), s.inv →
    (s.fifo x).holds (s.cap x) bs → (∀ i ∈ is, isTraffic x i = true) → traceAll is s = some (rs, t) →
    t.errors.count .e6 = s.errors.count .e6 →
    ∃ cs, (t.fifo x).holds (s.cap x) cs ∧ bs ++ is.flatMap putIn = rs.flatMap takenOut ++ cs) ∧
  (∀ (k : Nat) (s t : State) (bs : Bytes), s.inv → s.rx.holds s.cfg.cRx bs →
    (∀ e ∈ s.pending, keepsReceiveRoles e = true ∧ framerActsByStep e = true ∧ empties .rx e = false) →
    run k s = .next t → t.errors.count .e6 = s.errors.count .e6 →
    ∃ arrived fed cs u, rxpBytes s.pending = arrived ++ rxpBytes t.pending ∧ t.rx.holds s.cfg.cRx cs ∧
      bs ++ arrived = fed ++ cs ∧ execAll (fed.map .feed) s = .next u ∧ t.framer = u.framer ∧
      t.delivered = u.delivered)

/-- 10_state R23: the reserved slot: `start == start + length (mod C)` only when `length == 0`. -/
def Obligations.ReservedSlotTellsEmptyFromFull : Prop :=
  ∀ (cap : Nat) (f : Fifo), 2 ≤ cap → f.ok cap → ((f.start + f.length) % cap = f.start ↔ f.length = 0)

/-- 20_memory R60: the two serial orders of a PUSH and a POP at the edges, on an empty and on a full instance. -/
def Obligations.CoincidentPushAndPopAtTheEdges : Prop :=
  ∀ (i : Inst) (b : Byte) (s : State), s.inv →
    ((s.fifo i).length = 0 →
      (∃ t u, exec (.pop i) s = .next t ∧ t.result = .popped false 0xFF ∧ exec (.push i b) t = .next u ∧
        (u.fifo i).holds (s.cap i) [b]) ∧
      (∃ t u, exec (.push i b) s = .next t ∧ exec (.pop i) t = .next u ∧ u.result = .popped true b ∧
        (u.fifo i).length = 0)) ∧
    ((s.fifo i).length = s.cap i - 1 →
      (∃ t u, exec (.push i b) s = .next t ∧ (t.fifo i).length = 0 ∧ exec (.pop i) t = .next u ∧
        u.result = .popped false 0xFF) ∧
      (∃ v vs t u, (s.fifo i).holds (s.cap i) (v :: vs) ∧ exec (.pop i) s = .next t ∧ t.result = .popped true v ∧
        exec (.push i b) t = .next u ∧ (u.fifo i).holds (s.cap i) (vs ++ [b])))

/-- 10_state R34: two states that differ at most in stale storage bytes and in where the valid bytes of a FIFO lie are
indistinguishable by any operation: it completes on both with the same result, deliveries, line and history, or is refused
on both for the same reason. -/
def Obligations.StaleStorageIsUnobservable : Prop :=
  ∀ (i : Instr) (s s' : State), s.inv → s'.inv → s.similar s' →
    (∀ t, exec i s = .next t → ∃ t', exec i s' = .next t' ∧ t.similar t') ∧
    (∀ r, exec i s = .refused r → exec i s' = .refused r)

/-! ### CRC -/

/-- 41_crc16 R130: CRC16 with the parameters of 00_scope R8: the bit-by-bit definition and its four corner cases; a count
above 65535 is refused. No state is read or written but the accumulator of the serial form, where it is built (log 5), in
which ENCODE leaves the CRC of its payload as well. -/
def Obligations.Crc16Operation : Prop :=
  (∀ (bytes : Bytes) (s : State), 65535 < bytes.length → exec (.crc16 bytes) s = .refused .badCount) ∧
  (∀ (bytes : Bytes) (s : State), bytes.length ≤ 65535 → s.cfg.crc = CrcParams.xmodem →
    ∃ c, exec (.crc16 bytes) s = .next
        { s with result := .crc c, crcAcc := if s.cfg.crcSerial then c else s.crcAcc } ∧
      c = bytes.foldl (fun (c : U16) (b : Byte) => Nat.iterate
        (fun c : U16 => if c.getLsbD 15 then (c <<< 1) ^^^ 0x1021 else c <<< 1) 8 (c ^^^ (b.setWidth 16 <<< 8))) 0x0000) ∧
  (∀ (p : Bytes) (s : State), 1 ≤ p.length → p.length ≤ 65535 → ∃ t, exec (.encode p) s = .next t ∧
    t.crcAcc = if s.cfg.crcSerial then crc16 s.cfg.crc p else s.crcAcc) ∧
  crc16 CrcParams.xmodem [] = 0x0000 ∧
  (∀ m : Bytes, crc16 CrcParams.xmodem (0x00 :: m) = crc16 CrcParams.xmodem m) ∧
  (∀ xs ys : Bytes, xs.length = ys.length → crc16 CrcParams.xmodem (List.zipWith (· ^^^ ·) xs ys) =
    crc16 CrcParams.xmodem xs ^^^ crc16 CrcParams.xmodem ys) ∧
  (∀ p : Bytes, crc16 CrcParams.xmodem
    (p ++ [hi8 (crc16 CrcParams.xmodem p), lo8 (crc16 CrcParams.xmodem p)]) = 0x0000)

/-- 41_crc16 R132: the table the spec prints is `T[i] = crc16([i])`, and the table step equals the bitwise step. -/
def Obligations.CrcTableFormAgrees : Prop :=
  crcTable = (List.range 256).map (fun i => crc16 CrcParams.xmodem [BitVec.ofNat 8 i]) ∧
  ∀ (c : U16) (b : Byte), some (crcStep 0x1021 c b) =
    (crcTable[(((c >>> 8) ^^^ b.setWidth 16) &&& 0x00FF).toNat]?).map (· ^^^ (c <<< 8))

/-! ### Codec -/

/-- 42_packet_codec R140, R141, 30_encoding R87: ENCODE: the short form for 1 to 255 payload bytes, the long form for 256 to
65535, refused outside. -/
def Obligations.EncodeEmitsOneForm : Prop :=
  ∀ (p : Bytes) (s : State),
    (p.length = 0 ∨ 65535 < p.length → exec (.encode p) s = .refused .badLength) ∧
    (1 ≤ p.length → p.length ≤ 255 → ∃ t, exec (.encode p) s = .next t ∧ t.result = .frame
      ([0x02, BitVec.ofNat 8 p.length] ++ p ++ [hi8 (crc16 s.cfg.crc p), lo8 (crc16 s.cfg.crc p), 0x03]) ∧
      keepsControl s t ∧ keepsFifos s t ∧ t.framer = s.framer ∧ t.delivered = s.delivered ∧ t.errors = s.errors) ∧
    (256 ≤ p.length → p.length ≤ 65535 → ∃ t, exec (.encode p) s = .next t ∧ t.result = .frame
      ([0x03, BitVec.ofNat 8 (p.length / 256), BitVec.ofNat 8 (p.length % 256)] ++ p ++
        [hi8 (crc16 s.cfg.crc p), lo8 (crc16 s.cfg.crc p), 0x03]) ∧
      keepsControl s t ∧ keepsFifos s t ∧ t.framer = s.framer ∧ t.delivered = s.delivered ∧ t.errors = s.errors)

/-- 42_packet_codec R142, 60_exceptions R202: DECODE of a window that begins with a marker, `ZERO_LEN = reject`: each verdict
under exactly the conditions of its line, in the fixed order, with the length and size of each form (30_encoding R82, R84).
The last clause is log 5: where the serial CRC form is built, the accumulator holds the CRC of line 7 if DECODE got there. -/
def Obligations.DecodeVerdictsInOrder : Prop :=
  ∀ (w : Bytes) (s : State) (len hdr size : Nat),
    (w[0]? = some 0x02 ∧ hdr = 2 ∧ len = (w.getD 1 0).toNat ∧ size = len + 5) ∨
    (w[0]? = some 0x03 ∧ hdr = 3 ∧ len = (w.getD 1 0).toNat * 256 + (w.getD 2 0).toNat ∧ size = len + 6) →
    s.cfg.zeroLen = .reject →
    ∃ t v, exec (.decode w) s = .next t ∧ t.result = .verdict v ∧
      keepsControl s t ∧ keepsFifos s t ∧ t.framer = s.framer ∧ t.delivered = s.delivered ∧ t.errors = s.errors ∧
      (v = .needMore ↔ w.length < 6 ∨ (len ≠ 0 ∧ size ≤ s.cfg.stgCap ∧ w.length < size)) ∧
      (v = .reject .zeroLen ↔ 6 ≤ w.length ∧ len = 0) ∧
      (v = .reject .oversize ↔ 6 ≤ w.length ∧ len ≠ 0 ∧ s.cfg.stgCap < size) ∧
      (v = .reject .badTerminator ↔ 6 ≤ w.length ∧ len ≠ 0 ∧ size ≤ s.cfg.stgCap ∧ size ≤ w.length ∧
        w[size - 1]? ≠ some 0x03) ∧
      (v = .reject .badCrc ↔ 6 ≤ w.length ∧ len ≠ 0 ∧ size ≤ s.cfg.stgCap ∧ size ≤ w.length ∧
        w[size - 1]? = some 0x03 ∧
        (crc16 s.cfg.crc ((w.drop hdr).take len)).toNat ≠ (w.getD (size - 3) 0).toNat * 256 + (w.getD (size - 2) 0).toNat) ∧
      (v = .ok hdr len size ↔ 6 ≤ w.length ∧ len ≠ 0 ∧ size ≤ s.cfg.stgCap ∧ size ≤ w.length ∧
        w[size - 1]? = some 0x03 ∧
        (crc16 s.cfg.crc ((w.drop hdr).take len)).toNat = (w.getD (size - 3) 0).toNat * 256 + (w.getD (size - 2) 0).toNat) ∧
      t.crcAcc = if s.cfg.crcSerial = true ∧ (v = .reject .badCrc ∨ v = .ok hdr len size) then
        crc16 s.cfg.crc ((w.drop hdr).take len) else s.crcAcc

/-- 42_packet_codec R142 line 2, 30_encoding R88: a window whose first byte is no marker is rejected, once it has six bytes. -/
def Obligations.DecodeRejectsBadMarker : Prop :=
  ∀ (w : Bytes) (s : State), w[0]? ≠ some 0x02 → w[0]? ≠ some 0x03 →
    ∃ t, exec (.decode w) s = .next t ∧
      t.result = .verdict (if w.length < 6 then .needMore else .reject .badMarker) ∧
      keepsControl s t ∧ keepsFifos s t ∧ keepsFramer s t ∧ t.errors = s.errors

/-- 42_packet_codec R144: round trip: DECODE of what ENCODE returns is `ok` with the payload in place, for every payload of
1 to 65535 bytes whose frame fits `S`, whatever the CRC parameters. -/
def Obligations.PacketRoundTrip : Prop :=
  ∀ (p : Bytes) (s : State), 1 ≤ p.length → p.length ≤ 65535 →
    (p.length + 6 ≤ s.cfg.stgCap ∨ (p.length ≤ 255 ∧ p.length + 5 ≤ s.cfg.stgCap)) →
    ∃ t u f hdr, exec (.encode p) s = .next t ∧ t.result = .frame f ∧
      exec (.decode f) t = .next u ∧ u.result = .verdict (.ok hdr p.length f.length) ∧
      (f.drop hdr).take p.length = p

/-- 42_packet_codec R145: a single bit flipped in the payload or the CRC field of a valid packet gives `reject(BAD_CRC)`; one
flipped in the end marker gives `reject(BAD_TERMINATOR)`. With the CRC parameters of 00_scope R8. -/
def Obligations.SingleBitFlipIsRejected : Prop :=
  ∀ (c : Config) (w : Bytes) (hdr len size k bit : Nat), c.crc = CrcParams.xmodem →
    decodeWindow c w = .ok hdr len size → bit < 8 →
    (hdr ≤ k → k < size - 1 →
      decodeWindow c (w.set k (w.getD k 0 ^^^ BitVec.ofNat 8 (2 ^ bit))) = .reject .badCrc) ∧
    (k = size - 1 →
      decodeWindow c (w.set k (w.getD k 0 ^^^ BitVec.ofNat 8 (2 ^ bit))) = .reject .badTerminator)

/-! ### Framer -/

/-- 43_stream_framer R160: FRAMER_RESET: `lastValidIndex` is -1; `stg` and both FIFOs are as before. -/
def Obligations.FramerResetSeeks : Prop :=
  ∀ s : State, ∃ t, exec .framerReset s = .next t ∧ t.result = .none ∧ t.framer.lastValidIndex = -1 ∧
    t.framer.stg = s.framer.stg ∧ keepsControl s t ∧ keepsFifos s t ∧ t.crcAcc = s.crcAcc ∧
    t.delivered = s.delivered ∧ t.errors = s.errors

/-- 43_stream_framer R161: FEED in state SEEKING: a byte that is no candidate start is discarded without any state change; a
candidate start is stored at index 0 and nothing is delivered. -/
def Obligations.FeedInSeeking : Prop :=
  ∀ (b : Byte) (s : State), s.cfg.valid → s.framer.lastValidIndex = -1 →
    (b ≠ 0x02 → b ≠ 0x03 → exec (.feed b) s = .next { s with result := .payloads [] }) ∧
    (b = 0x02 ∨ b = 0x03 → ∃ t, exec (.feed b) s = .next t ∧ t.result = .payloads [] ∧
      t.framer.lastValidIndex = 0 ∧ t.framer.stg.read 0 = some b ∧
      keepsBytesOutside (· = 0) s.framer.stg t.framer.stg ∧
      keepsControl s t ∧ keepsFifos s t ∧ t.crcAcc = s.crcAcc ∧ t.delivered = s.delivered ∧ t.errors = s.errors)

/-- 43_stream_framer R161 (corner case b): any number of bytes that are no candidates is absorbed in SEEKING. -/
def Obligations.GarbageIsAbsorbedInSeeking : Prop :=
  ∀ (gs : Bytes) (s : State), s.framer.lastValidIndex = -1 → (∀ g ∈ gs, g ≠ 0x02 ∧ g ≠ 0x03) →
    ∃ r, execAll (gs.map .feed) s = .next { s with result := r }

/-- 43_stream_framer R162: FEED in state ACCUMULATING appends the byte whatever its value; while DECODE asks for more nothing
is delivered and no other staging byte changes. -/
def Obligations.FeedInAccumulating : Prop :=
  ∀ (b : Byte) (s : State) (win : Bytes), s.inv → s.framer.holds win → win ≠ [] →
    decodeWindow s.cfg (win ++ [b]) = .needMore →
    ∃ t, exec (.feed b) s = .next t ∧ t.result = .payloads [] ∧ t.framer.holds (win ++ [b]) ∧
      keepsBytesOutside (· = win.length) s.framer.stg t.framer.stg ∧
      keepsControl s t ∧ keepsFifos s t ∧ t.crcAcc = s.crcAcc ∧ t.delivered = s.delivered ∧ t.errors = s.errors

/-- 43_stream_framer R163 to R166: FEED is the decode pass on the bytes it holds: what stays buffered and what is delivered
are those of the loop written on byte strings; no staging byte beyond the appended one changes, and no FIFO, line or
request does. The error conditions met are recorded in order (60_exceptions R200, log 8), and where the serial CRC form is
built the accumulator holds the last CRC computed, if there was one (log 5). -/
def Obligations.FeedRefinesDecodePass : Prop :=
  ∀ (b : Byte) (s : State) (win : Bytes), s.inv → s.framer.holds win →
    ∃ t, exec (.feed b) s = .next t ∧ t.framer.holds (listFeed s.cfg win b).left ∧
      t.delivered = s.delivered ++ (listFeed s.cfg win b).payloads ∧ t.result = .payloads (listFeed s.cfg win b).payloads ∧
      t.errors = s.errors ++ (listFeed s.cfg win b).codes ∧
      t.crcAcc = (if s.cfg.crcSerial then (listFeed s.cfg win b).crcs.getLast?.getD s.crcAcc else s.crcAcc) ∧
      keepsBytesOutside (· ≤ win.length) s.framer.stg t.framer.stg ∧ keepsControl s t ∧ keepsFifos s t

/-- 43_stream_framer R166: a declared size above `S`: the whole buffer is discarded under `discard_all`; under `resync` with
six bytes buffered the buffer is slid to the next candidate start, or emptied. Nothing is delivered. -/
def Obligations.OversizeFollowsThePolicy : Prop :=
  ∀ (b : Byte) (s : State) (win : Bytes), s.inv → s.framer.holds win → win ≠ [] →
    decodeWindow s.cfg (win ++ [b]) = .reject .oversize →
    (s.cfg.oversize = .discardAll → ∃ t, exec (.feed b) s = .next t ∧ t.framer.lastValidIndex = -1 ∧
      t.delivered = s.delivered) ∧
    (s.cfg.oversize = .resync → win.length = 5 → ∃ t, exec (.feed b) s = .next t ∧
      t.framer.holds (afterResync (win ++ [b])) ∧ t.delivered = s.delivered)

/-- 43_stream_framer R167: progress: a trip round the loop that does not return leaves fewer bytes, so trips in the number of
the buffered bytes and one more are enough: more change nothing. -/
def Obligations.DecodePassTerminates : Prop :=
  ∀ (s : State) (win : Bytes), s.cfg.valid → s.framer.holds win → win.length ≤ s.cfg.stgCap →
    (∀ t, win ≠ [] → passTrip win s = .ok (some t) → t.framer.n < s.framer.n) ∧
    (∀ k, win.length < k → ∃ t, passLoop k s = .ok t ∧ decodePass s = .ok t)

/-- 43_stream_framer R170: the capacity law: after every completed FEED `n <= S-1`, and no staging byte is written at or
beyond index `S`. -/
def Obligations.StagingNeverOverflows : Prop :=
  ∀ (b : Byte) (s : State), s.inv →
    ∃ t, exec (.feed b) s = .next t ∧ t.framer.n ≤ s.cfg.stgCap - 1 ∧ Memory.within s.cfg.stgCap t.framer.stg

/-- 43_stream_framer R169, R171, 30_encoding R89: a valid packet of either form that fits `S`, fed byte by byte from SEEKING,
is delivered exactly once, when its last byte comes, whatever its payload bytes are. -/
def Obligations.ValidPacketIsDeliveredOnce : Prop :=
  ∀ (p f : Bytes) (s : State), s.inv → s.framer.lastValidIndex = -1 → f.length ≤ s.cfg.stgCap → 1 ≤ p.length →
    ((p.length ≤ 255 ∧ f = shortFrame p (crc16 s.cfg.crc p)) ∨
      (p.length ≤ 65535 ∧ f = longFrame p (crc16 s.cfg.crc p))) →
    (∃ t, execAll (f.map .feed) s = .next t ∧ t.delivered = s.delivered ++ [p] ∧ t.framer.lastValidIndex = -1 ∧
      t.errors = s.errors) ∧
    (∀ k, k < f.length → ∃ t, execAll ((f.take k).map .feed) s = .next t ∧ t.delivered = s.delivered ∧
      t.framer.holds (f.take k))

/-- 43_stream_framer R161, 95_test_vectors L1-2: the resync bound: a valid packet, any number of bytes that are no candidate
starts, and a second valid packet: both are delivered, in order. -/
def Obligations.PacketsAroundGarbageAreDelivered : Prop :=
  ∀ (p q gs : Bytes) (s : State), s.inv → s.framer.lastValidIndex = -1 →
    1 ≤ p.length → p.length ≤ 65535 →
    (p.length + 6 ≤ s.cfg.stgCap ∨ (p.length ≤ 255 ∧ p.length + 5 ≤ s.cfg.stgCap)) →
    1 ≤ q.length → q.length ≤ 65535 →
    (q.length + 6 ≤ s.cfg.stgCap ∨ (q.length ≤ 255 ∧ q.length + 5 ≤ s.cfg.stgCap)) → (∀ g ∈ gs, g ≠ 0x02 ∧ g ≠ 0x03) →
    ∃ t, execAll ((frameOf s.cfg.crc p ++ gs ++ frameOf s.cfg.crc q).map .feed) s = .next t ∧
      t.delivered = s.delivered ++ [p, q] ∧ t.framer.lastValidIndex = -1

/-- 70_reset_and_hazards R228: lasting loss of synchronisation: under `discard_all`, from a buffer that holds `[03]`, a good
short packet whose declared size as a long form exceeds `S`, and with no candidate start between its sixth byte and its end
marker, is lost, and the buffer holds `[03]` again. -/
def Obligations.DiscardAllCanStayLost : Prop :=
  ∀ (p : Bytes) (crc : U16) (s : State), s.inv → s.cfg.oversize = .discardAll → s.framer.holds [0x03] →
    1 ≤ p.length → p.length ≤ 255 → s.cfg.stgCap < 518 + p.length →
    (∀ b ∈ ((shortFrame p crc).drop 5).dropLast, b ≠ 0x02 ∧ b ≠ 0x03) →
    ∃ t, execAll ((shortFrame p crc).map .feed) s = .next t ∧ t.framer.holds [0x03] ∧ t.delivered = s.delivered

/-- 43_stream_framer R168: POLL drains `RX_FIFO`: it ends with the FIFO empty, in the framer state and with the deliveries of
a FEED of each byte in turn, and leaves the transmit side alone (log 14: nothing is pushed in between). -/
def Obligations.PollFeedsEveryByte : Prop :=
  ∀ (s : State) (bs : Bytes), s.inv → s.rx.holds s.cfg.cRx bs →
    ∃ t u, exec .poll s = .next t ∧ execAll (bs.map .feed) s = .next u ∧ t.rx.length = 0 ∧ t.framer = u.framer ∧
      t.crcAcc = u.crcAcc ∧ t.delivered = u.delivered ∧ t.errors = u.errors ∧
      s.delivered <+: t.delivered ∧ t.result = .payloads (t.delivered.drop s.delivered.length) ∧
      t.rx.mem = s.rx.mem ∧ t.tx = s.tx ∧ t.txLine = s.txLine ∧ keepsControl s t

/-! ### Agents and the boundary -/

/-- 44_boundary R191: the framer agent's step is POP RX and then FEED of the byte popped. -/
def Obligations.FramerStepIsPopThenFeed : Prop :=
  ∀ (s : State) (es : List Event), s.inv → s.pending = .framerStep :: es → s.rx.length ≠ 0 →
    ∃ b u t, exec (.pop .rx) { s with agent := .frm, pending := es } = .next u ∧ u.result = .popped true b ∧
      exec (.feed b) u = .next t ∧ step s = .next t

/-- 44_boundary R194: TXC's step is POP TX, and the byte is appended to `tx_line`; nothing else of the block
changes. The last clause is
log 17: a POP TX puts its byte on the line when TXC issues it, and only then. -/
def Obligations.TransmitStepSendsOldestByte : Prop :=
  (∀ (s : State) (b : Byte) (bs : Bytes) (es : List Event), s.inv → s.pending = .txStep :: es →
    s.tx.holds s.cfg.cTx (b :: bs) →
    ∃ t, step s = .next t ∧ t.result = .popped true b ∧ t.txLine = s.txLine ++ [b] ∧ t.tx.holds s.cfg.cTx bs ∧
      t.tx.mem = s.tx.mem ∧ t.rx = s.rx ∧ keepsFramer s t ∧ t.errors = s.errors ∧ t.cfg = s.cfg ∧ t.pending = es) ∧
  (∀ (s : State) (b : Byte) (bs : Bytes), s.inv → s.tx.holds s.cfg.cTx (b :: bs) →
    ∃ t, exec (.pop .tx) s = .next t ∧ t.txLine = if s.agent = .txc then s.txLine ++ [b] else s.txLine)

/-- 44_boundary R193: WRITE: refused when the frame could never fit, held with no change to the block when there is no room
now, else one STORE, which cannot overflow: the frame follows what `TX_FIFO` holds. -/
def Obligations.WriteStoresHoldsOrRefuses : Prop :=
  ∀ (frame : Bytes) (s : State) (bs : Bytes), s.inv → s.tx.holds s.cfg.cTx bs →
    (s.cfg.cTx - 1 < frame.length → exec (.write frame) s = .refused .frameTooLong) ∧
    (frame.length ≤ s.cfg.cTx - 1 → s.cfg.cTx - bs.length - 1 < frame.length →
      exec (.write frame) s = .next { s with result := .held }) ∧
    (frame.length ≤ 65535 → frame.length ≤ s.cfg.cTx - bs.length - 1 →
      ∃ t, exec (.write frame) s = .next t ∧ t.result = .none ∧ t.tx.holds s.cfg.cTx (bs ++ frame) ∧
        keepsBytesOutside (fun a => ∃ k, k < frame.length ∧ a = (s.tx.start + s.tx.length + k) % s.cfg.cTx)
          s.tx.mem t.tx.mem ∧
        t.tx.start = s.tx.start ∧ t.rx = s.rx ∧ t.txLine = s.txLine ∧ keepsControl s t ∧ keepsFramer s t ∧
        t.errors = s.errors)

/-- The model's reading of 44_boundary R193 and 40_fifo R112 together (log 23): a frame of more than 65535 bytes for which
there is room is refused by the STORE inside WRITE. -/
def Obligations.WriteBeyondStoreCountRefused : Prop :=
  ∀ (frame : Bytes) (s : State), 65535 < frame.length → frame.length ≤ s.cfg.cTx - s.tx.length - 1 →
    exec (.write frame) s = .refused .badCount

/-- 44_boundary R193: a held WRITE is lifted by the transmit drain: alone in the list, it is done after the other agents'
steps, FRM's and TXC's (log 13), have made room, and its frame follows what `TX_FIFO` held, on the line and then in the
FIFO. -/
def Obligations.HeldWriteIsDoneAfterDrain : Prop :=
  ∀ (s : State) (a : Agent) (r : OpRequest) (frame bs : Bytes), s.inv → s.pending = [.op a r] →
    decodeOp r = .ok (.write frame) → frame.length ≤ s.cfg.cTx - 1 → frame.length ≤ 65535 → s.tx.holds s.cfg.cTx bs →
    ∃ k t cs, k ≤ s.rx.length + s.tx.length + 1 ∧ run k s = .next t ∧ t.pending = [] ∧ t.result = .none ∧
      t.tx.holds s.cfg.cTx cs ∧ s.txLine <+: t.txLine ∧ t.txLine ++ cs = s.txLine ++ bs ++ frame

/-- 44_boundary R191, R194, log 13: with no request left the block drains itself: after as many steps as there are bytes both
FIFOs are empty and what `TX_FIFO` held is on the line, in order. -/
def Obligations.QuiescentBlockDrains : Prop :=
  ∀ (s : State) (bs : Bytes), s.inv → s.pending = [] → s.tx.holds s.cfg.cTx bs →
    ∃ t, run (s.rx.length + s.tx.length) s = .next t ∧ t.rx.length = 0 ∧ t.tx.length = 0 ∧
      t.txLine = s.txLine ++ bs ∧ t.pending = []

/-- 44_boundary R194: under the role discipline of 60_exceptions R206 on the transmit side, with no reset of `TX_FIFO` asked
for, in every run: what is on the line and then what `TX_FIFO` holds is what was there at first and then the frames of the
WRITEs done, whole and in order; the WRITEs done and then those still asked for are those asked for at first. -/
def Obligations.TransmitLineIsWrittenFramesInOrder : Prop :=
  ∀ (k : Nat) (s t : State) (bs : Bytes), s.inv →
    (∀ e ∈ s.pending, keepsTransmitRoles e = true ∧ empties .tx e = false) →
    s.tx.holds s.cfg.cTx bs → run k s = .next t →
    ∃ ws cs, hostWrites s.pending = ws ++ hostWrites t.pending ∧ t.tx.holds s.cfg.cTx cs ∧
      t.txLine ++ cs = s.txLine ++ bs ++ ws.flatten

/-- 30_encoding R80, R81, 44_boundary R190, R191, log 15: a packet that arrives on the line is its bytes pushed on `RX_FIFO` one
at a time, the framer taking its step after each: it completes from every state that meets the invariant. -/
def Obligations.PacketOnTheLineCompletes : Prop :=
  ∀ (p : Bytes) (crc : U16) (s : State), s.inv →
    (∃ t u, receiveBytes (shortFrame p crc) s = .ok u ∧ exec (.frameShort p crc) s = .next t ∧
      t = { u with result := .payloads (u.delivered.drop s.delivered.length) } ∧
      t.inv ∧ t.tx = s.tx ∧ t.txLine = s.txLine ∧ keepsControl s t ∧ s.delivered <+: t.delivered) ∧
    (∃ t u, receiveBytes (longFrame p crc) s = .ok u ∧ exec (.frameLong p crc) s = .next t ∧
      t = { u with result := .payloads (u.delivered.drop s.delivered.length) } ∧
      t.inv ∧ t.tx = s.tx ∧ t.txLine = s.txLine ∧ keepsControl s t ∧ s.delivered <+: t.delivered)

/-- 30_encoding R80, R81, R89, 43_stream_framer R169, log 15: a packet on the line with the right CRC that fits `S`, with `RX_FIFO`
empty and the framer SEEKING, is delivered exactly once, and both are as before; the FIFO may be of any capacity. -/
def Obligations.ValidPacketOnTheLineIsDelivered : Prop :=
  ∀ (p : Bytes) (s : State), s.inv → s.rx.length = 0 → s.framer.lastValidIndex = -1 → 1 ≤ p.length →
    (p.length ≤ 255 → p.length + 5 ≤ s.cfg.stgCap →
      ∃ t, exec (.frameShort p (crc16 s.cfg.crc p)) s = .next t ∧ t.result = .payloads [p] ∧
        t.delivered = s.delivered ++ [p] ∧ t.rx.length = 0 ∧ t.framer.lastValidIndex = -1 ∧ t.errors = s.errors) ∧
    (p.length ≤ 65535 → p.length + 6 ≤ s.cfg.stgCap →
      ∃ t, exec (.frameLong p (crc16 s.cfg.crc p)) s = .next t ∧ t.result = .payloads [p] ∧
        t.delivered = s.delivered ++ [p] ∧ t.rx.length = 0 ∧ t.framer.lastValidIndex = -1 ∧ t.errors = s.errors)

/-! ### Refusals, history and frames over all operations -/

/-- 30_encoding R91: the two unassigned codes select no operation. -/
def Obligations.UnassignedCodesRefused : Prop :=
  ∀ (hi : BitVec 4) (s : State), exec (.unassignedE hi) s = .refused .noSuchOperation ∧
    exec (.unassignedF hi) s = .refused .noSuchOperation

/-- 60_exceptions R208: the closed list of refusals: each reason arises only where the list says (the STORE inside WRITE is
log 23), and no instruction is refused as not modelled. -/
def Obligations.RefusalsAreTheClosedList : Prop :=
  ∀ (i : Instr) (s : State) (r : Refusal), exec i s = .refused r →
    (r = .noSuchOperation ∧ ∃ hi, i = .unassignedE hi ∨ i = .unassignedF hi) ∨
    (r = .badCount ∧ ∃ bs : Bytes, 65535 < bs.length ∧ ((∃ f, i = .store f bs) ∨ i = .crc16 bs ∨ i = .write bs)) ∨
    (r = .badLength ∧ ∃ p : Bytes, (p.length = 0 ∨ 65535 < p.length) ∧ i = .encode p) ∨
    (r = .frameTooLong ∧ ∃ bs : Bytes, s.cfg.cTx - 1 < bs.length ∧ i = .write bs)

/-- 60_exceptions R200, log 8: the event history: a FEED whose window is rejected records, before anything else, the code of
the reason, E1 to E5; PUSH on a full instance, and STORE of bytes that do not fit, record E6 and only that; POP on an empty
instance records E7; a step that is not a RESET only adds to the history, and never E8 or E9, which are outside the block. -/
def Obligations.ErrorHistoryNamesTheConditions : Prop :=
  (∀ (b : Byte) (s : State) (win : Bytes) (why : RejectReason), s.inv → s.framer.holds win → win ≠ [] →
    decodeWindow s.cfg (win ++ [b]) = .reject why → ∃ t, exec (.feed b) s = .next t ∧
    (why = .badTerminator → s.errors ++ [.e1] <+: t.errors) ∧ (why = .oversize → s.errors ++ [.e2] <+: t.errors) ∧
    (why = .badCrc → s.errors ++ [.e3] <+: t.errors) ∧ (why = .badMarker → s.errors ++ [.e4] <+: t.errors) ∧
    (why = .zeroLen → s.errors ++ [.e5] <+: t.errors)) ∧
  (∀ (i : Inst) (b : Byte) (s : State), 2 ≤ s.cap i → ∃ t, exec (.push i b) s = .next t ∧
    t.errors = if (s.fifo i).length = s.cap i - 1 then s.errors ++ [.e6] else s.errors) ∧
  (∀ (i : Inst) (data : Bytes) (s : State), 2 ≤ s.cap i → data.length ≤ 65535 → ∃ t, exec (.store i data) s = .next t ∧
    t.errors = if s.cap i - (s.fifo i).length - 1 < data.length then s.errors ++ [.e6] else s.errors) ∧
  (∀ (i : Inst) (s : State), (s.fifo i).ok (s.cap i) → ∃ t, exec (.pop i) s = .next t ∧
    t.errors = if (s.fifo i).length = 0 then s.errors ++ [.e7] else s.errors) ∧
  (∀ s t : State, step s = .next t → (.e8 ∈ t.errors → .e8 ∈ s.errors) ∧ (.e9 ∈ t.errors → .e9 ∈ s.errors)) ∧
  (∀ (i : Instr) (s t : State), i ≠ .reset → exec i s = .next t → s.errors <+: t.errors)

/-- 10_state R25, 20_memory R50: which operations reach which storage: those that name an instance leave the other and the
framer alone; the framer's leave the transmit side alone; the codec's leave every storage alone. -/
def Obligations.OperationsReachOnlyTheirStorage : Prop :=
  ∀ (s t : State) (i : Instr), exec i s = .next t →
    (∀ x, (∃ b, i = .push x b) ∨ (∃ d, i = .store x d) ∨ i = .pop x ∨ i = .length x ∨ i = .freeSpace x ∨ i = .fifoReset x →
      t.fifo (other x) = s.fifo (other x) ∧ t.framer = s.framer ∧ t.delivered = s.delivered ∧ t.crcAcc = s.crcAcc) ∧
    ((∃ b, i = .feed b) ∨ i = .framerReset → t.rx = s.rx ∧ t.tx = s.tx ∧ t.txLine = s.txLine ∧
      (s.cfg.crcSerial = false → t.crcAcc = s.crcAcc)) ∧
    (i = .poll ∨ (∃ p c, i = .frameShort p c) ∨ (∃ p c, i = .frameLong p c) → t.tx = s.tx ∧ t.txLine = s.txLine ∧
      (s.cfg.crcSerial = false → t.crcAcc = s.crcAcc)) ∧
    ((∃ d, i = .crc16 d) ∨ (∃ p, i = .encode p) ∨ (∃ w, i = .decode w) →
      t.rx = s.rx ∧ t.tx = s.tx ∧ t.framer = s.framer ∧ t.delivered = s.delivered ∧ t.txLine = s.txLine ∧
      t.errors = s.errors ∧ (s.cfg.crcSerial = false → t.crcAcc = s.crcAcc)) ∧
    ((∃ f, i = .write f) → t.rx = s.rx ∧ t.framer = s.framer ∧ t.delivered = s.delivered ∧ t.crcAcc = s.crcAcc ∧
      t.txLine = s.txLine)
end

