-- ==== Sys2Proof/Laws/State.lean ====
section
/-! SUPPORT. What each update of State does to each field, once: an updated field reads as the new value and every other
field as before. Later proofs cite these (simp knows them) and never unfold a record update. -/

namespace Sys2Proof.Machine

variable (s : State)

/-! ### setLastValidIndex -/

@[simp] theorem State.setLastValidIndex_cfg (i : Int) : (s.setLastValidIndex i).cfg = s.cfg := rfl
@[simp] theorem State.setLastValidIndex_rx (i : Int) : (s.setLastValidIndex i).rx = s.rx := rfl
@[simp] theorem State.setLastValidIndex_tx (i : Int) : (s.setLastValidIndex i).tx = s.tx := rfl
@[simp] theorem State.setLastValidIndex_framer (i : Int) : (s.setLastValidIndex i).framer = { s.framer with lastValidIndex := i } := rfl
@[simp] theorem State.setLastValidIndex_crcAcc (i : Int) : (s.setLastValidIndex i).crcAcc = s.crcAcc := rfl
@[simp] theorem State.setLastValidIndex_delivered (i : Int) : (s.setLastValidIndex i).delivered = s.delivered := rfl
@[simp] theorem State.setLastValidIndex_txLine (i : Int) : (s.setLastValidIndex i).txLine = s.txLine := rfl
@[simp] theorem State.setLastValidIndex_errors (i : Int) : (s.setLastValidIndex i).errors = s.errors := rfl
@[simp] theorem State.setLastValidIndex_result (i : Int) : (s.setLastValidIndex i).result = s.result := rfl
@[simp] theorem State.setLastValidIndex_agent (i : Int) : (s.setLastValidIndex i).agent = s.agent := rfl
@[simp] theorem State.setLastValidIndex_pending (i : Int) : (s.setLastValidIndex i).pending = s.pending := rfl

/-! ### setStg -/

@[simp] theorem State.setStg_cfg (m : Memory) : (s.setStg m).cfg = s.cfg := rfl
@[simp] theorem State.setStg_rx (m : Memory) : (s.setStg m).rx = s.rx := rfl
@[simp] theorem State.setStg_tx (m : Memory) : (s.setStg m).tx = s.tx := rfl
@[simp] theorem State.setStg_framer (m : Memory) : (s.setStg m).framer = { s.framer with stg := m } := rfl
@[simp] theorem State.setStg_crcAcc (m : Memory) : (s.setStg m).crcAcc = s.crcAcc := rfl
@[simp] theorem State.setStg_delivered (m : Memory) : (s.setStg m).delivered = s.delivered := rfl
@[simp] theorem State.setStg_txLine (m : Memory) : (s.setStg m).txLine = s.txLine := rfl
@[simp] theorem State.setStg_errors (m : Memory) : (s.setStg m).errors = s.errors := rfl
@[simp] theorem State.setStg_result (m : Memory) : (s.setStg m).result = s.result := rfl
@[simp] theorem State.setStg_agent (m : Memory) : (s.setStg m).agent = s.agent := rfl
@[simp] theorem State.setStg_pending (m : Memory) : (s.setStg m).pending = s.pending := rfl

/-! ### setResult -/

@[simp] theorem State.setResult_cfg (r : Result) : (s.setResult r).cfg = s.cfg := rfl
@[simp] theorem State.setResult_rx (r : Result) : (s.setResult r).rx = s.rx := rfl
@[simp] theorem State.setResult_tx (r : Result) : (s.setResult r).tx = s.tx := rfl
@[simp] theorem State.setResult_framer (r : Result) : (s.setResult r).framer = s.framer := rfl
@[simp] theorem State.setResult_crcAcc (r : Result) : (s.setResult r).crcAcc = s.crcAcc := rfl
@[simp] theorem State.setResult_delivered (r : Result) : (s.setResult r).delivered = s.delivered := rfl
@[simp] theorem State.setResult_txLine (r : Result) : (s.setResult r).txLine = s.txLine := rfl
@[simp] theorem State.setResult_errors (r : Result) : (s.setResult r).errors = s.errors := rfl
@[simp] theorem State.setResult_result (r : Result) : (s.setResult r).result = r := rfl
@[simp] theorem State.setResult_agent (r : Result) : (s.setResult r).agent = s.agent := rfl
@[simp] theorem State.setResult_pending (r : Result) : (s.setResult r).pending = s.pending := rfl

/-! ### recordError -/

@[simp] theorem State.recordError_cfg (e : ErrorCode) : (s.recordError e).cfg = s.cfg := rfl
@[simp] theorem State.recordError_rx (e : ErrorCode) : (s.recordError e).rx = s.rx := rfl
@[simp] theorem State.recordError_tx (e : ErrorCode) : (s.recordError e).tx = s.tx := rfl
@[simp] theorem State.recordError_framer (e : ErrorCode) : (s.recordError e).framer = s.framer := rfl
@[simp] theorem State.recordError_crcAcc (e : ErrorCode) : (s.recordError e).crcAcc = s.crcAcc := rfl
@[simp] theorem State.recordError_delivered (e : ErrorCode) : (s.recordError e).delivered = s.delivered := rfl
@[simp] theorem State.recordError_txLine (e : ErrorCode) : (s.recordError e).txLine = s.txLine := rfl
@[simp] theorem State.recordError_errors (e : ErrorCode) : (s.recordError e).errors = s.errors ++ [e] := rfl
@[simp] theorem State.recordError_result (e : ErrorCode) : (s.recordError e).result = s.result := rfl
@[simp] theorem State.recordError_agent (e : ErrorCode) : (s.recordError e).agent = s.agent := rfl
@[simp] theorem State.recordError_pending (e : ErrorCode) : (s.recordError e).pending = s.pending := rfl

/-! ### deliver -/

@[simp] theorem State.deliver_cfg (p : Bytes) : (s.deliver p).cfg = s.cfg := rfl
@[simp] theorem State.deliver_rx (p : Bytes) : (s.deliver p).rx = s.rx := rfl
@[simp] theorem State.deliver_tx (p : Bytes) : (s.deliver p).tx = s.tx := rfl
@[simp] theorem State.deliver_framer (p : Bytes) : (s.deliver p).framer = s.framer := rfl
@[simp] theorem State.deliver_crcAcc (p : Bytes) : (s.deliver p).crcAcc = s.crcAcc := rfl
@[simp] theorem State.deliver_delivered (p : Bytes) : (s.deliver p).delivered = s.delivered ++ [p] := rfl
@[simp] theorem State.deliver_txLine (p : Bytes) : (s.deliver p).txLine = s.txLine := rfl
@[simp] theorem State.deliver_errors (p : Bytes) : (s.deliver p).errors = s.errors := rfl
@[simp] theorem State.deliver_result (p : Bytes) : (s.deliver p).result = s.result := rfl
@[simp] theorem State.deliver_agent (p : Bytes) : (s.deliver p).agent = s.agent := rfl
@[simp] theorem State.deliver_pending (p : Bytes) : (s.deliver p).pending = s.pending := rfl

/-! ### sendByte -/

@[simp] theorem State.sendByte_cfg (b : Byte) : (s.sendByte b).cfg = s.cfg := rfl
@[simp] theorem State.sendByte_rx (b : Byte) : (s.sendByte b).rx = s.rx := rfl
@[simp] theorem State.sendByte_tx (b : Byte) : (s.sendByte b).tx = s.tx := rfl
@[simp] theorem State.sendByte_framer (b : Byte) : (s.sendByte b).framer = s.framer := rfl
@[simp] theorem State.sendByte_crcAcc (b : Byte) : (s.sendByte b).crcAcc = s.crcAcc := rfl
@[simp] theorem State.sendByte_delivered (b : Byte) : (s.sendByte b).delivered = s.delivered := rfl
@[simp] theorem State.sendByte_txLine (b : Byte) : (s.sendByte b).txLine = s.txLine ++ [b] := rfl
@[simp] theorem State.sendByte_errors (b : Byte) : (s.sendByte b).errors = s.errors := rfl
@[simp] theorem State.sendByte_result (b : Byte) : (s.sendByte b).result = s.result := rfl
@[simp] theorem State.sendByte_agent (b : Byte) : (s.sendByte b).agent = s.agent := rfl
@[simp] theorem State.sendByte_pending (b : Byte) : (s.sendByte b).pending = s.pending := rfl

/-! ### withPayloadsSince -/

@[simp] theorem State.withPayloadsSince_cfg (u : State) : (s.withPayloadsSince u).cfg = s.cfg := rfl
@[simp] theorem State.withPayloadsSince_rx (u : State) : (s.withPayloadsSince u).rx = s.rx := rfl
@[simp] theorem State.withPayloadsSince_tx (u : State) : (s.withPayloadsSince u).tx = s.tx := rfl
@[simp] theorem State.withPayloadsSince_framer (u : State) : (s.withPayloadsSince u).framer = s.framer := rfl
@[simp] theorem State.withPayloadsSince_crcAcc (u : State) : (s.withPayloadsSince u).crcAcc = s.crcAcc := rfl
@[simp] theorem State.withPayloadsSince_delivered (u : State) : (s.withPayloadsSince u).delivered = s.delivered := rfl
@[simp] theorem State.withPayloadsSince_txLine (u : State) : (s.withPayloadsSince u).txLine = s.txLine := rfl
@[simp] theorem State.withPayloadsSince_errors (u : State) : (s.withPayloadsSince u).errors = s.errors := rfl
@[simp] theorem State.withPayloadsSince_result (u : State) : (s.withPayloadsSince u).result = .payloads (s.delivered.drop u.delivered.length) := rfl
@[simp] theorem State.withPayloadsSince_agent (u : State) : (s.withPayloadsSince u).agent = s.agent := rfl
@[simp] theorem State.withPayloadsSince_pending (u : State) : (s.withPayloadsSince u).pending = s.pending := rfl

/-! ### setFifo -/

@[simp] theorem State.setFifo_cfg (i : Inst) (f : Fifo) : (s.setFifo i f).cfg = s.cfg := by cases i <;> rfl
@[simp] theorem State.setFifo_framer (i : Inst) (f : Fifo) : (s.setFifo i f).framer = s.framer := by cases i <;> rfl
@[simp] theorem State.setFifo_crcAcc (i : Inst) (f : Fifo) : (s.setFifo i f).crcAcc = s.crcAcc := by cases i <;> rfl
@[simp] theorem State.setFifo_delivered (i : Inst) (f : Fifo) : (s.setFifo i f).delivered = s.delivered := by cases i <;> rfl
@[simp] theorem State.setFifo_txLine (i : Inst) (f : Fifo) : (s.setFifo i f).txLine = s.txLine := by cases i <;> rfl
@[simp] theorem State.setFifo_errors (i : Inst) (f : Fifo) : (s.setFifo i f).errors = s.errors := by cases i <;> rfl
@[simp] theorem State.setFifo_result (i : Inst) (f : Fifo) : (s.setFifo i f).result = s.result := by cases i <;> rfl
@[simp] theorem State.setFifo_agent (i : Inst) (f : Fifo) : (s.setFifo i f).agent = s.agent := by cases i <;> rfl
@[simp] theorem State.setFifo_pending (i : Inst) (f : Fifo) : (s.setFifo i f).pending = s.pending := by cases i <;> rfl
@[simp] theorem State.setFifo_rx_rx (f : Fifo) : (s.setFifo .rx f).rx = f := rfl
@[simp] theorem State.setFifo_rx_tx (f : Fifo) : (s.setFifo .rx f).tx = s.tx := rfl
@[simp] theorem State.setFifo_tx_tx (f : Fifo) : (s.setFifo .tx f).tx = f := rfl
@[simp] theorem State.setFifo_tx_rx (f : Fifo) : (s.setFifo .tx f).rx = s.rx := rfl
@[simp] theorem State.fifo_setFifo (i : Inst) (f : Fifo) : (s.setFifo i f).fifo i = f := by cases i <;> rfl
@[simp] theorem State.fifo_other_setFifo (i : Inst) (f : Fifo) : (s.setFifo i f).fifo (other i) = s.fifo (other i) := by
  cases i <;> rfl
@[simp] theorem State.fifo_rx : s.fifo .rx = s.rx := rfl
@[simp] theorem State.fifo_tx : s.fifo .tx = s.tx := rfl
@[simp] theorem State.cap_rx : s.cap .rx = s.cfg.cRx := rfl
@[simp] theorem State.cap_tx : s.cap .tx = s.cfg.cTx := rfl

/-- The instances and capacities depend on three fields only. -/
theorem State.cap_of_cfg {s t : State} (h : t.cfg = s.cfg) (i : Inst) : t.cap i = s.cap i := by
  cases i <;> simp [State.cap, h]

/-! ### noteCrc -/

@[simp] theorem State.noteCrc_cfg (c : U16) : (s.noteCrc c).cfg = s.cfg := by
  unfold State.noteCrc; split <;> rfl
@[simp] theorem State.noteCrc_rx (c : U16) : (s.noteCrc c).rx = s.rx := by
  unfold State.noteCrc; split <;> rfl
@[simp] theorem State.noteCrc_tx (c : U16) : (s.noteCrc c).tx = s.tx := by
  unfold State.noteCrc; split <;> rfl
@[simp] theorem State.noteCrc_framer (c : U16) : (s.noteCrc c).framer = s.framer := by
  unfold State.noteCrc; split <;> rfl
@[simp] theorem State.noteCrc_crcAcc (c : U16) :
    (s.noteCrc c).crcAcc = if s.cfg.crcSerial then c else s.crcAcc := by
  unfold State.noteCrc; split <;> rfl
@[simp] theorem State.noteCrc_delivered (c : U16) : (s.noteCrc c).delivered = s.delivered := by
  unfold State.noteCrc; split <;> rfl
@[simp] theorem State.noteCrc_txLine (c : U16) : (s.noteCrc c).txLine = s.txLine := by
  unfold State.noteCrc; split <;> rfl
@[simp] theorem State.noteCrc_errors (c : U16) : (s.noteCrc c).errors = s.errors := by
  unfold State.noteCrc; split <;> rfl
@[simp] theorem State.noteCrc_result (c : U16) : (s.noteCrc c).result = s.result := by
  unfold State.noteCrc; split <;> rfl
@[simp] theorem State.noteCrc_agent (c : U16) : (s.noteCrc c).agent = s.agent := by
  unfold State.noteCrc; split <;> rfl
@[simp] theorem State.noteCrc_pending (c : U16) : (s.noteCrc c).pending = s.pending := by
  unfold State.noteCrc; split <;> rfl

/-! ### noteOverflow -/

@[simp] theorem State.noteOverflow_cfg (o : Bool) : (s.noteOverflow o).cfg = s.cfg := by
  unfold State.noteOverflow; split <;> rfl
@[simp] theorem State.noteOverflow_rx (o : Bool) : (s.noteOverflow o).rx = s.rx := by
  unfold State.noteOverflow; split <;> rfl
@[simp] theorem State.noteOverflow_tx (o : Bool) : (s.noteOverflow o).tx = s.tx := by
  unfold State.noteOverflow; split <;> rfl
@[simp] theorem State.noteOverflow_framer (o : Bool) : (s.noteOverflow o).framer = s.framer := by
  unfold State.noteOverflow; split <;> rfl
@[simp] theorem State.noteOverflow_crcAcc (o : Bool) : (s.noteOverflow o).crcAcc = s.crcAcc := by
  unfold State.noteOverflow; split <;> rfl
@[simp] theorem State.noteOverflow_delivered (o : Bool) : (s.noteOverflow o).delivered = s.delivered := by
  unfold State.noteOverflow; split <;> rfl
@[simp] theorem State.noteOverflow_txLine (o : Bool) : (s.noteOverflow o).txLine = s.txLine := by
  unfold State.noteOverflow; split <;> rfl
@[simp] theorem State.noteOverflow_errors (o : Bool) :
    (s.noteOverflow o).errors = if o then s.errors ++ [.e6] else s.errors := by
  unfold State.noteOverflow; split <;> rfl
@[simp] theorem State.noteOverflow_result (o : Bool) : (s.noteOverflow o).result = s.result := by
  unfold State.noteOverflow; split <;> rfl
@[simp] theorem State.noteOverflow_agent (o : Bool) : (s.noteOverflow o).agent = s.agent := by
  unfold State.noteOverflow; split <;> rfl
@[simp] theorem State.noteOverflow_pending (o : Bool) : (s.noteOverflow o).pending = s.pending := by
  unfold State.noteOverflow; split <;> rfl

/-! ### notePop -/

@[simp] theorem State.notePop_cfg (i : Inst) (b : Byte) : (s.notePop i b).cfg = s.cfg := by
  unfold State.notePop; split <;> rfl
@[simp] theorem State.notePop_rx (i : Inst) (b : Byte) : (s.notePop i b).rx = s.rx := by
  unfold State.notePop; split <;> rfl
@[simp] theorem State.notePop_tx (i : Inst) (b : Byte) : (s.notePop i b).tx = s.tx := by
  unfold State.notePop; split <;> rfl
@[simp] theorem State.notePop_framer (i : Inst) (b : Byte) : (s.notePop i b).framer = s.framer := by
  unfold State.notePop; split <;> rfl
@[simp] theorem State.notePop_crcAcc (i : Inst) (b : Byte) : (s.notePop i b).crcAcc = s.crcAcc := by
  unfold State.notePop; split <;> rfl
@[simp] theorem State.notePop_delivered (i : Inst) (b : Byte) : (s.notePop i b).delivered = s.delivered := by
  unfold State.notePop; split <;> rfl
@[simp] theorem State.notePop_txLine (i : Inst) (b : Byte) :
    (s.notePop i b).txLine = if i = .tx ∧ s.agent = .txc then s.txLine ++ [b] else s.txLine := by
  unfold State.notePop; split <;> rfl
@[simp] theorem State.notePop_errors (i : Inst) (b : Byte) : (s.notePop i b).errors = s.errors := by
  unfold State.notePop; split <;> rfl
@[simp] theorem State.notePop_result (i : Inst) (b : Byte) : (s.notePop i b).result = s.result := by
  unfold State.notePop; split <;> rfl
@[simp] theorem State.notePop_agent (i : Inst) (b : Byte) : (s.notePop i b).agent = s.agent := by
  unfold State.notePop; split <;> rfl
@[simp] theorem State.notePop_pending (i : Inst) (b : Byte) : (s.notePop i b).pending = s.pending := by
  unfold State.notePop; split <;> rfl

/-! ### noteDecode -/

@[simp] theorem State.noteDecode_cfg (w : Bytes) : (s.noteDecode w).cfg = s.cfg := by
  unfold State.noteDecode; split <;> simp
@[simp] theorem State.noteDecode_rx (w : Bytes) : (s.noteDecode w).rx = s.rx := by
  unfold State.noteDecode; split <;> simp
@[simp] theorem State.noteDecode_tx (w : Bytes) : (s.noteDecode w).tx = s.tx := by
  unfold State.noteDecode; split <;> simp
@[simp] theorem State.noteDecode_framer (w : Bytes) : (s.noteDecode w).framer = s.framer := by
  unfold State.noteDecode; split <;> simp
@[simp] theorem State.noteDecode_delivered (w : Bytes) : (s.noteDecode w).delivered = s.delivered := by
  unfold State.noteDecode; split <;> simp
@[simp] theorem State.noteDecode_txLine (w : Bytes) : (s.noteDecode w).txLine = s.txLine := by
  unfold State.noteDecode; split <;> simp
@[simp] theorem State.noteDecode_errors (w : Bytes) : (s.noteDecode w).errors = s.errors := by
  unfold State.noteDecode; split <;> simp
@[simp] theorem State.noteDecode_result (w : Bytes) : (s.noteDecode w).result = s.result := by
  unfold State.noteDecode; split <;> simp
@[simp] theorem State.noteDecode_agent (w : Bytes) : (s.noteDecode w).agent = s.agent := by
  unfold State.noteDecode; split <;> simp
@[simp] theorem State.noteDecode_pending (w : Bytes) : (s.noteDecode w).pending = s.pending := by
  unfold State.noteDecode; split <;> simp

/-! ### discardAll -/

@[simp] theorem discardAll_cfg : (discardAll s).cfg = s.cfg := rfl
@[simp] theorem discardAll_rx : (discardAll s).rx = s.rx := rfl
@[simp] theorem discardAll_tx : (discardAll s).tx = s.tx := rfl
@[simp] theorem discardAll_framer : (discardAll s).framer = { s.framer with lastValidIndex := -1 } := rfl
@[simp] theorem discardAll_crcAcc : (discardAll s).crcAcc = s.crcAcc := rfl
@[simp] theorem discardAll_delivered : (discardAll s).delivered = s.delivered := rfl
@[simp] theorem discardAll_txLine : (discardAll s).txLine = s.txLine := rfl
@[simp] theorem discardAll_errors : (discardAll s).errors = s.errors := rfl
@[simp] theorem discardAll_result : (discardAll s).result = s.result := rfl
@[simp] theorem discardAll_agent : (discardAll s).agent = s.agent := rfl
@[simp] theorem discardAll_pending : (discardAll s).pending = s.pending := rfl

/-! ### Framer -/

@[simp] theorem Framer.n_seeking (m : Memory) : (⟨m, -1⟩ : Framer).n = 0 := rfl
@[simp] theorem other_other (i : Inst) : other (other i) = i := by cases i <;> rfl

end Sys2Proof.Machine
end

