-- ==== Sys2Proof/Laws/Decode.lean ====
section
/-! SUPPORT. The byte-order helpers of the decoder and encoder (20_memory R53): taking a 16-bit value apart and putting it
together are inverse. -/

namespace Sys2Proof

theorem be16_toNat (h l : Byte) : (be16 h l).toNat = h.toNat * 256 + l.toNat := by
  have h1 := h.isLt
  have h2 := l.isLt
  simp only [be16, BitVec.toNat_ofNat]
  omega

theorem hi8_toNat (v : U16) : (hi8 v).toNat = v.toNat / 256 := by
  have h := v.isLt
  simp only [hi8, BitVec.extractLsb'_toNat, Nat.shiftRight_eq_div_pow]
  omega

theorem lo8_toNat (v : U16) : (lo8 v).toNat = v.toNat % 256 := by
  simp [lo8, BitVec.extractLsb'_toNat]

@[simp] theorem be16_hi8_lo8 (v : U16) : be16 (hi8 v) (lo8 v) = v := by
  apply BitVec.eq_of_toNat_eq
  rw [be16_toNat, hi8_toNat, lo8_toNat]
  omega

@[simp] theorem hi8_be16 (h l : Byte) : hi8 (be16 h l) = h := by
  apply BitVec.eq_of_toNat_eq
  have := l.isLt
  rw [hi8_toNat, be16_toNat]
  omega

@[simp] theorem lo8_be16 (h l : Byte) : lo8 (be16 h l) = l := by
  apply BitVec.eq_of_toNat_eq
  have := l.isLt
  rw [lo8_toNat, be16_toNat]
  omega

@[simp] theorem shortFrame_length (p : Bytes) (c : U16) : (shortFrame p c).length = p.length + ovhShort := by
  simp [shortFrame, ovhShort]

@[simp] theorem longFrame_length (p : Bytes) (c : U16) : (longFrame p c).length = p.length + ovhLong := by
  simp [longFrame, ovhLong]

end Sys2Proof
end

