-- ==== Sys2Proof/Laws/Memory.lean ====
section
/-! SUPPORT. The laws of a byte storage: read after write, the canonical form, and one specification per run operation. -/

namespace Sys2Proof.Machine

/-! ### Computations that may fault -/

@[simp] theorem exceptMap_ok {α β : Type} (g : α → β) (a : α) : Except.map g (.ok a : Except Fault α) = .ok (g a) := rfl

@[simp] theorem exceptMap_error {α β : Type} (g : α → β) (e : Fault) :
    Except.map g (.error e : Except Fault α) = .error e := rfl

@[simp] theorem ofExcept_ok (s : State) : ofExcept (.ok s) = .next s := rfl

@[simp] theorem ofExcept_error (e : Fault) : ofExcept (.error e) = .fault e := rfl

/-! ### Read after write -/

@[simp] theorem Memory.read_write_same (m : Memory) (i : Nat) (v : Byte) : (Memory.write m i v).read i = some v := by
  induction m with
  | nil => simp [Memory.write, Memory.read]
  | cons c m ih =>
    obtain ⟨a, w⟩ := c
    simp only [Memory.write]
    split
    · simp [Memory.read]
    · split
      · simp [Memory.read]
      · rename_i h1 h2
        simp [Memory.read, ih, Ne.symm h2]

theorem Memory.read_write_ne (m : Memory) {i j : Nat} (v : Byte) (h : j ≠ i) :
    (Memory.write m i v).read j = m.read j := by
  induction m with
  | nil => simp [Memory.write, Memory.read, Ne.symm h]
  | cons c m ih =>
    obtain ⟨a, w⟩ := c
    simp only [Memory.write]
    split
    · simp [Memory.read, Ne.symm h]
    · split
      · rename_i h1 h2
        subst h2
        simp [Memory.read, Ne.symm h]
      · simp only [Memory.read, ih]

/-! ### The canonical form -/

theorem Memory.wf_cons {c : Host.Cell} {m : Memory} :
    Memory.wf (c :: m) = true ↔ (∀ d ∈ m.head?, c.1 < d.1) ∧ m.wf = true := by
  cases m with
  | nil => simp [Memory.wf]
  | cons d m => obtain ⟨a, v⟩ := c; obtain ⟨b, w⟩ := d; simp [Memory.wf]

theorem Memory.head_write (m : Memory) (i : Nat) (v : Byte) :
    ∀ d ∈ (Memory.write m i v).head?, d.1 = i ∨ d.1 ∈ m.head?.map (·.1) := by
  cases m with
  | nil => simp [Memory.write]
  | cons c m =>
    obtain ⟨a, w⟩ := c
    simp only [Memory.write]
    split
    · simp
    · split <;> simp

/-- A write keeps the canonical form. -/
theorem Memory.wf_write {m : Memory} (h : m.wf = true) (i : Nat) (v : Byte) : (Memory.write m i v).wf = true := by
  induction m with
  | nil => rfl
  | cons c m ih =>
    obtain ⟨a, w⟩ := c
    have hc := Memory.wf_cons.1 h
    simp only [Memory.write]
    split
    · rename_i hlt
      exact Memory.wf_cons.2 ⟨by simpa using hlt, h⟩
    · split
      · rename_i hne heq
        subst heq
        exact Memory.wf_cons.2 ⟨hc.1, hc.2⟩
      · rename_i hlt hne
        refine Memory.wf_cons.2 ⟨fun d hd => ?_, ih hc.2⟩
        rcases Memory.head_write m i v d hd with hd | hd
        · rw [hd]; show a < i; omega
        · cases hm : m.head? with
          | none => simp [hm] at hd
          | some e =>
            have he := hc.1 e (by simp [hm])
            simp [hm] at hd
            show a < d.1
            rw [← hd]; exact he

/-- A write inside a storage keeps every listed index inside it. -/
theorem Memory.within_write {cap : Nat} {m : Memory} (h : Memory.within cap m) {i : Nat} (hi : i < cap) (v : Byte) :
    Memory.within cap (Memory.write m i v) := by
  induction m with
  | nil => simpa [Memory.write, Memory.within] using hi
  | cons c m ih =>
    obtain ⟨a, w⟩ := c
    have ha : a < cap := h (a, w) (by simp)
    have hm : Memory.within cap m := fun d hd => h d (by simp [hd])
    simp only [Memory.write]
    split
    · intro d hd
      simp only [List.mem_cons] at hd
      rcases hd with rfl | rfl | hd
      · exact hi
      · exact ha
      · exact hm d hd
    · split
      · intro d hd
        simp only [List.mem_cons] at hd
        rcases hd with rfl | hd
        · exact hi
        · exact hm d hd
      · intro d hd
        simp only [List.mem_cons] at hd
        rcases hd with rfl | hd
        · exact ha
        · exact ih hm d hd

/-! ### One byte -/

theorem storageRead_ok {cap : Nat} {m : Memory} {i : Nat} {b : Byte} (hi : i < cap) (h : m.read i = some b) :
    storageRead cap m i = .ok b := by simp [storageRead, hi, h]

theorem storageWrite_ok {cap i : Nat} (m : Memory) (v : Byte) (hi : i < cap) :
    storageWrite cap m i v = .ok (m.write i v) := by simp [storageWrite, hi]

/-! ### Runs -/

/-- A run of bytes that are written and inside the storage reads as they are. -/
theorem readRun_ok {cap : Nat} {m : Memory} {bs : Bytes} {i : Nat} (hcap : i + bs.length ≤ cap)
    (h : ∀ k, k < bs.length → m.read (i + k) = bs[k]?) : readRun cap m i bs.length = .ok bs := by
  induction bs generalizing i with
  | nil => rfl
  | cons b bs ih =>
    simp only [List.length_cons] at hcap h ⊢
    have h0 : m.read i = some b := by simpa using h 0 (by omega)
    have hrest : readRun cap m (i + 1) bs.length = .ok bs := by
      refine ih (by omega) (fun k hk => ?_)
      have := h (k + 1) (by omega)
      simpa [Nat.add_assoc, Nat.add_comm 1 k] using this
    simp [readRun, storageRead_ok (by omega : i < cap) h0, hrest]

/-- What `writeRun` does: it completes inside the storage, the bytes stand where they were written, every other index reads
as before, and the form of the storage is kept. -/
theorem writeRun_spec {cap : Nat} {m : Memory} {bs : Bytes} {i : Nat} (hcap : i + bs.length ≤ cap) :
    ∃ m', writeRun cap m i bs = .ok m' ∧ (∀ k, k < bs.length → m'.read (i + k) = bs[k]?) ∧
      (∀ a, ¬ (i ≤ a ∧ a < i + bs.length) → m'.read a = m.read a) ∧
      (m.wf = true → m'.wf = true) ∧ (Memory.within cap m → Memory.within cap m') := by
  induction bs generalizing m i with
  | nil => exact ⟨m, rfl, by simp, by simp, id, id⟩
  | cons b bs ih =>
    simp only [List.length_cons] at hcap
    obtain ⟨m', he, hin, hout, hwf, hw⟩ := ih (m := m.write i b) (i := i + 1) (by omega)
    refine ⟨m', by simp [writeRun, storageWrite_ok m b (by omega : i < cap), he], ?_, ?_, ?_, ?_⟩
    · intro k hk
      cases k with
      | zero =>
        rw [Nat.add_zero, hout i (by omega)]
        simp
      | succ k =>
        have := hin k (by simpa using hk)
        simpa [Nat.add_assoc, Nat.add_comm 1 k] using this
    · intro a ha
      simp only [List.length_cons] at ha
      rw [hout a (by omega), Memory.read_write_ne _ _ (by omega)]
    · exact fun h => hwf (Memory.wf_write h i b)
    · exact fun h => hw (Memory.within_write h (by omega) b)

/-- Distinct offsets of a ring stay distinct. -/
theorem ring_ne {cap w k j : Nat} (hk : k < cap) (hj : j < cap) (h : k ≠ j) : (w + k) % cap ≠ (w + j) % cap := by
  intro he
  have h1 : Nat.ModEq cap k j := Nat.ModEq.add_left_cancel' w he
  exact h (by simpa [Nat.ModEq, Nat.mod_eq_of_lt hk, Nat.mod_eq_of_lt hj] using h1)

/-- What `writeRing` does: it completes, byte `k` stands at `(w + k) mod cap`, every other index reads as before, and the form
of the storage is kept. -/
theorem writeRing_spec {cap : Nat} {m : Memory} {bs : Bytes} {w : Nat} (hpos : 0 < cap) (hcap : bs.length ≤ cap) :
    ∃ m', writeRing cap m w bs = .ok m' ∧ (∀ k, k < bs.length → m'.read ((w + k) % cap) = bs[k]?) ∧
      (∀ a, (∀ k, k < bs.length → a ≠ (w + k) % cap) → m'.read a = m.read a) ∧
      (m.wf = true → m'.wf = true) ∧ (Memory.within cap m → Memory.within cap m') := by
  induction bs generalizing m w with
  | nil => exact ⟨m, rfl, by simp, by simp, id, id⟩
  | cons b bs ih =>
    simp only [List.length_cons] at hcap
    have hw : w % cap < cap := Nat.mod_lt _ hpos
    obtain ⟨m', he, hin, hout, hwf, hwi⟩ := ih (m := m.write (w % cap) b) (w := w + 1) (by omega)
    refine ⟨m', by simp [writeRing, storageWrite_ok m b hw, he], ?_, ?_, ?_, ?_⟩
    · intro k hk
      cases k with
      | zero =>
        rw [Nat.add_zero, hout (w % cap) (fun k hk => ?_)]
        · simp
        · have := ring_ne (w := w) (k := 0) (j := k + 1) hpos (by omega) (by omega)
          simpa [Nat.add_assoc, Nat.add_comm 1 k] using this
      | succ k =>
        have := hin k (by simpa using hk)
        simpa [Nat.add_assoc, Nat.add_comm 1 k] using this
    · intro a ha
      simp only [List.length_cons] at ha
      rw [hout a (fun k hk => ?_), Memory.read_write_ne _ _ (by simpa using ha 0 (by omega))]
      have := ha (k + 1) (by omega)
      simpa [Nat.add_assoc, Nat.add_comm 1 k] using this
    · exact fun h => hwf (Memory.wf_write h _ b)
    · exact fun h => hwi (Memory.within_write h hw b)

/-- The storages of the reset block are in canonical form. -/
theorem reset_memories_wf : State.reset.rx.mem.wf = true ∧ State.reset.tx.mem.wf = true ∧
    State.reset.framer.stg.wf = true := ⟨rfl, rfl, rfl⟩

end Sys2Proof.Machine
end

