-- ==== Sys2Proof/Laws/Codec.lean ====
section
/-! SUPPORT. What a CRC fold does to a concatenation, and one inversion lemma per verdict of DECODE (42_packet_codec R142). -/

namespace Sys2Proof.Machine

/-! ### CRC -/

theorem crcFold_append (poly c : U16) (xs ys : Bytes) : crcFold poly c (xs ++ ys) = crcFold poly (crcFold poly c xs) ys := by
  induction xs generalizing c with
  | nil => rfl
  | cons x xs ih => exact ih _

/-- With the parameters of 00_scope R8 the checksum is the plain fold of 41_crc16 R131. -/
theorem crc16_xmodem (bs : Bytes) : crc16 CrcParams.xmodem bs = crcFold 0x1021 0 bs := by
  simp [crc16, CrcParams.xmodem]

/-! ### Headers -/

/-- The two forms of a header (30_encoding R82, R84). -/
theorem headerOf_cases {win : Bytes} {h : Header} (hh : headerOf win = some h) :
    (byteAt win 0 = startShort ∧ h = ⟨2, (byteAt win 1).toNat, (byteAt win 1).toNat + 5⟩) ∨
    (byteAt win 0 = startLong ∧
      h = ⟨3, (be16 (byteAt win 1) (byteAt win 2)).toNat, (be16 (byteAt win 1) (byteAt win 2)).toNat + 6⟩) := by
  unfold headerOf at hh
  split at hh
  · exact .inl ⟨‹_›, (Option.some.inj hh).symm⟩
  · split at hh
    · exact .inr ⟨‹_›, (Option.some.inj hh).symm⟩
    · cases hh

/-- `hdr + len = size - 3` in both forms (30_encoding R84). -/
theorem headerOf_size {win : Bytes} {h : Header} (hh : headerOf win = some h) : h.size = h.hdr + h.len + 3 := by
  rcases headerOf_cases hh with ⟨_, rfl⟩ | ⟨_, rfl⟩ <;> simp <;> omega

/-! ### Verdicts -/

/-- The conditions under which lines 1 to 6 of DECODE pass. -/
theorem checkWindow_ok {c : Config} {win : Bytes} {h : Header} (hc : checkWindow c win = .ok h) :
    minPacket ≤ win.length ∧ headerOf win = some h ∧ ¬ (h.len = 0 ∧ c.zeroLen = .reject) ∧ h.size ≤ c.stgCap ∧
      h.size ≤ win.length ∧ byteAt win (h.size - 1) = endMark := by
  unfold checkWindow at hc
  split at hc
  · cases hc
  · rename_i h1
    split at hc
    · cases hc
    · rename_i h' hh
      split at hc
      · cases hc
      · rename_i h2
        split at hc
        · cases hc
        · rename_i h3
          split at hc
          · cases hc
          · rename_i h4
            split at hc
            · cases hc
            · rename_i h5
              cases hc
              exact ⟨by omega, hh, h2, by omega, by omega, by simpa using h5⟩

/-- The converse. -/
theorem checkWindow_intro {c : Config} {win : Bytes} {h : Header} (h1 : minPacket ≤ win.length)
    (h2 : headerOf win = some h) (h3 : ¬ (h.len = 0 ∧ c.zeroLen = .reject)) (h4 : h.size ≤ c.stgCap)
    (h5 : h.size ≤ win.length) (h6 : byteAt win (h.size - 1) = endMark) : checkWindow c win = .ok h := by
  simp [checkWindow, Nat.not_lt.2 h1, h2, h3, Nat.not_lt.2 h4, Nat.not_lt.2 h5, h6]

/-- The two ways DECODE asks for more bytes: lines 1 and 5. -/
theorem checkWindow_needMore {c : Config} {win : Bytes} (hc : checkWindow c win = .error .needMore) :
    win.length < minPacket ∨ ∃ h, headerOf win = some h ∧ h.size ≤ c.stgCap ∧ win.length < h.size := by
  unfold checkWindow at hc
  split at hc
  · exact .inl ‹_›
  · split at hc
    · simp at hc
    · rename_i h' hh
      split at hc
      · simp at hc
      · split at hc
        · simp at hc
        · rename_i h3
          split at hc
          · exact .inr ⟨h', hh, by omega, ‹_›⟩
          · split at hc
            · simp at hc
            · cases hc

/-- Lines 1 to 6 never decide `ok`. -/
theorem checkWindow_error_ne_ok {c : Config} {win : Bytes} {hdr len size : Nat} :
    checkWindow c win ≠ .error (.ok hdr len size) := by
  intro hc
  unfold checkWindow at hc
  split at hc
  · simp at hc
  · split at hc
    · simp at hc
    · split at hc
      · simp at hc
      · split at hc
        · simp at hc
        · split at hc
          · simp at hc
          · split at hc <;> simp at hc

/-- Nor do they decide `BAD_CRC`. -/
theorem checkWindow_error_ne_badCrc {c : Config} {win : Bytes} : checkWindow c win ≠ .error (.reject .badCrc) := by
  intro hc
  unfold checkWindow at hc
  split at hc
  · simp at hc
  · split at hc
    · simp at hc
    · split at hc
      · simp at hc
      · split at hc
        · simp at hc
        · split at hc
          · simp at hc
          · split at hc <;> simp at hc

/-- A window that decodes: its packet lies inside the window and the staging capacity (30_encoding R84). -/
theorem decodeWindow_ok {c : Config} {win : Bytes} {hdr len size : Nat} (hd : decodeWindow c win = .ok hdr len size) :
    checkWindow c win = .ok ⟨hdr, len, size⟩ ∧
      crc16 c.crc (payloadOf win ⟨hdr, len, size⟩) = crcFieldOf win ⟨hdr, len, size⟩ := by
  unfold decodeWindow at hd
  split at hd
  · rename_i v hv
    rw [hd] at hv
    exact absurd hv checkWindow_error_ne_ok
  · rename_i h hh
    split at hd
    · cases hd
    · rename_i hcrc
      cases hd
      exact ⟨hh, by simpa using hcrc⟩

theorem decodeWindow_needMore {c : Config} {win : Bytes} (hd : decodeWindow c win = .needMore) :
    checkWindow c win = .error .needMore := by
  unfold decodeWindow at hd
  split at hd
  · rename_i v hv; rw [hd] at hv; exact hv
  · split at hd <;> cases hd

/-- DECODE asks for more only of a window with room left in a staging buffer of at least six bytes (43_stream_framer R170). -/
theorem needMore_room {c : Config} {win : Bytes} (hS : 6 ≤ c.stgCap) (hd : decodeWindow c win = .needMore) :
    win.length < c.stgCap := by
  rcases checkWindow_needMore (decodeWindow_needMore hd) with h | ⟨h, _, h1, h2⟩
  · simp only [minPacket] at h; omega
  · omega

/-! ### The accumulator (log 5) -/

/-- What DECODE leaves in the accumulator: the CRC of line 7, if it gets there and the serial form is built. -/
theorem State.noteDecode_crcAcc (s : State) (win : Bytes) :
    (s.noteDecode win).crcAcc =
      if s.cfg.crcSerial then (computedCrc s.cfg win).getLast?.getD s.crcAcc else s.crcAcc := by
  unfold State.noteDecode computedCrc decodeWindow
  cases hc : checkWindow s.cfg win with
  | ok h =>
    obtain ⟨_, hh, _⟩ := checkWindow_ok hc
    by_cases hcrc : crc16 s.cfg.crc (payloadOf win h) = crcFieldOf win h <;>
      cases hs : s.cfg.crcSerial <;> simp [hcrc, hh, hs, State.noteCrc]
  | error v =>
    have hv : v ≠ .reject .badCrc := fun he => checkWindow_error_ne_badCrc (he ▸ hc)
    cases v with
    | needMore => simp
    | ok hdr len size => exact absurd hc checkWindow_error_ne_ok
    | reject r => cases r <;> simp_all

end Sys2Proof.Machine
end

