-- ==== Sys2Proof/Laws/Fifo.lean ====
section
/-! SUPPORT. One specification per FIFO operation: when it completes, what the instance holds after it, and that it keeps the
invariant (10_state R23, 40_fifo R110 to R117). -/

namespace Sys2Proof.Machine

variable {cap : Nat} {f : Fifo}

theorem Fifo.cap_pos (h : f.ok cap) : 0 < cap := Nat.lt_of_le_of_lt (Nat.zero_le _) h.1

/-- Every good instance has contents. -/
theorem Fifo.ok_holds (h : f.ok cap) : ∃ bs, f.holds cap bs ∧ bs.length ≤ cap - 1 := by
  obtain ⟨_, hlen, _, _, hw⟩ := h
  refine ⟨(List.range f.length).map (fun k => (f.mem.read ((f.start + k) % cap)).getD 0), ⟨by simp, fun k hk => ?_⟩, by simpa⟩
  have hk' : k < f.length := by simpa using hk
  obtain ⟨b, hb⟩ := Option.isSome_iff_exists.1 (hw k hk')
  simp [hk', hb]

/-- A good instance holds one byte string only. -/
theorem Fifo.holds_unique {as bs : Bytes} (ha : f.holds cap as) (hb : f.holds cap bs) : as = bs := by
  have hl : as.length = bs.length := ha.1.symm.trans hb.1
  refine List.ext_getElem? (fun k => ?_)
  by_cases hk : k < as.length
  · rw [← ha.2 k hk, ← hb.2 k (hl ▸ hk)]
  · rw [List.getElem?_eq_none (by omega), List.getElem?_eq_none (by omega)]

/-! ### FIFO_RESET -/

theorem Fifo.ok_clear (h : f.ok cap) : f.clear.ok cap :=
  ⟨Fifo.cap_pos h, Nat.zero_le _, h.2.2.1, h.2.2.2.1, fun k hk => absurd hk (Nat.not_lt_zero k)⟩

theorem Fifo.holds_clear : f.clear.holds cap [] := ⟨rfl, fun k hk => absurd hk (Nat.not_lt_zero k)⟩

/-! ### PUSH -/

theorem fifoPush_full (b : Byte) (h : f.length = cap - 1) : fifoPush cap f b = .ok (f.clear, true) := by
  simp [fifoPush, Fifo.isFull, h]

theorem fifoPush_room (b : Byte) (hcap : 0 < cap) (h : f.length ≠ cap - 1) :
    fifoPush cap f b =
      .ok ({ f with mem := f.mem.write ((f.start + f.length) % cap) b, length := f.length + 1 }, false) := by
  simp [fifoPush, Fifo.isFull, h, storageWrite_ok f.mem b (Nat.mod_lt _ hcap)]

theorem Fifo.holds_push {bs : Bytes} (b : Byte) (h : f.holds cap bs) (hlen : bs.length < cap - 1) :
    Fifo.holds cap { f with mem := f.mem.write ((f.start + f.length) % cap) b, length := f.length + 1 } (bs ++ [b]) := by
  refine ⟨by simp [h.1], fun k hk => ?_⟩
  simp only [List.length_append, List.length_singleton] at hk
  show (Memory.write _ _ _).read _ = _
  by_cases he : k = bs.length
  · subst he; simp [h.1]
  · rw [Memory.read_write_ne _ _ (ring_ne (by omega) (by rw [h.1]; omega) (by rw [h.1]; exact he)),
      h.2 k (by omega), List.getElem?_append_left (by omega)]

/-- PUSH on a good instance completes and keeps it good. -/
theorem fifoPush_ok (b : Byte) (h : f.ok cap) : ∃ f' ov, fifoPush cap f b = .ok (f', ov) ∧ f'.ok cap := by
  by_cases hfull : f.length = cap - 1
  · exact ⟨_, _, fifoPush_full b hfull, Fifo.ok_clear h⟩
  · refine ⟨_, _, fifoPush_room b (Fifo.cap_pos h) hfull, ?_⟩
    obtain ⟨hs, hlen, hwf, hwi, hw⟩ := h
    refine ⟨hs, by show f.length + 1 ≤ _; omega, Memory.wf_write hwf _ b,
      Memory.within_write hwi (Nat.mod_lt _ (by omega)) b, fun k hk => ?_⟩
    have hk' : k < f.length + 1 := hk
    show (Memory.read (Memory.write _ _ _) _).isSome = true
    by_cases he : k = f.length
    · subst he; simp
    · rw [Memory.read_write_ne _ _ (ring_ne (by omega) (by omega) he)]
      exact hw k (by omega)

/-! ### STORE -/

theorem fifoStore_overflow {data : Bytes} (h : f.freeSpace cap < data.length) :
    fifoStore cap f data = .ok (f.clear, true) := by
  simp [fifoStore, h]

/-- STORE of bytes that fit writes each at its place in the ring and nothing else. -/
theorem fifoStore_room {data : Bytes} (hcap : 0 < cap) (h : data.length ≤ f.freeSpace cap) :
    ∃ m, fifoStore cap f data = .ok ({ f with mem := m, length := f.length + data.length }, false) ∧
      (∀ k, k < data.length → m.read ((f.start + f.length + k) % cap) = data[k]?) ∧
      (∀ a, (∀ k, k < data.length → a ≠ (f.start + f.length + k) % cap) → m.read a = f.mem.read a) ∧
      (f.mem.wf = true → m.wf = true) ∧ (Memory.within cap f.mem → Memory.within cap m) := by
  have hle : data.length ≤ cap := by simp only [Fifo.freeSpace] at h; omega
  obtain ⟨m, he, hrest⟩ := writeRing_spec (m := f.mem) (w := f.start + f.length) hcap hle
  exact ⟨m, by simp [fifoStore, Nat.not_lt.2 h, he], hrest⟩

theorem Fifo.holds_store {m : Memory} {bs data : Bytes} (h : f.holds cap bs) (hlen : bs.length + data.length < cap)
    (hin : ∀ k, k < data.length → m.read ((f.start + f.length + k) % cap) = data[k]?)
    (hout : ∀ a, (∀ k, k < data.length → a ≠ (f.start + f.length + k) % cap) → m.read a = f.mem.read a) :
    Fifo.holds cap { f with mem := m, length := f.length + data.length } (bs ++ data) := by
  refine ⟨by simp [h.1], fun k hk => ?_⟩
  simp only [List.length_append] at hk
  show m.read ((f.start + k) % cap) = _
  by_cases hb : k < bs.length
  · rw [hout _ (fun j hj => ?_), h.2 k hb, List.getElem?_append_left hb]
    have hl := h.1
    have := ring_ne (cap := cap) (w := f.start) (k := k) (j := f.length + j) (by omega) (by omega) (by omega)
    simpa [Nat.add_assoc] using this
  · have := hin (k - bs.length) (by omega)
    rw [Nat.add_assoc, h.1, Nat.add_sub_cancel' (by omega : bs.length ≤ k)] at this
    rw [this, List.getElem?_append_right (by omega)]

/-- STORE on a good instance completes and keeps it good. -/
theorem fifoStore_ok (data : Bytes) (h : f.ok cap) : ∃ f' ov, fifoStore cap f data = .ok (f', ov) ∧ f'.ok cap := by
  by_cases hov : f.freeSpace cap < data.length
  · exact ⟨_, _, fifoStore_overflow hov, Fifo.ok_clear h⟩
  · obtain ⟨m, he, hin, hout, hwf, hwi⟩ := fifoStore_room (Fifo.cap_pos h) (Nat.not_lt.1 hov)
    obtain ⟨bs, hb, hlen⟩ := Fifo.ok_holds h
    have hfit : bs.length + data.length < cap := by
      have := Fifo.cap_pos h; have := hb.1; simp only [Fifo.freeSpace] at hov; omega
    have hh := Fifo.holds_store hb hfit hin hout
    refine ⟨_, _, he, h.1, ?_, hwf h.2.2.1, hwi h.2.2.2.1, fun k hk => ?_⟩
    · have := hb.1; show f.length + data.length ≤ _; omega
    · have hk' : k < (bs ++ data).length := by rw [← hh.1]; exact hk
      rw [hh.2 k hk']
      simp [List.getElem?_eq_getElem hk']

/-! ### POP -/

theorem fifoPop_empty (h : f.length = 0) : fifoPop cap f = .ok (false, popEmptyData, f) := by
  simp [fifoPop, Fifo.isEmpty, h]

theorem fifoPop_cons {b : Byte} {bs : Bytes} (hs : f.start < cap) (h : f.holds cap (b :: bs)) :
    fifoPop cap f = .ok (true, b, { f with start := (f.start + 1) % cap, length := f.length - 1 }) := by
  have hne : f.length ≠ 0 := by rw [h.1]; simp
  have hr : f.mem.read f.start = some b := by simpa [Nat.mod_eq_of_lt hs] using h.2 0 (by simp)
  simp [fifoPop, Fifo.isEmpty, hne, storageRead_ok hs hr]

theorem Fifo.holds_pop {b : Byte} {bs : Bytes} (h : f.holds cap (b :: bs)) :
    Fifo.holds cap { f with start := (f.start + 1) % cap, length := f.length - 1 } bs := by
  refine ⟨by simp [h.1], fun k hk => ?_⟩
  have := h.2 (k + 1) (by simpa using hk)
  show f.mem.read (((f.start + 1) % cap + k) % cap) = _
  rw [Nat.mod_add_mod, Nat.add_assoc, Nat.add_comm 1 k, this]
  simp

/-- POP on a good instance that is not empty returns a byte and keeps it good. -/
theorem fifoPop_ok (h : f.ok cap) (hne : f.length ≠ 0) :
    ∃ b f', fifoPop cap f = .ok (true, b, f') ∧ f'.ok cap ∧ f'.length = f.length - 1 := by
  obtain ⟨bs, hb, _⟩ := Fifo.ok_holds h
  cases bs with
  | nil => exact absurd hb.1 hne
  | cons b bs =>
    have hp := Fifo.holds_pop hb
    refine ⟨b, _, fifoPop_cons h.1 hb, ⟨Nat.mod_lt _ (Fifo.cap_pos h), ?_, h.2.2.1, h.2.2.2.1, fun k hk => ?_⟩, rfl⟩
    · have := h.2.1; show f.length - 1 ≤ _; omega
    · have hk' : k < bs.length := by rw [← hp.1]; exact hk
      rw [hp.2 k hk']
      simp [List.getElem?_eq_getElem hk']

/-! ### The operations on a state -/

theorem State.inv_fifo {s : State} (h : s.inv) (i : Inst) : (s.fifo i).ok (s.cap i) := by
  cases i
  · exact h.2.1
  · exact h.2.2.1

/-- Replacing an instance by a good one keeps the invariant. -/
theorem State.inv_setFifo {s : State} (h : s.inv) {i : Inst} {g : Fifo} (hg : g.ok (s.cap i)) : (s.setFifo i g).inv := by
  cases i
  · exact ⟨h.1, hg, h.2.2⟩
  · exact ⟨h.1, h.2.1, hg, h.2.2.2⟩

/-- The invariant reads four fields. -/
theorem State.inv_congr {s t : State} (h : s.inv) (hc : t.cfg = s.cfg) (hr : t.rx = s.rx) (ht : t.tx = s.tx)
    (hf : t.framer = s.framer) : t.inv := by
  simpa only [State.inv, hc, hr, ht, hf] using h

/-- PUSH on an instance completes, keeps the invariant, and touches that instance and the error history only. -/
theorem pushInst_spec {s : State} (h : s.inv) (i : Inst) (b : Byte) :
    ∃ f ov, pushInst i b s = .ok ((s.setFifo i f).noteOverflow ov) ∧ f.ok (s.cap i) ∧
      fifoPush (s.cap i) (s.fifo i) b = .ok (f, ov) := by
  obtain ⟨f, ov, he, hf⟩ := fifoPush_ok b (State.inv_fifo h i)
  exact ⟨f, ov, by simp [pushInst, he], hf, he⟩

/-- STORE on an instance completes, keeps the invariant, and touches that instance and the error history only. -/
theorem storeInst_spec {s : State} (h : s.inv) (i : Inst) (data : Bytes) :
    ∃ f ov, storeInst i data s = .ok ((s.setFifo i f).noteOverflow ov) ∧ f.ok (s.cap i) ∧
      fifoStore (s.cap i) (s.fifo i) data = .ok (f, ov) := by
  obtain ⟨f, ov, he, hf⟩ := fifoStore_ok data (State.inv_fifo h i)
  exact ⟨f, ov, by simp [storeInst, he], hf, he⟩

/-- POP on an empty instance records E7 and answers the sentinel. -/
theorem popInst_empty {s : State} {i : Inst} (h : (s.fifo i).length = 0) :
    popInst i s = .ok ((s.recordError .e7).setResult (.popped false popEmptyData)) := by
  simp [popInst, fifoPop_empty h]

/-- POP on an instance that is not empty. -/
theorem popInst_cons {s : State} {i : Inst} {b : Byte} {f : Fifo} (h : fifoPop (s.cap i) (s.fifo i) = .ok (true, b, f)) :
    popInst i s = .ok (((s.setFifo i f).notePop i b).setResult (.popped true b)) := by
  simp [popInst, h]

end Sys2Proof.Machine
end

