-- ==== Sys2Proof/Laws/Framer.lean ====
section
/-! SUPPORT. One specification per operation of the framer: what the staging buffer holds after it, what it delivers, and
what it leaves alone (20_memory R61, 43_stream_framer R161 to R168). -/

namespace Sys2Proof.Machine

/-! ### Contents of the staging buffer -/

/-- The staging buffer is well kept and holds `win`, which fits: the state inside a FEED (10_state R30). -/
structure Framer.fits (cap : Nat) (f : Framer) (win : Bytes) : Prop where
  holds  : f.holds win
  wf     : f.stg.wf = true
  within : Memory.within cap f.stg
  room   : win.length ≤ cap

theorem Framer.n_of_holds {f : Framer} {win : Bytes} (h : f.holds win) : f.n = win.length := by
  simp only [Framer.n, h.1]; omega

/-- A good framer fits some contents with room for one more byte. -/
theorem Framer.fits_of_ok {cap : Nat} {f : Framer} (h : f.ok cap) : ∃ win, f.fits cap win ∧ win.length < cap := by
  obtain ⟨h1, h2, hwf, hwi, hw⟩ := h
  have hn : (f.n : Int) = f.lastValidIndex + 1 := by simp only [Framer.n]; omega
  refine ⟨(List.range f.n).map (fun k => (f.stg.read k).getD 0), ⟨⟨by simp; omega, fun k hk => ?_⟩, hwf, hwi, by simp; omega⟩,
    by simp; omega⟩
  have hk' : k < f.n := by simpa using hk
  obtain ⟨b, hb⟩ := Option.isSome_iff_exists.1 (hw k hk')
  simp [hk', hb]

/-- The converse. -/
theorem Framer.ok_of_fits {cap : Nat} {f : Framer} {win : Bytes} (h : f.fits cap win) (hlt : win.length < cap) :
    f.ok cap := by
  have h1 := h.holds.1
  refine ⟨by omega, by omega, h.wf, h.within, fun k hk => ?_⟩
  have hk' : k < win.length := by rw [← Framer.n_of_holds h.holds]; exact hk
  rw [h.holds.2 k hk']
  simp [List.getElem?_eq_getElem hk']

/-- The window of DECODE is the contents of the staging buffer. -/
theorem Framer.readRun_fits {cap : Nat} {f : Framer} {win : Bytes} (h : f.fits cap win) :
    readRun cap f.stg 0 f.n = .ok win := by
  rw [Framer.n_of_holds h.holds]
  exact readRun_ok (by have := h.room; omega) (fun k hk => by simpa using h.holds.2 k hk)

/-- Discarding everything leaves an empty buffer. -/
theorem Framer.fits_discard {cap : Nat} {f : Framer} {win : Bytes} (h : f.fits cap win) :
    Framer.fits cap { f with lastValidIndex := -1 } [] :=
  ⟨⟨rfl, fun k hk => absurd hk (Nat.not_lt_zero k)⟩, h.wf, h.within, Nat.zero_le _⟩

/-! ### What the framer's operations may touch -/

/-- The framer's work leaves the rest of the block alone and only adds to the history. -/
structure FramerFrame (s t : State) : Prop where
  cfg       : t.cfg = s.cfg
  rx        : t.rx = s.rx
  tx        : t.tx = s.tx
  txLine    : t.txLine = s.txLine
  result    : t.result = s.result
  agent     : t.agent = s.agent
  pending   : t.pending = s.pending
  delivered : s.delivered <+: t.delivered
  errors    : s.errors <+: t.errors

theorem FramerFrame.refl (s : State) : FramerFrame s s :=
  ⟨rfl, rfl, rfl, rfl, rfl, rfl, rfl, List.prefix_refl _, List.prefix_refl _⟩

theorem FramerFrame.trans {s t u : State} (h : FramerFrame s t) (k : FramerFrame t u) : FramerFrame s u :=
  ⟨k.cfg.trans h.cfg, k.rx.trans h.rx, k.tx.trans h.tx, k.txLine.trans h.txLine, k.result.trans h.result,
    k.agent.trans h.agent, k.pending.trans h.pending, h.delivered.trans k.delivered, h.errors.trans k.errors⟩

theorem FramerFrame.noteDecode (s : State) (win : Bytes) : FramerFrame s (s.noteDecode win) := by
  constructor <;> simp

theorem FramerFrame.recordError (s : State) (e : ErrorCode) : FramerFrame s (s.recordError e) := by
  constructor <;> simp

theorem FramerFrame.deliver (s : State) (p : Bytes) : FramerFrame s (s.deliver p) := by
  constructor <;> simp

theorem FramerFrame.setStg (s : State) (m : Memory) : FramerFrame s (s.setStg m) := by
  constructor <;> simp

theorem FramerFrame.setLastValidIndex (s : State) (i : Int) : FramerFrame s (s.setLastValidIndex i) := by
  constructor <;> simp

/-! ### The shift -/

/-- Removing a prefix of `k` bytes leaves the rest (20_memory R61). -/
theorem shiftLeft_spec {s : State} {win : Bytes} {k : Nat} (h : s.framer.fits s.cfg.stgCap win) (hk : k ≤ win.length) :
    ∃ m, shiftLeft k win s = .ok ((s.setStg m).setLastValidIndex (s.framer.lastValidIndex - k)) ∧
      Framer.fits s.cfg.stgCap ⟨m, s.framer.lastValidIndex - k⟩ (win.drop k) := by
  have hroom := h.room
  obtain ⟨m, he, hin, _, hwf, hwi⟩ := writeRun_spec (cap := s.cfg.stgCap) (m := s.framer.stg) (bs := win.drop k) (i := 0)
    (by simp only [List.length_drop]; omega)
  refine ⟨m, by simp [shiftLeft, he], ⟨⟨?_, fun j hj => ?_⟩, hwf h.wf, hwi h.within, by simp only [List.length_drop]; omega⟩⟩
  · have := h.holds.1; simp only [List.length_drop]; omega
  · simpa using hin j hj

/-! ### The decode pass -/

/-- Every candidate lies inside the scanned bytes. -/
theorem firstCandidate_lt {bs : Bytes} {j : Nat} (h : firstCandidate bs = some j) : j < bs.length := by
  induction bs generalizing j with
  | nil => cases h
  | cons b bs ih =>
    simp only [firstCandidate] at h
    split at h
    · cases h; simp
    · cases hf : firstCandidate bs with
      | none => simp [hf] at h
      | some i =>
        simp [hf] at h
        have := ih hf
        simp only [List.length_cons]; omega

/-- A resync point lies in `1 .. n-1` (43_stream_framer R165). -/
theorem resyncPoint_bounds {win : Bytes} {j : Nat} (h : resyncPoint win = some j) : 1 ≤ j ∧ j < win.length := by
  obtain ⟨i, hf, rfl⟩ := Option.map_eq_some_iff.1 h
  have := firstCandidate_lt hf
  simp only [List.length_drop] at this
  omega

/-- The bytes from the first candidate on. -/
theorem dropWhile_candidate (bs : Bytes) : bs.dropWhile (fun b => b ≠ startShort ∧ b ≠ startLong) =
    (match firstCandidate bs with | some i => bs.drop i | none => []) := by
  induction bs with
  | nil => rfl
  | cons b bs ih =>
    by_cases hc : b = startShort ∨ b = startLong
    · have : isCandidate b = true := by simpa [isCandidate] using hc
      simp only [firstCandidate, this, if_true, List.drop_zero]
      rcases hc with rfl | rfl <;> simp
    · simp only [not_or] at hc
      have : isCandidate b = false := by simp [isCandidate, hc.1, hc.2]
      simp only [List.dropWhile_cons, hc.1, hc.2, not_false_eq_true, and_self, decide_true, if_true, ih, ne_eq, firstCandidate,
        this, Bool.false_eq_true, if_false]
      cases firstCandidate bs <;> simp

/-- What is left after a resync, as the index scan of `resyncPoint` has it and as a byte string. -/
theorem afterResync_eq (win : Bytes) :
    afterResync win = (match resyncPoint win with | some j => win.drop j | none => []) := by
  rw [afterResync, dropWhile_candidate, resyncPoint]
  cases firstCandidate (win.drop 1) <;> simp

/-- A resync leaves the bytes from the next candidate on, or none, and touches nothing outside the framer. -/
theorem resync_spec {s : State} {win : Bytes} (h : s.framer.fits s.cfg.stgCap win) (hne : win ≠ []) :
    ∃ t, resync win s = .ok t ∧ FramerFrame s t ∧ t.framer.fits s.cfg.stgCap (afterResync win) ∧
      (afterResync win).length < win.length ∧ t.delivered = s.delivered ∧ t.errors = s.errors ∧ t.crcAcc = s.crcAcc := by
  rw [afterResync_eq]
  cases hr : resyncPoint win with
  | none =>
    exact ⟨discardAll s, by simp [resync, hr], FramerFrame.setLastValidIndex s _, Framer.fits_discard h,
      List.length_pos_iff.2 hne, rfl, rfl, rfl⟩
  | some j =>
    obtain ⟨h1, h2⟩ := resyncPoint_bounds hr
    obtain ⟨m, he, hf⟩ := shiftLeft_spec h (by omega : j ≤ win.length)
    refine ⟨(s.setStg m).setLastValidIndex (s.framer.lastValidIndex - j), by simp [resync, hr, he], ?_, hf,
      by simp only [List.length_drop]; omega, rfl, rfl, rfl⟩
    exact (FramerFrame.setStg s m).trans (FramerFrame.setLastValidIndex _ _)

/-- What a trip that goes on leaves buffered, delivers and records, by the verdict (43_stream_framer R164 to R166,
60_exceptions R200). -/
def tripEffect (s t : State) (win left : Bytes) : Verdict → Prop
  | .needMore => False
  | .ok hdr len size =>
    left = win.drop size ∧ t.delivered = s.delivered ++ [slice win hdr (hdr + len)] ∧ t.errors = s.errors
  | .reject r =>
    left = (if r = .oversize ∧ s.cfg.oversize = .discardAll then [] else afterResync win) ∧
      t.delivered = s.delivered ∧ t.errors = s.errors ++ [errorOfReject r]

/-- What one trip round the loop does on a buffer that is not empty: it returns, and then the window has room, or it goes on
with a strictly shorter window (43_stream_framer R163, R167). -/
theorem passTrip_spec {s : State} {win : Bytes} (h : s.framer.fits s.cfg.stgCap win) (hne : win ≠ []) :
    (passTrip win s = .ok none ∧ decodeWindow s.cfg win = .needMore) ∨
    ∃ t left, passTrip win s = .ok (some t) ∧ FramerFrame s t ∧ t.framer.fits s.cfg.stgCap left ∧
      left.length < win.length ∧ t.crcAcc = (s.noteDecode win).crcAcc ∧
      tripEffect s t win left (decodeWindow s.cfg win) := by
  cases hd : decodeWindow s.cfg win with
  | needMore => exact .inl ⟨by simp [passTrip, hd], rfl⟩
  | ok hdr len size =>
    right
    obtain ⟨hc, _⟩ := decodeWindow_ok hd
    obtain ⟨_, hh, _, _, hsz, _⟩ := checkWindow_ok hc
    have hs := headerOf_size hh
    simp only at hs hsz
    obtain ⟨m, he, hf⟩ := shiftLeft_spec (s := (s.noteDecode win).deliver (slice win hdr (hdr + len))) (k := size)
      (by simpa using h) hsz
    refine ⟨(((s.noteDecode win).deliver (slice win hdr (hdr + len))).setStg m).setLastValidIndex
      (((s.noteDecode win).deliver (slice win hdr (hdr + len))).framer.lastValidIndex - size), win.drop size,
      by simp only [passTrip, hd, consume, he, exceptMap_ok], ?_, by simpa using hf,
      by simp only [List.length_drop]; omega, by simp, by simp [tripEffect]⟩
    exact ((FramerFrame.noteDecode s win).trans (FramerFrame.deliver _ _)).trans
      ((FramerFrame.setStg _ m).trans (FramerFrame.setLastValidIndex _ _))
  | reject r =>
    right
    have hfr := (FramerFrame.noteDecode s win).trans (FramerFrame.recordError (s.noteDecode win) (errorOfReject r))
    by_cases hp : r = .oversize ∧ s.cfg.oversize = .discardAll
    · refine ⟨discardAll ((s.noteDecode win).recordError (errorOfReject r)), [], by simp [passTrip, hd, react, hp], ?_, ?_,
        List.length_pos_iff.2 hne, by simp [discardAll], by simp [tripEffect, hp, discardAll]⟩
      · exact hfr.trans (FramerFrame.setLastValidIndex _ (-1))
      · simpa using Framer.fits_discard h
    · obtain ⟨t, he, hft, hfit, hlt, hdel, herr, hcrc⟩ := resync_spec
        (s := (s.noteDecode win).recordError (errorOfReject r)) (by simpa using h) hne
      exact ⟨t, afterResync win, by simp [passTrip, hd, react, hp, he], hfr.trans hft, by simpa using hfit, hlt,
        by simpa using hcrc, by simp [tripEffect, hp, hdel, herr]⟩

/-- The loop on a buffer that fits, with trips enough: it completes, leaves room for one more byte, and touches nothing
outside the framer and the history (43_stream_framer R163, R167, R170). -/
theorem passLoop_spec {k : Nat} {s : State} {win : Bytes} (hS : 6 ≤ s.cfg.stgCap)
    (h : s.framer.fits s.cfg.stgCap win) (hk : win.length < k) :
    ∃ t, passLoop k s = .ok t ∧ FramerFrame s t ∧ t.framer.ok s.cfg.stgCap := by
  induction k generalizing s win with
  | zero => omega
  | succ k ih =>
    have hn := Framer.n_of_holds h.holds
    by_cases he : win = []
    · subst he
      exact ⟨s, by simp [passLoop, hn], FramerFrame.refl s, Framer.ok_of_fits h (by simp; omega)⟩
    · have hn0 : s.framer.n ≠ 0 := by rw [hn]; exact fun hl => he (List.eq_nil_of_length_eq_zero hl)
      rcases passTrip_spec h he with ⟨ht, hd⟩ | ⟨t, left, ht, hft, hfit, hlt, _, _⟩
      · refine ⟨s, by simp [passLoop, hn0, Framer.readRun_fits h, ht], FramerFrame.refl s, ?_⟩
        exact Framer.ok_of_fits h (needMore_room hS hd)
      · obtain ⟨u, hu, hfu, hok⟩ := ih (s := t) (win := left) (by rw [hft.cfg]; exact hS)
          (by rw [hft.cfg]; exact hfit) (by omega)
        rw [hft.cfg] at hok
        exact ⟨u, by simp [passLoop, hn0, Framer.readRun_fits h, ht, hu], hft.trans hfu, hok⟩

/-! ### FEED -/

/-- An append to a buffer with room (43_stream_framer R161, R162). -/
theorem appendByte_spec {s : State} {win : Bytes} (b : Byte) (h : s.framer.fits s.cfg.stgCap win)
    (hlt : win.length < s.cfg.stgCap) :
    ∃ t, appendByte b s = .ok t ∧ FramerFrame s t ∧ t.framer.fits s.cfg.stgCap (win ++ [b]) ∧
      t.delivered = s.delivered ∧ t.errors = s.errors ∧ t.crcAcc = s.crcAcc := by
  have hn := Framer.n_of_holds h.holds
  have hlt' : s.framer.n < s.cfg.stgCap := by rw [hn]; exact hlt
  refine ⟨(s.setStg (s.framer.stg.write s.framer.n b)).setLastValidIndex (s.framer.lastValidIndex + 1),
    by simp only [appendByte, hlt', if_true],
    (FramerFrame.setStg s _).trans (FramerFrame.setLastValidIndex _ _), ⟨⟨?_, fun k hk => ?_⟩, ?_, ?_, ?_⟩, rfl, rfl, rfl⟩
  · have := h.holds.1
    simp only [State.setLastValidIndex_framer, List.length_append, List.length_singleton]; push_cast; omega
  · simp only [List.length_append, List.length_singleton] at hk
    show (Memory.write _ _ _).read k = _
    by_cases he : k = win.length
    · subst he; simp [hn]
    · rw [Memory.read_write_ne _ _ (by rw [hn]; exact he), h.holds.2 k (by omega), List.getElem?_append_left (by omega)]
  · exact Memory.wf_write h.wf _ b
  · exact Memory.within_write h.within hlt' b
  · simp only [List.length_append, List.length_singleton]; omega

/-- FEED on a good framer completes, keeps it good, and touches nothing outside the framer and the history. -/
theorem feedByte_spec {s : State} (hS : 6 ≤ s.cfg.stgCap) (h : s.framer.ok s.cfg.stgCap) (b : Byte) :
    ∃ t, feedByte b s = .ok t ∧ FramerFrame s t ∧ t.framer.ok s.cfg.stgCap := by
  by_cases hd : s.framer.seeking ∧ ¬ isCandidate b
  · exact ⟨s, by simp only [feedByte, if_pos hd], FramerFrame.refl s, h⟩
  · obtain ⟨win, hfit, hlt⟩ := Framer.fits_of_ok h
    obtain ⟨t, ht, hft, hfit', _⟩ := appendByte_spec b hfit hlt
    obtain ⟨u, hu, hfu, hok⟩ := passLoop_spec (k := t.framer.n + 1) (s := t) (win := win ++ [b])
      (by rw [hft.cfg]; exact hS) (by rw [hft.cfg]; exact hfit') (by rw [Framer.n_of_holds hfit'.holds]; omega)
    rw [hft.cfg] at hok
    exact ⟨u, by simp only [feedByte, if_neg hd, ht, decodePass, hu], hft.trans hfu, hok⟩

/-! ### The framer agent -/

/-- A framer step is enabled: it takes one byte out of `RX_FIFO` and feeds it (44_boundary R191). -/
theorem framerStep_spec {s : State} (h : s.inv) (hne : s.rx.length ≠ 0) :
    ∃ b f t, fifoPop s.cfg.cRx s.rx = .ok (true, b, f) ∧ framerStep s = .ok t ∧ FramerFrame (s.setFifo .rx f) t ∧
      t.inv ∧ t.rx.length = s.rx.length - 1 := by
  obtain ⟨b, f, hp, hf, hl⟩ := fifoPop_ok h.2.1 hne
  have hi : (s.setFifo .rx f).inv := State.inv_setFifo (i := .rx) h hf
  obtain ⟨t, ht, hft, hok⟩ := feedByte_spec (s := s.setFifo .rx f) hi.1.2.2 hi.2.2.2 b
  refine ⟨b, f, t, hp, by simp only [framerStep, hp, ht], hft, ?_, by rw [hft.rx]; exact hl⟩
  refine ⟨by rw [hft.cfg]; exact hi.1, ?_, ?_, ?_⟩
  · rw [hft.cfg, hft.rx]; exact hi.2.1
  · rw [hft.cfg, hft.tx]; exact hi.2.2.1
  · rw [hft.cfg]; exact hok

/-- What a run of framer steps leaves alone. -/
structure AgentFrame (s t : State) : Prop where
  cfg       : t.cfg = s.cfg
  tx        : t.tx = s.tx
  txLine    : t.txLine = s.txLine
  result    : t.result = s.result
  agent     : t.agent = s.agent
  pending   : t.pending = s.pending
  delivered : s.delivered <+: t.delivered
  errors    : s.errors <+: t.errors

theorem AgentFrame.refl (s : State) : AgentFrame s s :=
  ⟨rfl, rfl, rfl, rfl, rfl, rfl, List.prefix_refl _, List.prefix_refl _⟩

theorem AgentFrame.trans {s t u : State} (h : AgentFrame s t) (k : AgentFrame t u) : AgentFrame s u :=
  ⟨k.cfg.trans h.cfg, k.tx.trans h.tx, k.txLine.trans h.txLine, k.result.trans h.result, k.agent.trans h.agent,
    k.pending.trans h.pending, h.delivered.trans k.delivered, h.errors.trans k.errors⟩

/-- Changing `RX_FIFO` and then working in the framer. -/
theorem AgentFrame.of_framer {s t : State} {f : Fifo} (h : FramerFrame (s.setFifo .rx f) t) : AgentFrame s t :=
  ⟨h.cfg, h.tx, h.txLine, h.result, h.agent, h.pending, h.delivered, h.errors⟩

/-- A run of `k` framer steps from a state that meets the invariant. -/
theorem framerSteps_spec {k : Nat} {s : State} (h : s.inv) :
    ∃ t, framerSteps k s = .ok t ∧ AgentFrame s t ∧ t.inv ∧ t.rx.length = s.rx.length - k := by
  induction k generalizing s with
  | zero => exact ⟨s, rfl, AgentFrame.refl s, h, rfl⟩
  | succ k ih =>
    by_cases hne : s.rx.length = 0
    · obtain ⟨t, ht, hf, hi, hl⟩ := ih h
      exact ⟨t, by simp [framerSteps, framerStep, fifoPop_empty hne, ht], hf, hi, by omega⟩
    · obtain ⟨b, f, u, _, hu, hfu, hiu, hlu⟩ := framerStep_spec h hne
      obtain ⟨t, ht, hf, hi, hl⟩ := ih hiu
      exact ⟨t, by simp [framerSteps, hu, ht], (AgentFrame.of_framer hfu).trans hf, hi, by omega⟩

end Sys2Proof.Machine
end

