-- ==== Sys2Proof/Laws/Boundary.lean ====
section
/-! SUPPORT. One specification per operation at the boundary, and which request the block serves (44_boundary R190 to R194,
00_scope R12, 20_memory R60). -/

namespace Sys2Proof.Machine

/-! ### Receive side -/

/-- A framer step, enabled or not, from a state that meets the invariant. -/
theorem framerStep_total {s : State} (h : s.inv) :
    ∃ t, framerStep s = .ok t ∧ AgentFrame s t ∧ t.inv ∧ t.rx.length = s.rx.length - 1 := by
  by_cases hne : s.rx.length = 0
  · exact ⟨s, by simp [framerStep, fifoPop_empty hne], AgentFrame.refl s, h, by omega⟩
  · obtain ⟨b, f, t, _, ht, hft, hi, hl⟩ := framerStep_spec h hne
    exact ⟨t, ht, AgentFrame.of_framer hft, hi, hl⟩

/-- A push touches one instance and the error history. -/
theorem State.inv_noteOverflow {s : State} (h : s.inv) (ov : Bool) : (s.noteOverflow ov).inv :=
  State.inv_congr h (by simp) (by simp) (by simp) (by simp)

/-- A byte that arrives (44_boundary R190, R191). -/
theorem receiveByte_spec {s : State} (h : s.inv) (b : Byte) :
    ∃ t, receiveByte b s = .ok t ∧ AgentFrame s t ∧ t.inv := by
  obtain ⟨f, ov, he, hf, _⟩ := pushInst_spec h .rx b
  have hi : ((s.setFifo .rx f).noteOverflow ov).inv := State.inv_noteOverflow (State.inv_setFifo (i := .rx) h hf) ov
  obtain ⟨t, ht, hft, hit, _⟩ := framerStep_total hi
  refine ⟨t, by simp [receiveByte, he, ht], AgentFrame.trans ?_ hft, hit⟩
  constructor <;> simp
  split <;> simp

/-- A byte string that arrives. -/
theorem receiveBytes_spec {bs : Bytes} {s : State} (h : s.inv) :
    ∃ t, receiveBytes bs s = .ok t ∧ AgentFrame s t ∧ t.inv := by
  induction bs generalizing s with
  | nil => exact ⟨s, rfl, AgentFrame.refl s, h⟩
  | cons b bs ih =>
    obtain ⟨u, hu, hfu, hiu⟩ := receiveByte_spec h b
    obtain ⟨t, ht, hft, hit⟩ := ih hiu
    exact ⟨t, by simp [receiveBytes, hu, ht], hfu.trans hft, hit⟩

/-- Bytes that arrive in two pieces. -/
theorem receiveBytes_append (as bs : Bytes) (s : State) :
    receiveBytes (as ++ bs) s = (receiveBytes as s).bind (receiveBytes bs) := by
  induction as generalizing s with
  | nil => rfl
  | cons a as ih =>
    simp only [List.cons_append, receiveBytes]
    cases receiveByte a s with
    | error e => rfl
    | ok t => exact ih t

/-! ### Transmit side -/

/-- The three outcomes of WRITE (44_boundary R193; log 23). -/
theorem execWrite_cases (frame : Bytes) (s : State) :
    (s.cfg.cTx - 1 < frame.length ∧ execWrite frame s = .refused .frameTooLong) ∨
    (writeHolds frame s = true ∧ execWrite frame s = .next (s.setResult .held)) ∨
    (countMax < frame.length ∧ frame.length ≤ s.tx.freeSpace s.cfg.cTx ∧ execWrite frame s = .refused .badCount) ∨
    (frame.length ≤ countMax ∧ frame.length ≤ s.tx.freeSpace s.cfg.cTx ∧
      execWrite frame s = ofExcept ((storeInst .tx frame s).map (·.setResult .none))) := by
  unfold execWrite
  split
  · exact .inl ⟨‹_›, rfl⟩
  · rename_i h1
    split
    · exact .inr (.inl ⟨‹_›, rfl⟩)
    · rename_i h2
      have h3 : frame.length ≤ s.tx.freeSpace s.cfg.cTx := by
        simp [writeHolds] at h2; exact h2 (by omega)
      split
      · exact .inr (.inr (.inl ⟨‹_›, h3, rfl⟩))
      · exact .inr (.inr (.inr ⟨by omega, h3, rfl⟩))

/-- POP, empty or not, keeps the invariant and touches one instance, the transmit line, the error history and the result. -/
theorem popInst_spec {s : State} (h : s.inv) (i : Inst) :
    ∃ t, popInst i s = .ok t ∧ t.inv ∧ t.cfg = s.cfg ∧ t.pending = s.pending ∧ t.agent = s.agent ∧
      t.framer = s.framer ∧ t.crcAcc = s.crcAcc ∧ t.delivered = s.delivered ∧ t.fifo (other i) = s.fifo (other i) ∧
      (t.fifo i).length = (s.fifo i).length - 1 := by
  by_cases hne : (s.fifo i).length = 0
  · refine ⟨_, popInst_empty hne, State.inv_congr h rfl rfl rfl rfl, rfl, rfl, rfl, rfl, rfl, rfl, ?_, ?_⟩
    · cases i <;> rfl
    · show (State.fifo _ i).length = _
      cases i <;> simp_all [State.fifo]
  · obtain ⟨b, f, hp, hf, hl⟩ := fifoPop_ok (State.inv_fifo h i) hne
    have hi := State.inv_setFifo h hf
    refine ⟨_, popInst_cons hp, State.inv_congr hi (by simp) (by simp) (by simp) (by simp), by simp, by simp, by simp,
      by simp, by simp, by simp, ?_, ?_⟩
    · cases i <;> simp [State.fifo, other]
    · cases i <;> simp [State.fifo] <;> exact hl

/-! ### Which request is served -/

/-- The head of the list is served when it is enabled. -/
theorem pick_head {s : State} {e : Event} {es : List Event} (h : e.enabled s = true) : pick s [] (e :: es) = some (e, es) := by
  simp [pick, h]

/-- The event served is enabled, its agent has none waiting before it, and the others keep their order. -/
theorem pick_spec {s : State} {w : List Agent} {es rest : List Event} {e : Event} (h : pick s w es = some (e, rest)) :
    ∃ before after, es = before ++ e :: after ∧ rest = before ++ after ∧ e.enabled s = true ∧ e.agent ∉ w ∧
      ∀ d ∈ before, d.agent ≠ e.agent := by
  induction es generalizing w rest with
  | nil => cases h
  | cons d es ih =>
    simp only [pick] at h
    split at h
    · split at h
      · cases h
      · rename_i e' rest' hp
        cases h
        obtain ⟨before, after, rfl, rfl, hen, hw, hb⟩ := ih hp
        refine ⟨d :: before, after, rfl, rfl, hen, fun hm => hw (List.mem_cons_of_mem _ hm), fun c hc => ?_⟩
        rcases List.mem_cons.1 hc with rfl | hc
        · exact fun heq => hw (heq ▸ List.mem_cons_self)
        · exact hb c hc
    · rename_i hcond
      cases h
      simp only [not_or, Decidable.not_not] at hcond
      exact ⟨[], es, rfl, rfl, hcond.2, hcond.1, by simp⟩

/-- When none is served every event waits: it is not enabled, or an earlier event of its agent is not. -/
theorem pick_none {s : State} {w : List Agent} {es : List Event} (h : pick s w es = none) :
    ∀ e ∈ es, e.agent ∈ w ∨ ∃ d ∈ es, d.agent = e.agent ∧ d.enabled s = false := by
  induction es generalizing w with
  | nil => simp
  | cons d es ih =>
    simp only [pick] at h
    split at h
    · rename_i hcond
      split at h
      · rename_i hp
        have hd : d.agent ∈ w ∨ d.enabled s = false := by
          rcases hcond with hm | hne
          · exact .inl hm
          · exact .inr (by simpa using hne)
        intro e he
        rcases List.mem_cons.1 he with rfl | he
        · exact hd.imp id (fun hne => ⟨e, by simp, rfl, hne⟩)
        · rcases ih hp e he with hm | ⟨c, hc, h1, h2⟩
          · rcases List.mem_cons.1 hm with heq | hm
            · rcases hd with hm' | hne
              · exact .inl (heq ▸ hm')
              · exact .inr ⟨d, by simp, heq.symm, hne⟩
            · exact .inl hm
          · exact .inr ⟨c, List.mem_cons_of_mem _ hc, h1, h2⟩
      · cases h
    · cases h

/-! ### What the requests still bring -/

theorem hostWrites_append (as bs : List Event) : hostWrites (as ++ bs) = hostWrites as ++ hostWrites bs := by
  induction as with
  | nil => rfl
  | cons e as ih =>
    cases e with
    | op a r =>
      cases a with
      | host =>
        simp only [List.cons_append, hostWrites]
        split <;> simp [ih]
      | _ => exact ih
    | _ => exact ih

theorem rxpBytes_append (as bs : List Event) : rxpBytes (as ++ bs) = rxpBytes as ++ rxpBytes bs := by
  induction as with
  | nil => rfl
  | cons e as ih =>
    cases e with
    | op a r =>
      cases a with
      | rxp =>
        simp only [List.cons_append, rxpBytes]
        split <;> simp [ih]
      | _ => exact ih
    | line bytes => simp [rxpBytes, ih]
    | _ => exact ih

/-- Bytes that are put back on the line are still to come. -/
theorem rxpBytes_putBack (rest : Bytes) (es : List Event) : rxpBytes (putBack rest es) = rest ++ rxpBytes es := by
  cases rest <;> simp [putBack, rxpBytes]

end Sys2Proof.Machine
end

