-- ==== Sys2Proof/Laws/Frames.lean ====
section
/-! SUPPORT. What each shared operation leaves alone whenever it answers a state, with no assumption on the state it starts
from: the inversion lemmas from which the frame of every instruction and of a step follows. -/

namespace Sys2Proof.Machine

/-! ### The framer -/

theorem shiftLeft_frame {k : Nat} {win : Bytes} {s t : State} (h : shiftLeft k win s = .ok t) :
    FramerFrame s t ∧ t.delivered = s.delivered ∧ t.errors = s.errors ∧ t.crcAcc = s.crcAcc := by
  unfold shiftLeft at h
  split at h
  · cases h
  · rename_i m _
    cases h
    exact ⟨(FramerFrame.setStg s m).trans (FramerFrame.setLastValidIndex _ _), rfl, rfl, rfl⟩

theorem consume_frame {hdr len size : Nat} {win : Bytes} {s t : State} (h : consume hdr len size win s = .ok t) :
    FramerFrame s t ∧ t.delivered = s.delivered ++ [slice win hdr (hdr + len)] ∧ t.errors = s.errors := by
  obtain ⟨hf, hd, he, _⟩ := shiftLeft_frame h
  exact ⟨(FramerFrame.deliver s _).trans hf, hd, he⟩

theorem resync_frame {win : Bytes} {s t : State} (h : resync win s = .ok t) :
    FramerFrame s t ∧ t.delivered = s.delivered ∧ t.errors = s.errors ∧ t.crcAcc = s.crcAcc := by
  unfold resync at h
  split at h
  · exact shiftLeft_frame h
  · cases h; exact ⟨FramerFrame.setLastValidIndex s _, rfl, rfl, rfl⟩

theorem react_frame {r : RejectReason} {win : Bytes} {s t : State} (h : react r win s = .ok t) :
    FramerFrame s t ∧ t.delivered = s.delivered ∧ t.errors = s.errors ∧ t.crcAcc = s.crcAcc := by
  unfold react at h
  split at h
  · cases h; exact ⟨FramerFrame.setLastValidIndex s _, rfl, rfl, rfl⟩
  · exact resync_frame h

/-- A computation followed by a function of its answer. -/
theorem exceptMap_eq_ok {α β : Type} {g : α → β} {x : Except Fault α} {b : β} (h : x.map g = .ok b) :
    ∃ a, x = .ok a ∧ g a = b := by
  cases x with
  | error e => cases h
  | ok a => exact ⟨a, rfl, by cases h; rfl⟩

/-- A trip that goes on either delivered the packet at the front or recorded one error (43_stream_framer R163). -/
theorem passTrip_frame {win : Bytes} {s t : State} (h : passTrip win s = .ok (some t)) :
    FramerFrame s t ∧
    ((∃ hdr len size, decodeWindow s.cfg win = .ok hdr len size ∧
        t.delivered = s.delivered ++ [slice win hdr (hdr + len)] ∧ t.errors = s.errors) ∨
     (∃ r, decodeWindow s.cfg win = .reject r ∧ t.delivered = s.delivered ∧
        t.errors = s.errors ++ [errorOfReject r])) := by
  unfold passTrip at h
  split at h
  · cases h
  · rename_i hdr len size hd
    obtain ⟨u, hu, heq⟩ := exceptMap_eq_ok h
    cases heq
    obtain ⟨hf, h1, h2⟩ := consume_frame hu
    exact ⟨(FramerFrame.noteDecode s win).trans hf, .inl ⟨hdr, len, size, hd, by simpa using h1, by simpa using h2⟩⟩
  · rename_i r hd
    obtain ⟨u, hu, heq⟩ := exceptMap_eq_ok h
    cases heq
    obtain ⟨hf, h1, h2, _⟩ := react_frame hu
    exact ⟨((FramerFrame.noteDecode s win).trans (FramerFrame.recordError _ _)).trans hf,
      .inr ⟨r, hd, by simpa using h1, by simpa using h2⟩⟩

/-- Error codes of rejected windows: the ones the framer records (60_exceptions R200). -/
theorem errorOfReject_mem (r : RejectReason) : errorOfReject r ∈ [ErrorCode.e1, .e2, .e3, .e4, .e5] := by
  cases r <;> decide

/-- The errors of `t` are those of `s` and then some of the codes `codes`. -/
def addsErrors (codes : List ErrorCode) (s t : State) : Prop := ∃ es, t.errors = s.errors ++ es ∧ ∀ e ∈ es, e ∈ codes

theorem addsErrors.of_eq {codes : List ErrorCode} {s t : State} (h : t.errors = s.errors) : addsErrors codes s t :=
  ⟨[], by simp [h], by simp⟩

theorem addsErrors.trans {codes : List ErrorCode} {s t u : State} (h : addsErrors codes s t) (k : addsErrors codes t u) :
    addsErrors codes s u := by
  obtain ⟨es, he, hm⟩ := h
  obtain ⟨fs, hf, hn⟩ := k
  refine ⟨es ++ fs, by rw [hf, he, List.append_assoc], fun e hmem => ?_⟩
  rcases List.mem_append.1 hmem with h | h
  · exact hm e h
  · exact hn e h

theorem addsErrors.mono {codes codes' : List ErrorCode} {s t : State} (hsub : ∀ e ∈ codes, e ∈ codes')
    (h : addsErrors codes s t) : addsErrors codes' s t := by
  obtain ⟨es, he, hm⟩ := h
  exact ⟨es, he, fun e hmem => hsub e (hm e hmem)⟩

/-- The codes the framer records. -/
abbrev framerCodes : List ErrorCode := [.e1, .e2, .e3, .e4, .e5]

theorem passLoop_frame {k : Nat} {s t : State} (h : passLoop k s = .ok t) :
    FramerFrame s t ∧ addsErrors framerCodes s t := by
  induction k generalizing s with
  | zero => cases h; exact ⟨FramerFrame.refl _, addsErrors.of_eq rfl⟩
  | succ k ih =>
    unfold passLoop at h
    split at h
    · cases h; exact ⟨FramerFrame.refl _, addsErrors.of_eq rfl⟩
    · split at h
      · cases h
      · split at h
        · cases h
        · cases h; exact ⟨FramerFrame.refl _, addsErrors.of_eq rfl⟩
        · rename_i u hu
          obtain ⟨hfu, hcase⟩ := passTrip_frame hu
          obtain ⟨hft, het⟩ := ih h
          refine ⟨hfu.trans hft, addsErrors.trans ?_ het⟩
          rcases hcase with ⟨_, _, _, _, _, he⟩ | ⟨r, _, _, he⟩
          · exact addsErrors.of_eq he
          · exact ⟨_, he, fun e hmem => by rw [List.mem_singleton.1 hmem]; exact errorOfReject_mem r⟩

theorem feedByte_frame {b : Byte} {s t : State} (h : feedByte b s = .ok t) :
    FramerFrame s t ∧ addsErrors framerCodes s t := by
  unfold feedByte at h
  split at h
  · cases h; exact ⟨FramerFrame.refl _, addsErrors.of_eq rfl⟩
  · split at h
    · cases h
    · rename_i u hu
      unfold appendByte at hu
      split at hu
      · cases hu
        obtain ⟨hf, he⟩ := passLoop_frame h
        exact ⟨((FramerFrame.setStg s _).trans (FramerFrame.setLastValidIndex _ _)).trans hf, he⟩
      · cases hu

theorem framerStep_frame {s t : State} (h : framerStep s = .ok t) : AgentFrame s t ∧ addsErrors framerCodes s t := by
  unfold framerStep at h
  split at h
  · cases h
  · cases h; exact ⟨AgentFrame.refl _, addsErrors.of_eq rfl⟩
  · obtain ⟨hf, he⟩ := feedByte_frame h
    exact ⟨AgentFrame.of_framer hf, he⟩

theorem framerSteps_frame {k : Nat} {s t : State} (h : framerSteps k s = .ok t) :
    AgentFrame s t ∧ addsErrors framerCodes s t := by
  induction k generalizing s with
  | zero => cases h; exact ⟨AgentFrame.refl _, addsErrors.of_eq rfl⟩
  | succ k ih =>
    unfold framerSteps at h
    split at h
    · cases h
    · rename_i u hu
      obtain ⟨h1, h2⟩ := framerStep_frame hu
      obtain ⟨h3, h4⟩ := ih h
      exact ⟨h1.trans h3, h2.trans h4⟩

/-! ### The FIFOs -/

/-- PUSH, STORE and POP: the rest of the block. -/
structure FifoFrame (i : Inst) (s t : State) : Prop where
  cfg       : t.cfg = s.cfg
  otherFifo : t.fifo (other i) = s.fifo (other i)
  framer    : t.framer = s.framer
  crcAcc    : t.crcAcc = s.crcAcc
  delivered : t.delivered = s.delivered
  agent     : t.agent = s.agent
  pending   : t.pending = s.pending

theorem FifoFrame.setFifo (s : State) (i : Inst) (f : Fifo) : FifoFrame i s (s.setFifo i f) := by
  constructor <;> simp

theorem FifoFrame.noteOverflow {i : Inst} {s t : State} (h : FifoFrame i s t) (ov : Bool) :
    FifoFrame i s (t.noteOverflow ov) := by
  refine ⟨by simp [h.cfg], ?_, by simp [h.framer], by simp [h.crcAcc], by simp [h.delivered], by simp [h.agent],
    by simp [h.pending]⟩
  rw [← h.otherFifo]
  cases i <;> simp [State.fifo, other]

theorem pushInst_frame {i : Inst} {b : Byte} {s t : State} (h : pushInst i b s = .ok t) :
    FifoFrame i s t ∧ t.txLine = s.txLine ∧ t.result = s.result ∧ addsErrors [.e6] s t := by
  unfold pushInst at h
  split at h
  · cases h
  · rename_i f ov _
    cases h
    refine ⟨(FifoFrame.setFifo s i f).noteOverflow ov, by simp, by simp, ?_⟩
    cases ov
    · exact addsErrors.of_eq (by simp)
    · exact ⟨[.e6], by simp, by simp⟩

theorem storeInst_frame {i : Inst} {data : Bytes} {s t : State} (h : storeInst i data s = .ok t) :
    FifoFrame i s t ∧ t.txLine = s.txLine ∧ t.result = s.result ∧ addsErrors [.e6] s t := by
  unfold storeInst at h
  split at h
  · cases h
  · rename_i f ov _
    cases h
    refine ⟨(FifoFrame.setFifo s i f).noteOverflow ov, by simp, by simp, ?_⟩
    cases ov
    · exact addsErrors.of_eq (by simp)
    · exact ⟨[.e6], by simp, by simp⟩

/-- POP answers the sentinel and records E7, or a byte, which leaves on the line when TXC popped it from `TX_FIFO`. -/
theorem popInst_frame {i : Inst} {s t : State} (h : popInst i s = .ok t) :
    FifoFrame i s t ∧
    ((t.result = .popped false popEmptyData ∧ t.fifo i = s.fifo i ∧ t.txLine = s.txLine ∧
        t.errors = s.errors ++ [.e7]) ∨
     (∃ b, t.result = .popped true b ∧ t.errors = s.errors ∧
        t.txLine = if i = .tx ∧ s.agent = .txc then s.txLine ++ [b] else s.txLine)) := by
  unfold popInst at h
  split at h
  · cases h
  · rename_i b f _
    cases h
    refine ⟨⟨by simp, ?_, by simp, by simp, by simp, by simp, by simp⟩, .inr ⟨b, by simp, by simp, by simp⟩⟩
    cases i <;> simp [State.fifo, other]
  · rename_i b f hp
    cases h
    have hb : b = popEmptyData := by
      unfold fifoPop at hp
      split at hp
      · cases hp; rfl
      · split at hp <;> cases hp
    subst hb
    refine ⟨⟨rfl, ?_, rfl, rfl, rfl, rfl, rfl⟩, .inl ⟨rfl, ?_, rfl, rfl⟩⟩ <;> cases i <;> rfl

/-! ### The line -/

/-- The codes that bytes on the line can cause. -/
abbrev lineCodes : List ErrorCode := [.e1, .e2, .e3, .e4, .e5, .e6]

theorem receiveByte_frame {b : Byte} {s t : State} (h : receiveByte b s = .ok t) :
    AgentFrame s t ∧ addsErrors lineCodes s t := by
  unfold receiveByte at h
  split at h
  · cases h
  · rename_i u hu
    obtain ⟨hf, htl, hr, he⟩ := pushInst_frame hu
    obtain ⟨hg, he'⟩ := framerStep_frame h
    have hpre : s.errors <+: u.errors := by obtain ⟨es, h1, _⟩ := he; exact ⟨es, h1.symm⟩
    refine ⟨AgentFrame.trans ⟨hf.cfg, hf.otherFifo, htl, hr, hf.agent, hf.pending, by rw [hf.delivered], hpre⟩ hg, ?_⟩
    exact (addsErrors.mono (by decide) he).trans (addsErrors.mono (by decide) he')

theorem receiveBytes_frame {bs : Bytes} {s t : State} (h : receiveBytes bs s = .ok t) :
    AgentFrame s t ∧ addsErrors lineCodes s t := by
  induction bs generalizing s with
  | nil => cases h; exact ⟨AgentFrame.refl _, addsErrors.of_eq rfl⟩
  | cons b bs ih =>
    unfold receiveBytes at h
    split at h
    · cases h
    · rename_i u hu
      obtain ⟨h1, h2⟩ := receiveByte_frame hu
      obtain ⟨h3, h4⟩ := ih h
      exact ⟨h1.trans h3, h2.trans h4⟩

end Sys2Proof.Machine
end

