-- ==== Sys2Proof/Laws/PerInstr.lean ====
section
/-! SUPPORT. Statements about every instruction as syntax, one lemma per constructor: the encoding of an instruction lies in
its row of spec/opcode_table.json. -/

namespace Sys2Proof.Laws.RowMatch

/-- The `match` and `mask` of an operation-word row of spec/opcode_table.json; `none` for the two wire rows. -/
def row : Instr → Option (Byte × Byte)
  | .reset => some (0x00, 0xFF)
  | .push _ _ => some (0x01, 0xEF)
  | .store _ _ => some (0x02, 0xEF)
  | .pop _ => some (0x03, 0xEF)
  | .length _ => some (0x04, 0xEF)
  | .freeSpace _ => some (0x05, 0xEF)
  | .fifoReset _ => some (0x06, 0xEF)
  | .crc16 _ => some (0x07, 0xFF)
  | .encode _ => some (0x08, 0xFF)
  | .decode _ => some (0x09, 0xFF)
  | .feed _ => some (0x0A, 0xFF)
  | .poll => some (0x0B, 0xFF)
  | .framerReset => some (0x0C, 0xFF)
  | .write _ => some (0x0D, 0xFF)
  | .unassignedE _ => some (0x0E, 0x0F)
  | .unassignedF _ => some (0x0F, 0x0F)
  | .frameShort _ _ => none
  | .frameLong _ _ => none

/-- An operation word matches its row; a wire packet begins with its start marker and ends with the end marker. -/
def Statement (i : Instr) : Prop :=
  match encode i, row i with
  | .op r, some (m, mask) => r.opw &&& mask = m
  | .line bytes, none =>
    (bytes.head? = some startShort ∨ bytes.head? = some startLong) ∧ bytes.getLast? = some endMark
  | _, _ => False

theorem reset : Statement .reset := by show _ = _; simp
theorem push (f : Inst) (b : Byte) : Statement (.push f b) := by cases f <;> (show _ = _; simp [fifoWord])
theorem store (f : Inst) (data : Bytes) : Statement (.store f data) := by cases f <;> (show _ = _; simp [fifoWord])
theorem pop (f : Inst) : Statement (.pop f) := by cases f <;> (show _ = _; simp [fifoWord])
theorem length (f : Inst) : Statement (.length f) := by cases f <;> (show _ = _; simp [fifoWord])
theorem freeSpace (f : Inst) : Statement (.freeSpace f) := by cases f <;> (show _ = _; simp [fifoWord])
theorem fifoReset (f : Inst) : Statement (.fifoReset f) := by cases f <;> (show _ = _; simp [fifoWord])
theorem crc16 (bytes : Bytes) : Statement (.crc16 bytes) := by show _ = _; simp
theorem encode (payload : Bytes) : Statement (.encode payload) := by show _ = _; simp
theorem decode (win : Bytes) : Statement (.decode win) := by show _ = _; simp
theorem feed (b : Byte) : Statement (.feed b) := by show _ = _; simp
theorem poll : Statement .poll := by show _ = _; simp
theorem framerReset : Statement .framerReset := by show _ = _; simp
theorem write (frame : Bytes) : Statement (.write frame) := by show _ = _; simp
theorem unassignedE (hi : BitVec 4) : Statement (.unassignedE hi) := by revert hi; show ∀ hi : BitVec 4, _ = _; decide
theorem unassignedF (hi : BitVec 4) : Statement (.unassignedF hi) := by revert hi; show ∀ hi : BitVec 4, _ = _; decide

theorem frameShort (payload : Bytes) (crc : U16) : Statement (.frameShort payload crc) := by
  refine ⟨.inl rfl, ?_⟩
  rw [shortFrame, List.getLast?_append]; rfl

theorem frameLong (payload : Bytes) (crc : U16) : Statement (.frameLong payload crc) := by
  refine ⟨.inr rfl, ?_⟩
  rw [longFrame, List.getLast?_append]; rfl

end Sys2Proof.Laws.RowMatch
end

