-- ==== Sys2Proof/Tests/Slice0.lean ====
section
/-! SUPPORT. Small tests, each on one step, with the expected values of the spec's own examples, and one witness for the
hypotheses of each obligation that has any. -/

namespace Sys2Proof.Tests

open Sys2Proof Sys2Proof.Machine

/-! ### Helpers -/

/-- The next state of an outcome. -/
def nextOf (o : Host.Outcome State Fault Refusal) : Option State :=
  match o with
  | .next t => some t
  | .fault _ => none
  | .refused _ => none

/-- The reason of a refusal. -/
def refusalOf (o : Host.Outcome State Fault Refusal) : Option Refusal :=
  match o with
  | .next _ => none
  | .fault _ => none
  | .refused r => some r

/-- `n` zero bytes. -/
def zeros (n : Nat) : Bytes := List.replicate n 0

@[simp] theorem zeros_length (n : Nat) : (zeros n).length = n := List.length_replicate

/-- One field or more of the state after one operation. -/
def after {α : Type} (i : Instr) (s : State) (f : State → α) : Option α := (nextOf (exec i s)).map f

theorem answers_of {o : Host.Outcome State Fault Refusal} (h : (nextOf o).isSome = true) : ∃ t, o = .next t := by
  cases o with
  | next t => exact ⟨t, rfl⟩
  | fault f => cases h
  | refused r => cases h

/-- A block with `C_RX = C_TX = 8`, `S = 128` after reset. -/
def block : State := State.reset

/-- A block whose `RX_FIFO` is the given one. -/
def withRx (mem : Memory) (start length : Nat) : State := { block with rx := ⟨mem, start, length⟩ }

/-- A block whose staging buffer holds the given bytes. -/
def withStg (bytes : Bytes) : State :=
  { block with framer := ⟨(List.range bytes.length).zip bytes, (bytes.length : Int) - 1⟩ }

/-- A block with `RX_FIFO` full and wrapped, one byte in `TX_FIFO`, and five staging bytes: `C_RX = C_TX = 3`, `S = 8`. -/
def busy (p : OversizePolicy) (crcSerial : Bool) : State :=
  { State.resetWith ⟨3, 3, 8, CrcParams.xmodem, .reject, p, crcSerial⟩ with
    rx := ⟨[(0, 0x22), (2, 0x11)], 2, 2⟩
    tx := ⟨[(1, 0xAA)], 1, 1⟩
    framer := ⟨[(0, 0x02), (1, 0x01), (2, 0x04), (3, 0x40), (4, 0x84)], 4⟩ }

/-- The block of most witnesses. -/
def sample : State := busy .discardAll false

/-- `sample` with the given requests. -/
def asked (es : List Event) : State := { sample with pending := es }

/-! ### WellFormed: each check refuses an ill-formed instruction -/

theorem test_store_count_too_large : Instr.wellFormed (.store .rx (zeros 65536)) = false := by
  simp [Instr.wellFormed, countMax]

theorem test_crc16_count_too_large : Instr.wellFormed (.crc16 (zeros 65536)) = false := by
  simp [Instr.wellFormed, countMax]

theorem test_encode_empty_payload : Instr.wellFormed (.encode []) = false := by decide

theorem test_encode_payload_too_long : Instr.wellFormed (.encode (zeros 65536)) = false := by
  simp [Instr.wellFormed, lMax]

theorem test_short_packet_empty : Instr.wellFormed (.frameShort [] 0) = false := by decide

theorem test_short_packet_too_long : Instr.wellFormed (.frameShort (zeros 256) 0) = false := by
  simp [Instr.wellFormed, shortMax]

theorem test_long_packet_empty : Instr.wellFormed (.frameLong [] 0) = false := by decide

theorem test_long_packet_too_long : Instr.wellFormed (.frameLong (zeros 65536) 0) = false := by
  simp [Instr.wellFormed, lMax]

/-! ### Decode: words written out from 30_encoding R90 (`opw = 000 inst op`) and 95_test_vectors part 4 -/

theorem test_decode_reset : decodeTableWord 8 0b00000000 = some .reset := by decide
theorem test_decode_push_tx : decodeTableWord 8 0b00010001 = some (.push .tx 0) := by decide
theorem test_decode_store_rx : decodeTableWord 8 0b00000010 = some (.store .rx []) := by decide
theorem test_decode_pop_tx : decodeTableWord 8 0b00010011 = some (.pop .tx) := by decide
theorem test_decode_length_rx : decodeTableWord 8 0b00000100 = some (.length .rx) := by decide
theorem test_decode_freeSpace_tx : decodeTableWord 8 0b00010101 = some (.freeSpace .tx) := by decide
theorem test_decode_fifoReset_rx : decodeTableWord 8 0b00000110 = some (.fifoReset .rx) := by decide
theorem test_decode_crc16 : decodeTableWord 8 0b00000111 = some (.crc16 []) := by decide
theorem test_decode_encode : decodeTableWord 8 0b00001000 = some (.encode []) := by decide
theorem test_decode_decode : decodeTableWord 8 0b00001001 = some (.decode []) := by decide
theorem test_decode_feed : decodeTableWord 8 0b00001010 = some (.feed 0) := by decide
theorem test_decode_poll : decodeTableWord 8 0b00001011 = some .poll := by decide
theorem test_decode_framerReset : decodeTableWord 8 0b00001100 = some .framerReset := by decide
theorem test_decode_write : decodeTableWord 8 0b00001101 = some (.write []) := by decide
theorem test_decode_unassignedE : decodeTableWord 8 0b00001110 = some (.unassignedE 0) := by decide
theorem test_decode_unassignedF : decodeTableWord 8 0b10101111 = some (.unassignedF 10) := by decide

/-- V-EN-1 of 95_test_vectors: `02 01 04 40 84 03`, the first byte in bits 7..0. -/
theorem test_decode_frameShort : decodeTableWord 48 0x038440040102 = some (.frameShort [0x04] 0x4084) := by decide

/-- V-FR-6 of 95_test_vectors: `03 00 02 AA BB E4 05 03`. -/
theorem test_decode_frameLong : decodeTableWord 64 0x0305E4BBAA020003 = some (.frameLong [0xAA, 0xBB] 0xE405) := by
  decide

/-- 30_encoding R91: `opw[7:5] != 000`, and `inst = 1` on an operation that takes no instance. -/
theorem test_decode_reserved :
    decodeOp ⟨0x20, 0, []⟩ = .error .reservedBits ∧ decodeOp ⟨0x81, 0, []⟩ = .error .reservedBits ∧
    decodeOp ⟨0x10, 0, []⟩ = .error .instOnNonFifo ∧ decodeOp ⟨0x17, 0, []⟩ = .error .instOnNonFifo := by decide

/-- 30_encoding R80, R81, R88: a packet that is none, for each reason. -/
theorem test_decode_line_rejects :
    decodeLine [0x05, 0x01] = .error .badMarker ∧ decodeLine [0x02, 0x00, 0x00, 0x00, 0x03] = .error .zeroLength ∧
    decodeLine [0x02, 0x01, 0x04, 0x40, 0x84] = .error .truncated ∧
    decodeLine [0x02, 0x01, 0x04, 0x40, 0x84, 0x13] = .error .badEnd := by decide

/-! ### FIFO: the examples of 40_fifo (C = 8) -/

/-- R110: from `start=5, length=3`. -/
theorem test_fifoReset : after (.fifoReset .rx) (withRx [(5, 1), (6, 2), (7, 3)] 5 3) (fun t => (t.rx.start, t.rx.length)) =
    some (0, 0) := by decide

/-- R111: from `start=6, length=2, contents=[11 22]`, `PUSH RX, 0x33` writes `mem[0]`. -/
theorem test_push_wraps : after (.push .rx 0x33) (withRx [(6, 0x11), (7, 0x22)] 6 2)
    (fun t => (t.rx.start, t.rx.length, t.rx.mem.read 0)) = some (6, 3, some 0x33) := by decide

/-- R111: from `length=7`, `PUSH RX, 0x99`. -/
theorem test_push_overflows : after (.push .rx 0x99)
    (withRx [(0, 1), (1, 2), (2, 3), (3, 4), (4, 5), (5, 6), (6, 7)] 0 7) (fun t => (t.rx.start, t.rx.length, t.rx.mem.read 7)) =
    some (0, 0, none) := by decide

/-- R112: from `start=5, length=1`, `STORE RX, [A1 A2 A3 A4]` writes the indices 6, 7, 0, 1. -/
theorem test_store_two_runs : after (.store .rx [0xA1, 0xA2, 0xA3, 0xA4]) (withRx [(5, 0x10)] 5 1)
    (fun t => (t.rx.start, t.rx.length, t.rx.mem)) =
    some (5, 5, [(0, 0xA3), (1, 0xA4), (5, 0x10), (6, 0xA1), (7, 0xA2)]) := by decide

/-- R112: from `start=5, length=5` (freeSpace 2), `STORE RX, [01 02 03]`. -/
theorem test_store_overflows : after (.store .rx [1, 2, 3])
    (withRx [(0, 1), (1, 2), (5, 3), (6, 4), (7, 5)] 5 5) (fun t => (t.rx.start, t.rx.length)) = some (0, 0) := by decide

/-- R113: from `start=7, length=2, contents=[5A 6B]`, `POP RX -> (1, 0x5A)`. -/
theorem test_pop_wraps : after (.pop .rx) (withRx [(0, 0x6B), (7, 0x5A)] 7 2)
    (fun t => (t.result, t.rx.start, t.rx.length)) = some (.popped true 0x5A, 0, 1) := by decide

/-- R113: on empty, `POP RX -> (0, 0xFF)`. -/
theorem test_pop_empty : after (.pop .rx) block (fun t => (t.result, t.rx)) = some (.popped false 0xFF, block.rx) := by
  decide

/-- R114: after R111's first example, `LENGTH RX -> 3`. -/
theorem test_length : after (.length .rx) (withRx [(0, 0x33), (6, 0x11), (7, 0x22)] 6 3) State.result = some (.count 3) := by
  decide

/-- R115: on an empty instance `FREESPACE RX -> 7`. -/
theorem test_freeSpace_empty : after (.freeSpace .rx) block State.result = some (.count 7) := by decide

/-- R115: on a full instance `FREESPACE RX -> 0`. -/
theorem test_freeSpace_full : after (.freeSpace .rx)
    (withRx [(0, 1), (1, 2), (2, 3), (3, 4), (4, 5), (5, 6), (6, 7)] 0 7) State.result = some (.count 0) := by decide

/-! ### CRC and codec: 41_crc16 R130, 42_packet_codec R140, R142 -/

/-- R130: `CRC16 [04] -> 0x4084`. -/
theorem test_crc16_one_byte : after (.crc16 [0x04]) block State.result = some (.crc 0x4084) := by decide

set_option maxRecDepth 4000 in
/-- R130: `CRC16 "123456789" -> 0x31C3`. -/
theorem test_crc16_check_value : after (.crc16 [0x31, 0x32, 0x33, 0x34, 0x35, 0x36, 0x37, 0x38, 0x39]) block State.result =
    some (.crc 0x31C3) := by decide

/-- R140: `ENCODE [04] -> [02 01 04 40 84 03]`. -/
theorem test_encode : after (.encode [0x04]) block State.result = some (.frame [0x02, 0x01, 0x04, 0x40, 0x84, 0x03]) := by
  decide

/-- R141. -/
theorem test_encode_refuses : refusalOf (exec (.encode []) block) = some .badLength := by decide

/-- R142: `DECODE [02 01 04 40 84 03], 6 -> ok(hdr=2, len=1, size=6)`. -/
theorem test_decode_accepts : after (.decode [0x02, 0x01, 0x04, 0x40, 0x84, 0x03]) block State.result =
    some (.verdict (.ok 2 1 6)) := by decide

/-- R142: `DECODE [02 01 04 40 85 03], 6 -> reject(BAD_CRC)`. -/
theorem test_decode_bad_crc : after (.decode [0x02, 0x01, 0x04, 0x40, 0x85, 0x03]) block State.result =
    some (.verdict (.reject .badCrc)) := by decide

/-! ### Framer: the examples of 43_stream_framer -/

/-- R160: from `n=4, stg=[02 05 AA BB]`. -/
theorem test_framerReset : after .framerReset (withStg [0x02, 0x05, 0xAA, 0xBB]) (fun t => (t.framer.n, t.framer.stg.read 3)) =
    some (0, some 0xBB) := by decide

/-- R162: `n=5, stg=[02 01 04 40 84]`; `FEED 0x03` delivers `[04]`. -/
theorem test_feed_delivers : after (.feed 0x03) (withStg [0x02, 0x01, 0x04, 0x40, 0x84])
    (fun t => (t.framer.lastValidIndex, t.result)) = some (-1, .payloads [[0x04]]) := by decide

/-- R165: `stg=[02 01 04 40 85 03]`: the scan finds `0x03` at `j=5`; `stg=[03]`, `n=1`. -/
theorem test_feed_resyncs : after (.feed 0x03) (withStg [0x02, 0x01, 0x04, 0x40, 0x85])
    (fun t => (t.framer.n, t.framer.stg.read 0, t.delivered, t.errors)) = some (1, some 0x03, [], [.e3]) := by decide

/-- R168: `RX contents=[AA 02 01 04 40 84 03]`, `n=0`: POLL delivers `[04]`. -/
theorem test_poll : after .poll
    (withRx [(0, 0xAA), (1, 0x02), (2, 0x01), (3, 0x04), (4, 0x40), (5, 0x84), (6, 0x03)] 0 7)
    (fun t => (t.rx.length, t.framer.n, t.result)) = some (0, 0, .payloads [[0x04]]) := by decide

/-! ### Boundary, reset, unassigned codes and packets on the line -/

/-- 44_boundary R193: with room, `WRITE [02 01 04 40 84 03], 6`. -/
theorem test_write : after (.write [0x02, 0x01, 0x04, 0x40, 0x84, 0x03]) block (fun t => (t.tx.length, t.tx.mem.read 5)) =
    some (6, some 0x03) := by decide

/-- 95_test_vectors P2, `C_TX = 8`: a frame of 10 bytes is refused. -/
theorem test_write_refuses : refusalOf (exec (.write [2, 5, 5, 0, 0, 3, 0xE8, 0x0A, 0x22, 3]) block) = some .frameTooLong := by
  decide

/-- 70_reset_and_hazards R220 on a live block. -/
theorem test_reset : after .reset sample (fun t => (t.rx.length, t.tx.length, t.framer.n, t.rx.start)) = some (0, 0, 0, 0) := by
  decide

/-- 30_encoding R91. -/
theorem test_unassignedE : refusalOf (exec (.unassignedE 0) sample) = some .noSuchOperation := by decide

/-- 30_encoding R91. -/
theorem test_unassignedF : refusalOf (exec (.unassignedF 15) sample) = some .noSuchOperation := by decide

/-- V-FR-1 of 95_test_vectors, the bytes arriving on the line. -/
theorem test_frameShort : after (.frameShort [0x04] 0x4084) block (fun t => (t.delivered, t.framer.n, t.rx.length)) =
    some ([[0x04]], 0, 0) := by decide

set_option maxRecDepth 4000 in
/-- V-FR-6 of 95_test_vectors, the bytes arriving on the line. -/
theorem test_frameLong : after (.frameLong [0xAA, 0xBB] 0xE405) block (fun t => (t.delivered, t.framer.n, t.rx.length)) =
    some ([[0xAA, 0xBB]], 0, 0) := by decide

/-- 44_boundary R194: TXC's step. -/
theorem test_txStep : (nextOf (step (asked [.txStep]))).map (fun t => (t.txLine, t.tx.length)) = some ([0xAA], 0) := by decide

/-- 60_exceptions R206: RXP is the producer of `RX_FIFO`, FRM its consumer, HOST and TXC those of `TX_FIFO`. -/
theorem test_roles : [0x01, 0x02, 0x03, 0x0A, 0x0B, 0x0C, 0x0D, 0x13].map roleOf =
    [.rxp, .rxp, .frm, .frm, .frm, .frm, .host, .txc] := by decide

/-- The placed word is the instruction of the next step. -/
theorem test_fetch_word : (nextOf (step (block.withFetchWord 8 0x14))).map State.result = some (.count 0) ∧
    (nextOf (step (block.withFetchWord 48 0x038440040102))).map State.delivered = some [[0x04]] := by decide

/-! ### Witnesses for the hypotheses of the obligations -/

theorem sample_inv : sample.inv := by decide

theorem sample_rx_holds : sample.rx.holds 3 [0x11, 0x22] := ⟨by decide, by decide⟩

theorem sample_tx_holds : sample.tx.holds 3 [0xAA] := ⟨by decide, by decide⟩

theorem sample_stg_holds : sample.framer.holds [0x02, 0x01, 0x04, 0x40, 0x84] := ⟨by decide, by decide⟩

theorem block_inv : block.inv := by decide

theorem witness_ReservedWordsRefused :
    ∀ w ∈ [0x0E, 0x0F, 0x20, 0x10, 0x17, 0x1D], ∃ r : OpRequest, r.opw = w ∧
      (asked [.op .host r]).pending = [.op .host r] ∧
      (14 ≤ r.opw.toNat % 16 ∨ r.opw.toNat / 32 ≠ 0 ∨
        (r.opw.toNat / 16 % 2 = 1 ∧ (r.opw.toNat % 16 = 0 ∨ 7 ≤ r.opw.toNat % 16))) := by
  intro w hw
  refine ⟨⟨w, 0, []⟩, rfl, rfl, ?_⟩
  revert w; decide

theorem witness_OtherWordsSelectOneOperation :
    ∀ w ∈ [(0x00 : Byte), 0x06, 0x07, 0x0D, 0x11, 0x16], ¬ (14 ≤ w.toNat % 16 ∨ w.toNat / 32 ≠ 0 ∨
      (w.toNat / 16 % 2 = 1 ∧ (w.toNat % 16 = 0 ∨ 7 ≤ w.toNat % 16))) := by decide

theorem witness_DecodeInvertsEncode :
    Instr.wellFormed (.store .tx (zeros 65535)) = true ∧ Instr.wellFormed (.encode [0]) = true ∧
    Instr.wellFormed (.frameShort (zeros 255) 0x0303) = true ∧
    Instr.wellFormed (.frameLong (zeros 65535) 0) = true := by
  simp [Instr.wellFormed, countMax, lMax, shortMax]

/-- A request, a packet with a byte after it, bytes that form no packet, and no bytes. -/
theorem witness_StepRunsDecodedInstruction :
    (asked [.op .txc ⟨0x13, 0, []⟩]).pending = [.op .txc ⟨0x13, 0, []⟩] ∧ decodeOp ⟨0x13, 0, []⟩ = .ok (.pop .tx) ∧
    instrHolds (.pop .tx) (asked [.op .txc ⟨0x13, 0, []⟩]) = false ∧
    (asked [.line [2, 1, 4, 0x40, 0x84, 3, 9]]).pending = [.line [2, 1, 4, 0x40, 0x84, 3, 9]] ∧
    decodeLine [2, 1, 4, 0x40, 0x84, 3, 9] = .ok (.frameShort [4] 0x4084, [9]) ∧
    (asked [.line [9, 2]]).inv ∧ (asked [.line [9, 2]]).pending = [.line (9 :: [2])] ∧
    decodeLine (9 :: [2]) = .error .badMarker ∧ (asked [.line []]).pending = [.line []] := by decide

/-- A WRITE of two bytes, which `sample` has no room for yet. -/
def waiting : Event := .op .host ⟨0x0D, 0, [1, 2]⟩

/-- A request of HOST that is enabled, behind one that waits. -/
def behind : Event := .op .host ⟨0x04, 0, []⟩

/-- HOST's first request is not enabled, its second is behind it, and TXC's step is served. -/
theorem witness_StepServesFirstEnabledRequest :
    (asked [waiting, behind, .txStep]).pending = [waiting, behind] ++ .txStep :: [] ∧
    (∀ (earlier later : List Event) (d : Event), [waiting, behind] = earlier ++ d :: later →
      d.waits (asked [waiting, behind, .txStep]) earlier) ∧
    behind.enabled (asked [waiting, behind, .txStep]) = true ∧
    ¬ Event.txStep.waits (asked [waiting, behind, .txStep]) [waiting, behind] := by
  refine ⟨rfl, fun earlier later d h => ?_, by decide, ?_⟩
  · match earlier, h with
    | [], h => cases h; exact .inl (by decide)
    | [_], h => cases h; exact .inr ⟨waiting, by simp, rfl⟩
    | [_, _], h => simp at h
    | _ :: _ :: _ :: _, h => simp at h
  · rintro (h | ⟨d, hd, h⟩)
    · exact absurd h (by decide)
    · revert d; decide

theorem witness_WaitingRequestIsKept :
    (∃ t, step (asked [waiting, behind, .txStep]) = .next t) ∧ waiting ∈ (asked [waiting, behind, .txStep]).pending ∧
    waiting.enabled (asked [waiting, behind, .txStep]) = false ∧
    (asked [waiting, behind, .txStep]).pending = [] ++ waiting :: [] ++ behind :: [.txStep] ∧
    waiting.agent = behind.agent := ⟨answers_of (by decide), by decide, by decide, rfl, rfl⟩

theorem witness_ConfigurationNeverChanges :
    (∃ t, exec .reset sample = .next t) ∧ ∃ t, step (asked [.op .host ⟨0x00, 0, []⟩]) = .next t :=
  ⟨answers_of (by decide), answers_of (by decide)⟩

theorem witness_StepKeepsInvariant :
    (asked [.framerStep]).inv ∧ ∃ t, step (asked [.framerStep]) = .next t := ⟨by decide, answers_of (by decide)⟩

theorem witness_ResetMeetsInvariant :
    Config.valid ⟨2, 2, 6, CrcParams.xmodem, .accept, .discardAll, false⟩ ∧ Config.standard.valid := by decide

theorem witness_NoStepFaults : (asked [.txStep, .framerStep, .line [2, 3]]).inv := by decide

theorem witness_EveryInstructionCompletes : sample.inv ∧ Instr.wellFormed (.write [7]) = true ∧
    (∀ hi, Instr.write [7] ≠ .unassignedE hi) ∧ (∀ hi, Instr.write [7] ≠ .unassignedF hi) ∧
    ([7] : Bytes).length ≤ 65535 ∧ ([7] : Bytes).length ≤ sample.cfg.cTx - sample.tx.length - 1 := by
  refine ⟨sample_inv, by decide, ?_, ?_, by decide, by decide⟩ <;> intro _ h <;> cases h

theorem witness_StoragesThatReadAlikeAreEqual :
    Memory.wf [(0, 0x22), (2, 0x11)] = true ∧
    ∀ i, Memory.read [(0, 0x22), (2, 0x11)] i = Memory.read [(0, 0x22), (2, 0x11)] i := ⟨by decide, fun _ => rfl⟩

theorem witness_StagingShiftIsAscendingCopy :
    sample.framer.holds [0x02, 0x01, 0x04, 0x40, 0x84] ∧ ([0x02, 0x01, 0x04, 0x40, 0x84] : Bytes).length ≤ sample.cfg.stgCap ∧
    (1 ≤ 1 ∧ 1 ≤ ([0x02, 0x01, 0x04, 0x40, 0x84] : Bytes).length) ∧
    (1 ≤ 5 ∧ 5 ≤ ([0x02, 0x01, 0x04, 0x40, 0x84] : Bytes).length) := ⟨sample_stg_holds, by decide, by decide, by decide⟩

/-- An instance that is full, and one that is not. -/
theorem witness_PushWritesOrEmpties :
    2 ≤ sample.cap .rx ∧ (sample.fifo .rx).length = sample.cap .rx - 1 ∧
    2 ≤ sample.cap .tx ∧ (sample.fifo .tx).length ≠ sample.cap .tx - 1 := by decide

/-- A count too large, one byte too many, and one that just fits. -/
theorem witness_StoreWritesOrEmpties :
    2 ≤ sample.cap .tx ∧ (sample.fifo .tx).length ≤ sample.cap .tx - 1 ∧ 65535 < (zeros 65536).length ∧
    sample.cap .tx - (sample.fifo .tx).length - 1 < ([1, 2] : Bytes).length ∧
    ([1] : Bytes).length ≤ sample.cap .tx - (sample.fifo .tx).length - 1 :=
  ⟨by decide, by decide, by simp, by decide, by decide⟩

/-- A STORE that wraps: `start + length` is 9 in a storage of 8 bytes, and one that ends at the last index. -/
theorem witness_StoreIsTwoRuns :
    2 ≤ (withRx [(0, 2), (7, 1)] 7 2).cap .rx ∧ ([1, 2, 3, 4, 5] : Bytes).length ≤ 65535 ∧
    ([1, 2, 3, 4, 5] : Bytes).length ≤ (withRx [(0, 2), (7, 1)] 7 2).cap .rx - ((withRx [(0, 2), (7, 1)] 7 2).fifo .rx).length - 1 ∧
    1 = (((withRx [(0, 2), (7, 1)] 7 2).fifo .rx).start + ((withRx [(0, 2), (7, 1)] 7 2).fifo .rx).length) %
      (withRx [(0, 2), (7, 1)] 7 2).cap .rx := by decide

theorem witness_PopReturnsOldestOrSentinel :
    (sample.fifo .rx).ok (sample.cap .rx) ∧ (sample.fifo .rx).length ≠ 0 ∧
    (block.fifo .tx).ok (block.cap .tx) ∧ (block.fifo .tx).length = 0 := by decide

theorem witness_LengthAndFreeSpaceAddUp : 2 ≤ sample.cap .rx ∧ (sample.fifo .rx).length ≤ sample.cap .rx - 1 := by decide

theorem witness_FifoIsBoundedQueue :
    sample.inv ∧ (sample.fifo .rx).holds (sample.cap .rx) [0x11, 0x22] ∧ ([1] : Bytes).length ≤ 65535 :=
  ⟨sample_inv, sample_rx_holds, by decide⟩

/-- RXP fills `RX_FIFO` by a PUSH and from the line, FRM acts by its step and by a POLL, and HOST reads a status. -/
def receiving : State :=
  { block with pending := [.op .rxp ⟨0x01, 0x02, []⟩, .framerStep, .line [0x01], .op .frm ⟨0x0B, 0, []⟩, behind] }

/-- Traffic without an overflow, on an instance and in the block. -/
theorem witness_FifoTrafficKeepsOrder :
    sample.inv ∧ (sample.fifo .rx).holds (sample.cap .rx) [0x11, 0x22] ∧
    (∀ i ∈ [Instr.pop .rx, .push .rx 0x33], isTraffic .rx i = true) ∧
    (traceAll [.pop .rx, .push .rx 0x33] sample).map (fun r => (r.1, r.2.errors.count .e6)) =
      some ([.popped true 0x11, .none], sample.errors.count .e6) ∧
    receiving.inv ∧ receiving.rx.holds receiving.cfg.cRx [] ∧
    (∀ e ∈ receiving.pending, keepsReceiveRoles e = true ∧ framerActsByStep e = true ∧ empties .rx e = false) ∧
    (nextOf (run 5 receiving)).map (fun t => t.errors.count .e6) = some (receiving.errors.count .e6) :=
  ⟨sample_inv, sample_rx_holds, by decide, by decide, by decide, ⟨by decide, by decide⟩, by decide, by decide⟩

theorem witness_ReservedSlotTellsEmptyFromFull : 2 ≤ 3 ∧ sample.rx.ok 3 := by decide

theorem witness_CoincidentPushAndPopAtTheEdges :
    sample.inv ∧ (sample.fifo .rx).length = sample.cap .rx - 1 ∧ block.inv ∧ (block.fifo .rx).length = 0 := by decide

/-- `sample` with other stale bytes and another place for the byte of `TX_FIFO`. -/
def moved : State := { sample with tx := ⟨[(0, 0xAA), (2, 0x55)], 0, 1⟩ }

theorem witness_StaleStorageIsUnobservable : sample.inv ∧ moved.inv ∧ sample.similar moved ∧
    (∃ t, exec (.pop .tx) sample = .next t) ∧ ∃ r, exec (.encode []) sample = .refused r :=
  ⟨sample_inv, by decide,
    ⟨rfl, ⟨_, sample_rx_holds, sample_rx_holds⟩, ⟨_, sample_tx_holds, ⟨by decide, by decide⟩⟩,
      ⟨_, sample_stg_holds, sample_stg_holds⟩, rfl, rfl, rfl, rfl, rfl, rfl, rfl⟩, answers_of (by decide), ⟨_, rfl⟩⟩

theorem witness_Crc16Operation :
    65535 < (zeros 65536).length ∧ ([4] : Bytes).length ≤ 65535 ∧
    sample.cfg.crc = CrcParams.xmodem ∧ ([1, 2] : Bytes).length = ([3, 4] : Bytes).length :=
  ⟨by simp, by decide, by decide, by decide⟩

/-- The lengths at the ends of the four ranges. -/
theorem witness_EncodeEmitsOneForm :
    (([] : Bytes).length = 0 ∧ 65535 < (zeros 65536).length) ∧
    (1 ≤ (zeros 255).length ∧ (zeros 255).length ≤ 255) ∧
    (256 ≤ (zeros 256).length ∧ (zeros 65535).length ≤ 65535) := by simp

/-- A window of either form. -/
theorem witness_DecodeVerdictsInOrder :
    (([0x02, 0x01, 0x04, 0x40, 0x84, 0x03] : Bytes)[0]? = some 0x02 ∧
      1 = (([0x02, 0x01, 0x04, 0x40, 0x84, 0x03] : Bytes).getD 1 0).toNat) ∧
    (([0x03, 0x01, 0x02] : Bytes)[0]? = some 0x03 ∧
      258 = (([0x03, 0x01, 0x02] : Bytes).getD 1 0).toNat * 256 + (([0x03, 0x01, 0x02] : Bytes).getD 2 0).toNat) ∧
    sample.cfg.zeroLen = .reject := by decide

theorem witness_DecodeRejectsBadMarker :
    ([0x05] : Bytes)[0]? ≠ some 0x02 ∧ ([0x05] : Bytes)[0]? ≠ some 0x03 := by decide

/-- The longest payloads that fit `S = 8`, in the short form and in the long form's bound. -/
theorem witness_PacketRoundTrip :
    1 ≤ ([1, 2, 3] : Bytes).length ∧ ([1, 2, 3] : Bytes).length ≤ 255 ∧ ([1, 2, 3] : Bytes).length + 5 ≤ sample.cfg.stgCap ∧
    ([1, 2] : Bytes).length + 6 ≤ sample.cfg.stgCap := by decide

/-- A payload byte, a CRC byte and the end marker of a valid packet. -/
theorem witness_SingleBitFlipIsRejected :
    sample.cfg.crc = CrcParams.xmodem ∧ decodeWindow sample.cfg [0x02, 0x01, 0x04, 0x40, 0x84, 0x03] = .ok 2 1 6 ∧ 7 < 8 ∧
    (2 ≤ 2 ∧ 2 < 6 - 1) ∧ (2 ≤ 4 ∧ 4 < 6 - 1) ∧ 5 = 6 - 1 := by decide

theorem witness_FeedInSeeking :
    block.cfg.valid ∧ block.framer.lastValidIndex = -1 ∧ ((0x04 : Byte) ≠ 0x02 ∧ (0x04 : Byte) ≠ 0x03) ∧
    ((0x03 : Byte) = 0x02 ∨ (0x03 : Byte) = 0x03) := by decide

theorem witness_GarbageIsAbsorbedInSeeking :
    block.framer.lastValidIndex = -1 ∧ ∀ g ∈ ([0xAA, 0x00, 0x04] : Bytes), g ≠ 0x02 ∧ g ≠ 0x03 := by decide

/-- Seven bytes of a packet of eight. -/
theorem witness_FeedInAccumulating :
    (withStg [2, 3, 2, 2, 3, 0x38]).inv ∧ ([2, 3, 2, 2, 3, 0x38] : Bytes) ≠ [] ∧
    (withStg [2, 3, 2, 2, 3, 0x38]).framer.holds [2, 3, 2, 2, 3, 0x38] ∧
    decodeWindow (withStg [2, 3, 2, 2, 3, 0x38]).cfg ([2, 3, 2, 2, 3, 0x38] ++ [0x61]) = .needMore :=
  ⟨by decide, by decide, ⟨by decide, by decide⟩, by decide⟩

theorem witness_FeedRefinesDecodePass : sample.inv ∧ sample.framer.holds [0x02, 0x01, 0x04, 0x40, 0x84] :=
  ⟨sample_inv, sample_stg_holds⟩

/-- The example of 43_stream_framer R166. -/
theorem witness_OversizeFollowsThePolicy :
    (withStg [3, 0xFF, 0xFF, 2, 1]).inv ∧ (withStg [3, 0xFF, 0xFF, 2, 1]).framer.holds [3, 0xFF, 0xFF, 2, 1] ∧
    decodeWindow (withStg [3, 0xFF, 0xFF, 2, 1]).cfg ([3, 0xFF, 0xFF, 2, 1] ++ [4]) = .reject .oversize ∧
    (withStg [3, 0xFF, 0xFF, 2, 1]).cfg.oversize = .resync ∧ ([3, 0xFF, 0xFF, 2, 1] : Bytes).length = 5 :=
  ⟨by decide, ⟨by decide, by decide⟩, by decide, by decide, by decide⟩

/-- The same buffer under `discard_all`. -/
def discarding : State :=
  let s := withStg [3, 0xFF, 0xFF, 2, 1]
  { s with cfg := { s.cfg with oversize := .discardAll } }

theorem witness_OversizeDiscards :
    discarding.inv ∧ discarding.framer.holds [3, 0xFF, 0xFF, 2, 1] ∧ discarding.cfg.oversize = .discardAll ∧
    decodeWindow discarding.cfg ([3, 0xFF, 0xFF, 2, 1] ++ [4]) = .reject .oversize :=
  ⟨by decide, ⟨by decide, by decide⟩, by decide, by decide⟩

theorem witness_DecodePassTerminates :
    sample.cfg.valid ∧ sample.framer.holds [0x02, 0x01, 0x04, 0x40, 0x84] ∧
    ([0x02, 0x01, 0x04, 0x40, 0x84] : Bytes).length ≤ sample.cfg.stgCap ∧ ([0x02, 0x01, 0x04, 0x40, 0x84] : Bytes).length < 6 :=
  ⟨by decide, sample_stg_holds, by decide, by decide⟩

/-- A packet of either form, one byte short of its end. -/
theorem witness_ValidPacketIsDeliveredOnce :
    block.inv ∧ block.framer.lastValidIndex = -1 ∧ 1 ≤ ([4] : Bytes).length ∧ ([4] : Bytes).length ≤ 255 ∧
    (shortFrame [4] (crc16 block.cfg.crc [4])).length ≤ block.cfg.stgCap ∧
    (longFrame [4] (crc16 block.cfg.crc [4])).length ≤ block.cfg.stgCap ∧
    5 < (shortFrame [4] (crc16 block.cfg.crc [4])).length := by decide

/-- A block with `S = 6`, which a short packet of one payload byte fills. -/
def smallest : State := State.resetWith ⟨2, 2, 6, CrcParams.xmodem, .reject, .resync, false⟩

theorem witness_PacketsAroundGarbageAreDelivered :
    smallest.inv ∧ smallest.framer.lastValidIndex = -1 ∧ 1 ≤ ([4] : Bytes).length ∧ ([4] : Bytes).length ≤ 255 ∧
    ([4] : Bytes).length + 5 ≤ smallest.cfg.stgCap ∧ ([4] : Bytes).length + 6 ≤ block.cfg.stgCap ∧
    ∀ g ∈ ([0x55, 0x55, 0x55] : Bytes), g ≠ 0x02 ∧ g ≠ 0x03 := by decide

/-- V-FR-3a of 95_test_vectors: the state after the bad packet, and the good packet that is lost. -/
theorem witness_DiscardAllCanStayLost :
    ({ sample with framer := ⟨[(0, 0x03)], 0⟩ } : State).inv ∧ sample.cfg.oversize = .discardAll ∧
    Framer.holds ⟨[(0, 0x03)], 0⟩ [0x03] ∧ 1 ≤ ([4] : Bytes).length ∧ ([4] : Bytes).length ≤ 255 ∧
    sample.cfg.stgCap < 518 + ([4] : Bytes).length ∧
    (∀ b ∈ ((shortFrame [4] 0x4084).drop 5).dropLast, b ≠ 0x02 ∧ b ≠ 0x03) :=
  ⟨by decide, by decide, ⟨by decide, by decide⟩, by decide, by decide, by decide, by decide⟩

theorem witness_PollFeedsEveryByte : sample.inv ∧ sample.rx.holds sample.cfg.cRx [0x11, 0x22] :=
  ⟨sample_inv, sample_rx_holds⟩

theorem witness_FramerStepIsPopThenFeed :
    (asked [.framerStep]).inv ∧ (asked [.framerStep]).pending = [.framerStep] ∧ (asked [.framerStep]).rx.length ≠ 0 := by
  decide

theorem witness_TransmitStepSendsOldestByte :
    (asked [.txStep]).inv ∧ (asked [.txStep]).pending = [.txStep] ∧
    (asked [.txStep]).tx.holds (asked [.txStep]).cfg.cTx (0xAA :: []) := ⟨by decide, by decide, sample_tx_holds⟩

/-- Three bytes never fit `C_TX = 3`, two do not fit now, one does. -/
theorem witness_WriteStoresHoldsOrRefuses :
    sample.inv ∧ sample.tx.holds sample.cfg.cTx [0xAA] ∧ sample.cfg.cTx - 1 < ([1, 2, 3] : Bytes).length ∧
    (([1, 2] : Bytes).length ≤ sample.cfg.cTx - 1 ∧ sample.cfg.cTx - ([0xAA] : Bytes).length - 1 < ([1, 2] : Bytes).length) ∧
    ([1] : Bytes).length ≤ sample.cfg.cTx - ([0xAA] : Bytes).length - 1 :=
  ⟨sample_inv, sample_tx_holds, by decide, by decide, by decide⟩

theorem witness_WriteBeyondStoreCountRefused :
    65535 < (zeros 65536).length ∧ (zeros 65536).length ≤
      (State.resetWith ⟨2, 65537, 6, CrcParams.xmodem, .reject, .resync, false⟩).cfg.cTx -
        (State.resetWith ⟨2, 65537, 6, CrcParams.xmodem, .reject, .resync, false⟩).tx.length - 1 := by
  simp [State.resetWith, Fifo.reset]

theorem witness_HeldWriteIsDoneAfterDrain :
    (asked [waiting]).inv ∧ (asked [waiting]).pending = [.op .host ⟨0x0D, 0, [1, 2]⟩] ∧
    decodeOp ⟨0x0D, 0, [1, 2]⟩ = .ok (.write [1, 2]) ∧ ([1, 2] : Bytes).length ≤ (asked [waiting]).cfg.cTx - 1 ∧
    (asked [waiting]).tx.holds (asked [waiting]).cfg.cTx [0xAA] :=
  ⟨by decide, by decide, by decide, by decide, sample_tx_holds⟩

theorem witness_QuiescentBlockDrains :
    sample.inv ∧ sample.pending = [] ∧ sample.tx.holds sample.cfg.cTx [0xAA] := ⟨sample_inv, by decide, sample_tx_holds⟩

/-- HOST writes while TXC and the line act. -/
theorem witness_TransmitLineIsWrittenFramesInOrder :
    (asked [waiting, .txStep]).inv ∧ (∀ e ∈ (asked [waiting, .txStep]).pending, keepsTransmitRoles e = true ∧ empties .tx e = false) ∧
    (asked [waiting, .txStep]).tx.holds (asked [waiting, .txStep]).cfg.cTx [0xAA] ∧
    (∃ t, run 2 (asked [waiting, .txStep]) = .next t) := ⟨by decide, by decide, sample_tx_holds, answers_of (by decide)⟩

theorem witness_PacketOnTheLineCompletes : sample.inv := sample_inv

theorem witness_ValidPacketOnTheLineIsDelivered :
    block.inv ∧ block.rx.length = 0 ∧ block.framer.lastValidIndex = -1 ∧ 1 ≤ ([4] : Bytes).length ∧
    ([4] : Bytes).length ≤ 255 ∧ ([4] : Bytes).length + 5 ≤ block.cfg.stgCap ∧ ([4] : Bytes).length + 6 ≤ block.cfg.stgCap := by
  decide

/-- Each reason of the closed list arises. -/
theorem witness_RefusalsAreTheClosedList :
    exec (.unassignedE 0) sample = .refused .noSuchOperation ∧
    exec (.crc16 (zeros 65536)) sample = .refused .badCount ∧ exec (.encode []) sample = .refused .badLength ∧
    exec (.write [1, 2, 3]) sample = .refused .frameTooLong :=
  ⟨rfl, by simp [exec, execCrc16, countMax], rfl, rfl⟩

/-- A FEED whose window is rejected, with each reason: 30_encoding R88. -/
theorem witness_rejected_windows :
    decodeWindow block.cfg [0x02, 0x01, 0x04, 0x40, 0x84, 0x13] = .reject .badTerminator ∧
    decodeWindow block.cfg [0x03, 0xFF, 0xFF, 0x02, 0x01, 0x04] = .reject .oversize ∧
    decodeWindow block.cfg [0x02, 0x01, 0x04, 0x40, 0x85, 0x03] = .reject .badCrc ∧
    decodeWindow block.cfg [0xAA, 0xAA, 0xAA, 0xAA, 0xAA, 0x02] = .reject .badMarker ∧
    decodeWindow block.cfg [0x02, 0x00, 0x00, 0x00, 0x03, 0xAA] = .reject .zeroLen ∧
    ∀ win ∈ ([[0x02, 0x01, 0x04, 0x40, 0x84], [0x03, 0xFF, 0xFF, 0x02, 0x01], [0x02, 0x01, 0x04, 0x40, 0x85],
      [0xAA, 0xAA, 0xAA, 0xAA, 0xAA], [0x02, 0x00, 0x00, 0x00, 0x03]] : List Bytes),
      (withStg win).inv ∧ (withStg win).cfg = block.cfg ∧ (withStg win).framer.lastValidIndex = (win.length : Int) - 1 ∧
      ∀ k, k < win.length → (withStg win).framer.stg.read k = win[k]? := by decide

/-- An overflow, a store that overflows, an empty POP, a step. -/
theorem witness_ErrorHistoryNamesTheConditions :
    2 ≤ sample.cap .rx ∧ (sample.fifo .rx).length = sample.cap .rx - 1 ∧ ([1, 2] : Bytes).length ≤ 65535 ∧
    sample.cap .tx - (sample.fifo .tx).length - 1 < ([1, 2] : Bytes).length ∧
    (block.fifo .rx).ok (block.cap .rx) ∧ (block.fifo .rx).length = 0 ∧
    (∃ t, step (asked [.framerStep]) = .next t) ∧ Instr.poll ≠ .reset ∧ ∃ t, exec .poll sample = .next t :=
  ⟨by decide, by decide, by decide, by decide, by decide, by decide, answers_of (by decide), by decide, answers_of (by decide)⟩

/-- Each group of operations completes. -/
theorem witness_OperationsReachOnlyTheirStorage :
    (∃ t, exec (.push .tx 1) sample = .next t) ∧ (∃ t, exec (.feed 3) sample = .next t) ∧
    (∃ t, exec (.frameShort [4] 0) sample = .next t) ∧ (∃ t, exec (.decode [2]) sample = .next t) ∧
    ∃ t, exec (.write [1]) sample = .next t :=
  ⟨answers_of (by decide), answers_of (by decide), answers_of (by decide), answers_of (by decide), answers_of (by decide)⟩

end Sys2Proof.Tests
end

section
/-! The step of the block and its instructions as a whole (00_scope R12, 20_memory R60): which request is served, what every
instruction leaves alone, and how every instruction and every step ends. -/

namespace Sys2Proof.Machine

/-! ### How an instruction can end -/

/-- An outcome that is a next state, and one that meets the invariant. -/
def Completes (o : Host.Outcome State Fault Refusal) : Prop := ∃ t, o = .next t ∧ t.inv

/-- The conditions under which an instruction may be refused (60_exceptions R208; log 23). -/
def mayRefuse (s : State) : Instr → Prop
  | .store _ data => countMax < data.length
  | .crc16 bytes => countMax < bytes.length
  | .encode payload => payload.length < 1 ∨ lMax < payload.length
  | .write frame => s.cfg.cTx - 1 < frame.length ∨ countMax < frame.length
  | .unassignedE _ => True
  | .unassignedF _ => True
  | _ => False

theorem State.inv_setResult {s : State} (h : s.inv) (r : Result) : (s.setResult r).inv := h

/-- The acting agent and the requests are no part of the invariant. -/
theorem State.inv_request {s : State} (h : s.inv) (a : Agent) (es : List Event) :
    ({ s with agent := a, pending := es } : State).inv := h

theorem completes_setResult {s : State} (h : s.inv) (r : Result) : Completes (.next (s.setResult r)) :=
  ⟨_, rfl, State.inv_setResult h r⟩

/-- A computation that meets no fault and keeps the invariant completes, whatever result its answer is given. -/
theorem completes_map_setResult {x : Except Fault State} (hx : ∃ u, x = .ok u ∧ u.inv) (r : State → Result) :
    Completes (ofExcept (x.map (fun u => u.setResult (r u)))) := by
  obtain ⟨u, rfl, hu⟩ := hx
  exact completes_setResult hu (r u)

/-! ### The shared computations keep the invariant -/

theorem pushInst_keeps_inv {s : State} (h : s.inv) (i : Inst) (b : Byte) : ∃ u, pushInst i b s = .ok u ∧ u.inv := by
  obtain ⟨f, ov, he, hf, _⟩ := pushInst_spec h i b
  exact ⟨_, he, State.inv_noteOverflow (State.inv_setFifo h hf) ov⟩

theorem storeInst_keeps_inv {s : State} (h : s.inv) (i : Inst) (data : Bytes) :
    ∃ u, storeInst i data s = .ok u ∧ u.inv := by
  obtain ⟨f, ov, he, hf, _⟩ := storeInst_spec h i data
  exact ⟨_, he, State.inv_noteOverflow (State.inv_setFifo h hf) ov⟩

theorem popInst_completes {s : State} (h : s.inv) (i : Inst) : Completes (ofExcept (popInst i s)) := by
  obtain ⟨t, ht, hi, _⟩ := popInst_spec h i
  exact ⟨t, by rw [ht, ofExcept_ok], hi⟩

theorem feedByte_keeps_inv {s : State} (h : s.inv) (b : Byte) : ∃ u, feedByte b s = .ok u ∧ u.inv := by
  obtain ⟨hvalid, hrx, htx, hfr⟩ := h
  obtain ⟨t, ht, hf, hok⟩ := feedByte_spec hvalid.2.2 hfr b
  refine ⟨t, ht, ?_⟩
  simp only [State.inv, hf.cfg, hf.rx, hf.tx]
  exact ⟨hvalid, hrx, htx, hok⟩

theorem framerSteps_keeps_inv {s : State} (h : s.inv) (k : Nat) : ∃ u, framerSteps k s = .ok u ∧ u.inv := by
  obtain ⟨t, ht, _, hi, _⟩ := framerSteps_spec (k := k) h
  exact ⟨t, ht, hi⟩

theorem framerStep_keeps_inv {s : State} (h : s.inv) : ∃ u, framerStep s = .ok u ∧ u.inv := by
  obtain ⟨t, ht, _, hi, _⟩ := framerStep_total h
  exact ⟨t, ht, hi⟩

theorem receiveByte_keeps_inv {s : State} (h : s.inv) (b : Byte) : ∃ u, receiveByte b s = .ok u ∧ u.inv := by
  obtain ⟨t, ht, _, hi⟩ := receiveByte_spec h b
  exact ⟨t, ht, hi⟩

theorem receiveBytes_keeps_inv {s : State} (h : s.inv) (bs : Bytes) : ∃ u, receiveBytes bs s = .ok u ∧ u.inv := by
  obtain ⟨t, ht, _, hi⟩ := receiveBytes_spec (bs := bs) h
  exact ⟨t, ht, hi⟩

theorem State.inv_discardAll {s : State} (h : s.inv) : (discardAll s).inv := by
  obtain ⟨hvalid, hrx, htx, hfr⟩ := h
  obtain ⟨win, hfit, _⟩ := Framer.fits_of_ok hfr
  exact ⟨hvalid, hrx, htx, Framer.ok_of_fits (Framer.fits_discard hfit) (Nat.lt_of_lt_of_le (by decide) hvalid.2.2)⟩

theorem State.inv_resetBlock {s : State} (h : s.inv) : (resetBlock s).inv := by
  obtain ⟨hvalid, hrx, htx, hfr⟩ := State.inv_discardAll h
  exact ⟨hvalid, Fifo.ok_clear hrx, Fifo.ok_clear htx, hfr⟩

theorem State.inv_noteCrc {s : State} (h : s.inv) (c : U16) : (s.noteCrc c).inv :=
  State.inv_congr h (by simp) (by simp) (by simp) (by simp)

theorem State.inv_noteDecode {s : State} (h : s.inv) (win : Bytes) : (s.noteDecode win).inv :=
  State.inv_congr h (by simp) (by simp) (by simp) (by simp)

/-! ### Every instruction completes or is refused -/

/-- From a state that meets the invariant every instruction completes and keeps it, or is refused, and then on operands for
which it may be. -/
theorem exec_completes_or_refused {s : State} (h : s.inv) (i : Instr) :
    Completes (exec i s) ∨ mayRefuse s i ∧ ∃ r, exec i s = .refused r := by
  cases i with
  | reset => exact .inl (completes_setResult (State.inv_resetBlock h) _)
  | push f b => exact .inl (completes_map_setResult (pushInst_keeps_inv h f b) _)
  | store f data =>
    by_cases hlen : countMax < data.length
    · exact .inr ⟨hlen, .badCount, if_pos hlen⟩
    · refine .inl ?_
      rw [exec, execStore, if_neg hlen]
      exact completes_map_setResult (storeInst_keeps_inv h f data) _
  | pop f => exact .inl (popInst_completes h f)
  | length f => exact .inl (completes_setResult h _)
  | freeSpace f => exact .inl (completes_setResult h _)
  | fifoReset f => exact .inl (completes_setResult (State.inv_setFifo h (Fifo.ok_clear (State.inv_fifo h f))) _)
  | crc16 bytes =>
    by_cases hlen : countMax < bytes.length
    · exact .inr ⟨hlen, .badCount, if_pos hlen⟩
    · refine .inl ?_
      rw [exec, execCrc16, if_neg hlen]
      exact completes_setResult (State.inv_noteCrc h _) _
  | encode payload =>
    by_cases hlen : payload.length < 1 ∨ lMax < payload.length
    · exact .inr ⟨hlen, .badLength, if_pos hlen⟩
    · refine .inl ?_
      rw [exec, execEncode, if_neg hlen]
      exact completes_setResult (State.inv_noteCrc h _) _
  | decode win => exact .inl (completes_setResult (State.inv_noteDecode h win) _)
  | feed b => exact .inl (completes_map_setResult (feedByte_keeps_inv h b) _)
  | poll => exact .inl (completes_map_setResult (framerSteps_keeps_inv h _) _)
  | framerReset => exact .inl (completes_setResult (State.inv_discardAll h) _)
  | write frame =>
    rw [exec]
    rcases execWrite_cases frame s with ⟨hlen, he⟩ | ⟨_, he⟩ | ⟨hlen, _, he⟩ | ⟨_, _, he⟩
    · exact .inr ⟨.inl hlen, _, he⟩
    · exact .inl (he.symm ▸ completes_setResult h _)
    · exact .inr ⟨.inr hlen, _, he⟩
    · exact .inl (he.symm ▸ completes_map_setResult (storeInst_keeps_inv h .tx frame) _)
  | unassignedE hi => exact .inr ⟨trivial, _, rfl⟩
  | unassignedF hi => exact .inr ⟨trivial, _, rfl⟩
  | frameShort payload crc => exact .inl (completes_map_setResult (receiveBytes_keeps_inv h _) _)
  | frameLong payload crc => exact .inl (completes_map_setResult (receiveBytes_keeps_inv h _) _)

/-- An outcome that is no fault: it completes or is a refusal. -/
def Answers (o : Host.Outcome State Fault Refusal) : Prop := Completes o ∨ ∃ r, o = .refused r

theorem Answers.ne_fault {o : Host.Outcome State Fault Refusal} (h : Answers o) (f : Fault) : o ≠ .fault f := by
  rcases h with ⟨t, rfl, _⟩ | ⟨r, rfl⟩ <;> exact nofun

theorem exec_answers {s : State} (h : s.inv) (i : Instr) : Answers (exec i s) :=
  (exec_completes_or_refused h i).imp id And.right

/-- Serving any event, whatever requests are left. -/
theorem serve_answers {s : State} (h : s.inv) (e : Event) (rest : List Event) : Answers (serve e rest s) := by
  cases e with
  | op a r =>
    rw [serve]
    split
    · exact exec_answers (State.inv_request h _ _) _
    · exact .inr ⟨_, rfl⟩
  | framerStep => exact .inl (completes_map_setResult (framerStep_keeps_inv (State.inv_request h _ _)) _)
  | txStep => exact .inl (popInst_completes (State.inv_request h _ _) .tx)
  | line bytes =>
    cases bytes with
    | nil => exact .inl ⟨_, rfl, State.inv_request h _ _⟩
    | cons b bs =>
      rw [serve]
      split
      · exact exec_answers (State.inv_request h _ _) _
      · exact .inl (completes_map_setResult (receiveByte_keeps_inv (State.inv_request h _ _) b) _)

/-- What a step can do: serve the event picked, or, with none to pick, leave it to FRM and TXC. -/
theorem step_cases (s : State) :
    (∃ e rest, pick s [] s.pending = some (e, rest) ∧ step s = serve e rest s) ∨
    (pick s [] s.pending = none ∧ step s = idle s) := by
  rw [step, advance]
  split
  · exact .inl ⟨_, _, ‹_›, rfl⟩
  · exact .inr ⟨‹_›, rfl⟩

/-- With no request to serve FRM or TXC takes its step, the requests as they are, or nothing changes (log 13). -/
theorem idle_cases (s : State) : (∃ e, idle s = serve e s.pending s) ∨ idle s = .next s := by
  rw [idle]
  split
  · split
    · exact .inr rfl
    · exact .inl ⟨_, rfl⟩
  · exact .inl ⟨_, rfl⟩

theorem idle_answers {s : State} (h : s.inv) : Answers (idle s) := by
  rcases idle_cases s with ⟨e, he⟩ | he <;> rw [he]
  · exact serve_answers h e s.pending
  · exact .inl ⟨s, rfl, h⟩

theorem step_answers {s : State} (h : s.inv) : Answers (step s) := by
  rcases step_cases s with ⟨e, rest, _, he⟩ | ⟨_, he⟩ <;> rw [he]
  · exact serve_answers h e rest
  · exact idle_answers h

/-! ### Which request is served -/

/-- Past requests that are not enabled, or are behind one of their own agent, the first that is neither is picked. -/
theorem pick_append {s : State} {w : List Agent} {before after : List Event} {e : Event}
    (hbefore : ∀ earlier later d, before = earlier ++ d :: later → d.agent ∈ w ∨ d.waits s earlier)
    (henabled : e.enabled s = true) (hw : e.agent ∉ w) (hagent : ∀ d ∈ before, d.agent ≠ e.agent) :
    pick s w (before ++ e :: after) = some (e, before ++ after) := by
  induction before generalizing w with
  | nil => simp [pick, hw, henabled]
  | cons d ds ih =>
    have hd : d.agent ∈ w ∨ ¬ d.enabled s := by
      rcases hbefore [] ds d rfl with hm | hoff | ⟨c, hc, _⟩
      · exact .inl hm
      · exact .inr (by simp [hoff])
      · cases hc
    have hrest : pick s (d.agent :: w) (ds ++ e :: after) = some (e, ds ++ after) := by
      refine ih (fun earlier later c hsplit => ?_) ?_ (fun c hc => hagent c (List.mem_cons_of_mem d hc))
      · rcases hbefore (d :: earlier) later c (by rw [hsplit, List.cons_append]) with hm | hoff | ⟨b, hb, heq⟩
        · exact .inl (List.mem_cons_of_mem _ hm)
        · exact .inr (.inl hoff)
        · rcases List.mem_cons.1 hb with rfl | hb
          · exact .inl (heq ▸ List.mem_cons_self)
          · exact .inr (.inr ⟨b, hb, heq⟩)
      · exact List.not_mem_cons_of_ne_of_not_mem (hagent d List.mem_cons_self).symm hw
    simp only [List.cons_append, pick, if_pos hd, hrest]

theorem step_of_pick {s : State} {e : Event} {rest : List Event} (h : pick s [] s.pending = some (e, rest)) :
    step s = serve e rest s := by
  simp only [step, advance, h]

theorem step_of_head {s : State} {e : Event} {es : List Event} (hp : s.pending = e :: es) (he : e.enabled s = true) :
    step s = serve e es s :=
  step_of_pick (hp ▸ pick_head he)

/-! ### What the requests left to an instruction become -/

theorem ofExcept_eq_next {x : Except Fault State} {t : State} (h : ofExcept x = .next t) : x = .ok t := by
  cases x with
  | error e => cases h
  | ok u => cases h; rfl

/-- A computation that keeps the control fields keeps them whatever result its answer is given. -/
theorem keepsControl_of_map {s t : State} {x : Except Fault State} {r : State → Result}
    (hx : ∀ u, x = .ok u → keepsControl s u) (h : ofExcept (x.map (fun u => u.setResult (r u))) = .next t) :
    keepsControl s t := by
  obtain ⟨u, hu, rfl⟩ := exceptMap_eq_ok (ofExcept_eq_next h)
  exact hx u hu

theorem keepsControl.sublist_pending {s t : State} {es : List Event} (h : keepsControl s t)
    (hsub : List.Sublist es s.pending) : List.Sublist es t.pending := by
  obtain ⟨_, _, hp⟩ := h
  rwa [hp]

theorem AgentFrame.keepsControl {s t : State} (h : AgentFrame s t) : keepsControl s t := ⟨h.cfg, h.agent, h.pending⟩

theorem FramerFrame.keepsControl {s t : State} (h : FramerFrame s t) : keepsControl s t := ⟨h.cfg, h.agent, h.pending⟩

theorem FifoFrame.keepsControl {i : Inst} {s t : State} (h : FifoFrame i s t) : keepsControl s t :=
  ⟨h.cfg, h.agent, h.pending⟩

theorem storeInst_keepsControl {i : Inst} {data : Bytes} {s t : State}
    (h : ofExcept ((storeInst i data s).map (·.setResult .none)) = .next t) : keepsControl s t :=
  keepsControl_of_map (fun _ hu => (storeInst_frame hu).1.keepsControl) h

theorem receiveBytes_keepsControl {bs : Bytes} {s t : State}
    (h : ofExcept ((receiveBytes bs s).map (·.withPayloadsSince s)) = .next t) : keepsControl s t :=
  keepsControl_of_map (fun _ hu => (receiveBytes_frame hu).1.keepsControl) h

/-- No instruction writes the configuration, the acting agent or the requests (10_state R33). -/
theorem exec_keepsControl {i : Instr} {s t : State} (h : exec i s = .next t) : keepsControl s t := by
  cases i with
  | reset => cases h; exact ⟨rfl, rfl, rfl⟩
  | push f b => exact keepsControl_of_map (fun _ hu => (pushInst_frame hu).1.keepsControl) h
  | store f data =>
    rw [exec, execStore] at h
    split at h
    · cases h
    · exact storeInst_keepsControl h
  | pop f => exact (popInst_frame (ofExcept_eq_next h)).1.keepsControl
  | length f => cases h; exact ⟨rfl, rfl, rfl⟩
  | freeSpace f => cases h; exact ⟨rfl, rfl, rfl⟩
  | fifoReset f => cases h; exact (FifoFrame.setFifo s f _).keepsControl
  | crc16 bytes =>
    rw [exec, execCrc16] at h
    split at h
    · cases h
    · cases h; exact ⟨State.noteCrc_cfg s _, State.noteCrc_agent s _, State.noteCrc_pending s _⟩
  | encode payload =>
    rw [exec, execEncode] at h
    split at h
    · cases h
    · cases h; exact ⟨State.noteCrc_cfg s _, State.noteCrc_agent s _, State.noteCrc_pending s _⟩
  | decode win => cases h; exact (FramerFrame.noteDecode s win).keepsControl
  | feed b => exact keepsControl_of_map (fun _ hu => (feedByte_frame hu).1.keepsControl) h
  | poll => exact keepsControl_of_map (fun _ hu => (framerSteps_frame hu).1.keepsControl) h
  | framerReset => cases h; exact ⟨rfl, rfl, rfl⟩
  | write frame =>
    rw [exec] at h
    rcases execWrite_cases frame s with ⟨_, he⟩ | ⟨_, he⟩ | ⟨_, _, he⟩ | ⟨_, _, he⟩ <;> rw [he] at h
    · cases h
    · cases h; exact ⟨rfl, rfl, rfl⟩
    · cases h
    · exact storeInst_keepsControl h
  | unassignedE hi => cases h
  | unassignedF hi => cases h
  | frameShort payload crc => exact receiveBytes_keepsControl h
  | frameLong payload crc => exact receiveBytes_keepsControl h

theorem sublist_putBack (bs : Bytes) (es : List Event) : List.Sublist es (putBack bs es) := by
  cases bs with
  | nil => exact List.Sublist.refl es
  | cons b bs => exact List.sublist_cons_self _ es

/-- Serving an event keeps the other requests, in their order; bytes put back on the line come before them. -/
theorem serve_keeps_rest {e : Event} {rest : List Event} {s t : State} (h : serve e rest s = .next t) :
    List.Sublist rest t.pending := by
  cases e with
  | op a r =>
    rw [serve] at h
    split at h
    · exact (exec_keepsControl h).sublist_pending (List.Sublist.refl rest)
    · cases h
  | framerStep =>
    have hk := keepsControl_of_map (fun _ hu => (framerStep_frame hu).1.keepsControl) h
    exact hk.sublist_pending (List.Sublist.refl rest)
  | txStep => exact (popInst_frame (ofExcept_eq_next h)).1.keepsControl.sublist_pending (List.Sublist.refl rest)
  | line bytes =>
    cases bytes with
    | nil => cases h; exact List.Sublist.refl rest
    | cons b bs =>
      rw [serve] at h
      split at h
      · exact (exec_keepsControl h).sublist_pending (sublist_putBack _ rest)
      · have hk := keepsControl_of_map (fun _ hu => (receiveByte_frame hu).1.keepsControl) h
        exact hk.sublist_pending (sublist_putBack bs rest)

theorem idle_keeps_pending {s t : State} (h : idle s = .next t) : List.Sublist s.pending t.pending := by
  rcases idle_cases s with ⟨e, he⟩ | he <;> rw [he] at h
  · exact serve_keeps_rest h
  · cases h; exact List.Sublist.refl _

/-- A step keeps all requests in order, or all but the one that `pick` answers. -/
theorem step_keeps_rest {s t : State} (h : step s = .next t) :
    (∃ e rest, pick s [] s.pending = some (e, rest) ∧ List.Sublist rest t.pending) ∨
    List.Sublist s.pending t.pending := by
  rcases step_cases s with ⟨e, rest, hp, he⟩ | ⟨_, he⟩ <;> rw [he] at h
  · exact .inl ⟨e, rest, hp, serve_keeps_rest h⟩
  · exact .inr (idle_keeps_pending h)

/-- The event picked is enabled, so an event that is not stays. -/
theorem pick_keeps_disabled {s : State} {w : List Agent} {es rest : List Event} {x e : Event}
    (h : pick s w es = some (x, rest)) (hmem : e ∈ es) (he : e.enabled s = false) : e ∈ rest := by
  obtain ⟨before, after, rfl, rfl, hx, _, _⟩ := pick_spec h
  have hne : e ≠ x := fun heq => by rw [heq, hx] at he; cases he
  simpa [hne] using hmem

/-- No event behind one of its own agent is picked, so an event that is not enabled and one of its agent behind it stay, in
that order. -/
theorem pick_keeps_pair {s : State} {w : List Agent} {es rest : List Event} {x d e : Event}
    (h : pick s w es = some (x, rest)) (hsub : List.Sublist [d, e] es) (hd : d.enabled s = false)
    (hagent : d.agent = e.agent) : List.Sublist [d, e] rest := by
  obtain ⟨before, after, rfl, rfl, hx, _, hbefore⟩ := pick_spec h
  have hdx : d ≠ x := fun heq => by rw [heq, hx] at hd; cases hd
  obtain ⟨l₁, l₂, hsplit, h₁, h₂⟩ := List.sublist_append_iff.1 hsub
  rcases List.sublist_cons_iff.1 h₂ with h₂ | ⟨r, rfl, h₂⟩
  · exact hsplit ▸ h₁.append h₂
  · exfalso
    cases l₁ with
    | nil => exact hdx (List.cons.inj hsplit).1
    | cons c l₁ =>
      obtain ⟨rfl, htail⟩ := List.cons.inj hsplit
      have hex : x = e := by
        cases l₁ with
        | nil => exact (List.cons.inj htail).1.symm
        | cons c' l₁ => simp at htail
      exact hbefore d (h₁.subset List.mem_cons_self) (hex ▸ hagent)

/-! ### The fetch -/

/-- The two halves of receiving a byte: RXP's push and the framer's step (44_boundary R190, R191). -/
theorem receiveByte_split {s : State} (h : s.inv) (b : Byte) :
    ∃ u v, pushInst .rx b s = .ok u ∧ framerStep u = .ok v ∧ receiveByte b s = .ok v := by
  obtain ⟨u, hu, hi⟩ := pushInst_keeps_inv h .rx b
  obtain ⟨v, hv, _⟩ := framerStep_keeps_inv hi
  exact ⟨u, v, hu, hv, by simp only [receiveByte, hu, hv]⟩

theorem serve_op {a : Agent} {r : OpRequest} {i : Instr} (h : decodeOp r = .ok i) (rest : List Event) (s : State) :
    serve (.op a r) rest s = exec i { s with agent := a, pending := rest } := by
  rw [serve, h]

theorem serve_packet {bytes more : Bytes} {i : Instr} (h : decodeLine bytes = .ok (i, more)) (rest : List Event)
    (s : State) : serve (.line bytes) rest s = exec i { s with agent := .rxp, pending := putBack more rest } := by
  cases bytes with
  | nil => cases h
  | cons b bs => rw [serve, h]

/-! ### The obligations -/

/-- Settles O11: from a state that meets the invariant every instruction and every step completes or is refused. -/
theorem noStepFaults : Obligations.NoStepFaults :=
  ⟨fun i _ f h => (exec_answers h i).ne_fault f, fun _ f h => (step_answers h).ne_fault f⟩

/-- Settles O6, by induction on the requests passed over. -/
theorem stepServesFirstEnabledRequest : Obligations.StepServesFirstEnabledRequest := by
  intro s before after e hp hbefore he
  simp only [Event.waits, not_or, not_exists, not_and, Bool.not_eq_false] at he
  obtain ⟨henabled, hagent⟩ := he
  refine step_of_pick ?_
  rw [hp]
  exact pick_append (fun earlier later d hsplit => .inr (hbefore earlier later d hsplit)) henabled (by simp) hagent

/-- Settles O7: the step serves what `pick` answers, which drops neither request, and serving keeps all others in order. -/
theorem waitingRequestIsKept : Obligations.WaitingRequestIsKept := by
  constructor
  · intro s t e hstep hmem he
    rcases step_keeps_rest hstep with ⟨x, rest, hp, hsub⟩ | hsub
    · exact hsub.subset (pick_keeps_disabled hp hmem he)
    · exact hsub.subset hmem
  · intro s t before mid after d e hstep hp hd hagent
    have hpair : List.Sublist [d, e] s.pending := by simp [hp]
    rcases step_keeps_rest hstep with ⟨x, rest, hpick, hsub⟩ | hsub
    · exact (pick_keeps_pair hpick hpair hd hagent).trans hsub
    · exact hpair.trans hsub

/-- Settles O12: a well-formed instruction has none of the operands for which it may be refused. -/
theorem everyInstructionCompletes : Obligations.EveryInstructionCompletes := by
  intro i s h hwf hE hF hwrite
  rcases exec_completes_or_refused h i with hc | ⟨hmay, _⟩
  · exact hc
  · exfalso
    cases i with
    | store f data => exact Nat.not_lt.2 (of_decide_eq_true hwf) hmay
    | crc16 bytes => exact Nat.not_lt.2 (of_decide_eq_true hwf) hmay
    | encode payload =>
      simp only [mayRefuse, Instr.wellFormed, Bool.and_eq_true, decide_eq_true_eq] at hmay hwf
      omega
    | write frame =>
      have hroom := hwrite frame rfl
      simp only [mayRefuse, countMax] at hmay
      omega
    | unassignedE hi => exact hE hi rfl
    | unassignedF hi => exact hF hi rfl
    | _ => exact hmay

/-- Settles O5: the request at the head is served, by the shape of the request. -/
theorem stepRunsDecodedInstruction : Obligations.StepRunsDecodedInstruction := by
  refine ⟨?operation, ?packet, ?byte, ?noBytes⟩
  case operation =>
    intro s a r i es hp hdec hholds
    rw [step_of_head hp (by simp [Event.enabled, hdec, hholds])]
    exact serve_op hdec es s
  case packet =>
    intro s bytes more i es hp hdec
    rw [step_of_head hp rfl]
    exact serve_packet hdec es s
  case byte =>
    intro s b bs why es hinv hp hdec
    obtain ⟨u, v, hu, hv, hrec⟩ := receiveByte_split (State.inv_request hinv .rxp (putBack bs es)) b
    refine ⟨u, v, hu, hv, ?_⟩
    rw [step_of_head hp rfl, serve, hdec]
    simp only [hrec]
    rfl
  case noBytes =>
    intro s es hp
    exact step_of_head hp rfl

end Sys2Proof.Machine
end

section
/-! The state of the block (10_state R20 to R35): its invariant and reset, what a FEED does to the contents it starts from, and
that no operation shows a stale storage byte or where the valid bytes of a FIFO lie. -/

namespace Sys2Proof.Machine

/-! ### The invariant and the configuration -/

theorem Fifo.ok_reset {cap : Nat} (hcap : 2 ≤ cap) : Fifo.reset.ok cap :=
  ⟨Nat.lt_of_lt_of_le (by decide) hcap, Nat.zero_le _, rfl, by simp [Fifo.reset], fun k hk => absurd hk (Nat.not_lt_zero k)⟩

theorem Framer.ok_reset {cap : Nat} (hcap : 6 ≤ cap) : Framer.ok cap ⟨[], -1⟩ :=
  ⟨Int.le_refl _, by show (-1 : Int) + 1 ≤ _; omega, rfl, by simp, fun k hk => absurd hk (Nat.not_lt_zero k)⟩

theorem State.inv_resetWith {c : Config} (h : c.valid) : (State.resetWith c).inv := by
  obtain ⟨hrx, htx, hstg⟩ := h
  exact ⟨⟨hrx, htx, hstg⟩, Fifo.ok_reset hrx, Fifo.ok_reset htx, Framer.ok_reset hstg⟩

/-- Serving an event leaves the configuration alone, whatever becomes of the requests. -/
theorem serve_keeps_cfg {e : Event} {rest : List Event} {s t : State} (h : serve e rest s = .next t) : t.cfg = s.cfg := by
  cases e with
  | op a r =>
    rw [serve] at h
    split at h
    · exact (exec_keepsControl h).1
    · cases h
  | framerStep => exact (keepsControl_of_map (fun _ hu => (framerStep_frame hu).1.keepsControl) h).1
  | txStep => exact (popInst_frame (ofExcept_eq_next h)).1.cfg
  | line bytes =>
    cases bytes with
    | nil => cases h; rfl
    | cons b bs =>
      rw [serve] at h
      split at h
      · exact (exec_keepsControl h).1
      · exact (keepsControl_of_map (fun _ hu => (receiveByte_frame hu).1.keepsControl) h).1

theorem step_keeps_cfg {s t : State} (h : step s = .next t) : t.cfg = s.cfg := by
  rcases step_cases s with ⟨e, rest, _, he⟩ | ⟨_, he⟩ <;> rw [he] at h
  · exact serve_keeps_cfg h
  · rcases idle_cases s with ⟨e, he⟩ | he <;> rw [he] at h
    · exact serve_keeps_cfg h
    · cases h; rfl

/-! ### A FEED on contents -/

/-- From `s` the framer's work ends in `t` as the pass `p` on byte strings says: contents, deliveries, error conditions (log 8)
and accumulator (log 5), and nothing outside the framer and the history changed. -/
structure RunsPass (s t : State) (p : Pass) : Prop where
  frame     : FramerFrame s t
  fits      : t.framer.fits s.cfg.stgCap p.left
  delivered : t.delivered = s.delivered ++ p.payloads
  errors    : t.errors = s.errors ++ p.codes
  crcAcc    : t.crcAcc = if s.cfg.crcSerial then p.crcs.getLast?.getD s.crcAcc else s.crcAcc

theorem RunsPass.stop {s : State} {win : Bytes} (h : s.framer.fits s.cfg.stgCap win) : RunsPass s s (Pass.stop win) :=
  ⟨FramerFrame.refl s, h, (List.append_nil _).symm, (List.append_nil _).symm, by simp [Pass.stop]⟩

/-- A first piece of work that delivers `payloads`, records `codes` and computes `crcs`, and then a pass. -/
theorem RunsPass.trans {s t u : State} {p : Pass} {payloads : List Bytes} {codes : List ErrorCode} {crcs : List U16}
    (hf : FramerFrame s t) (hd : t.delivered = s.delivered ++ payloads) (he : t.errors = s.errors ++ codes)
    (hc : t.crcAcc = if s.cfg.crcSerial then crcs.getLast?.getD s.crcAcc else s.crcAcc) (h : RunsPass t u p) :
    RunsPass s u ⟨p.left, payloads ++ p.payloads, codes ++ p.codes, crcs ++ p.crcs⟩ := by
  refine ⟨hf.trans h.frame, hf.cfg ▸ h.fits, by rw [h.delivered, hd, List.append_assoc],
    by rw [h.errors, he, List.append_assoc], ?_⟩
  rw [h.crcAcc, hf.cfg, hc, List.getLast?_append]
  split
  · cases p.crcs.getLast? <;> rfl
  · rfl

theorem listPass_nil (c : Config) (j : Nat) : listPass c j [] = Pass.stop [] := by cases j <;> rfl

/-- A trip that goes on, and then the pass on the bytes it leaves (43_stream_framer R163 to R166). -/
theorem RunsPass.trip {s t u : State} {b : Byte} {win left : Bytes} {j : Nat} (hft : FramerFrame s t)
    (hcrc : t.crcAcc = (s.noteDecode (b :: win)).crcAcc)
    (heff : tripEffect s t (b :: win) left (decodeWindow s.cfg (b :: win))) (hrun : RunsPass t u (listPass s.cfg j left)) :
    RunsPass s u (listPass s.cfg (j + 1) (b :: win)) := by
  rw [State.noteDecode_crcAcc] at hcrc
  rw [listPass]
  cases hd : decodeWindow s.cfg (b :: win) with
  | needMore => rw [hd] at heff; exact heff.elim
  | ok hdr len size =>
    rw [hd] at heff
    obtain ⟨rfl, hdel, herr⟩ := heff
    exact RunsPass.trans (codes := []) hft hdel (by rw [herr, List.append_nil]) hcrc hrun
  | reject why =>
    rw [hd] at heff
    obtain ⟨rfl, hdel, herr⟩ := heff
    have hall := RunsPass.trans (payloads := []) hft (by rw [hdel, List.append_nil]) herr hcrc hrun
    split at hall <;> rename_i hp
    · rw [listPass_nil] at hall
      simp only [if_pos hp]
      exact hall
    · simp only [if_neg hp]
      exact hall

/-- The loop with trips enough ends as the pass on its contents says, the pass with trips enough as well
(43_stream_framer R163, R167). -/
theorem passLoop_runs {k : Nat} {s : State} {win : Bytes} (h : s.framer.fits s.cfg.stgCap win) (hk : win.length < k) {j : Nat}
    (hj : win.length ≤ j) : ∃ t, passLoop k s = .ok t ∧ RunsPass s t (listPass s.cfg j win) := by
  induction k generalizing s win j with
  | zero => omega
  | succ k ih =>
    have hn := Framer.n_of_holds h.holds
    cases win with
    | nil => exact ⟨s, by simp [passLoop, hn], listPass_nil s.cfg j ▸ RunsPass.stop h⟩
    | cons b win =>
      have hn0 : s.framer.n ≠ 0 := by simp [hn]
      obtain ⟨j, rfl⟩ := Nat.exists_eq_add_one.2 (Nat.lt_of_lt_of_le (Nat.succ_pos win.length) hj)
      simp only [passLoop, hn0, if_false, Framer.readRun_fits h]
      rcases passTrip_spec h (List.cons_ne_nil b win) with ⟨ht, hd⟩ | ⟨t, left, ht, hft, hfit, hlt, hcrc, heff⟩
      · refine ⟨s, by simp only [ht], ?_⟩
        simpa only [listPass, hd] using RunsPass.stop h
      · obtain ⟨u, hu, hrun⟩ := ih (s := t) (j := j) (hft.cfg ▸ hfit) (by omega) (by omega)
        exact ⟨u, by simp only [ht, hu], RunsPass.trip hft hcrc heff (hft.cfg ▸ hrun)⟩

theorem Framer.fits_of_holds {cap : Nat} {f : Framer} {win : Bytes} (h : f.ok cap) (hw : f.holds win) :
    f.fits cap win ∧ win.length < cap := by
  obtain ⟨hlow, hroom, hwf, hwi, _⟩ := h
  have hl := hw.1
  exact ⟨⟨hw, hwf, hwi, by omega⟩, by omega⟩

theorem Framer.seeking_of_holds {f : Framer} {win : Bytes} (h : f.holds win) : f.seeking = true ↔ win = [] := by
  have hl := h.1
  rw [Framer.seeking, decide_eq_true_iff, ← List.length_eq_zero_iff]
  omega

/-- FEED from a good framer ends as FEED on its contents says (43_stream_framer R161 to R166). -/
theorem feedByte_runs {s : State} {win : Bytes} (h : s.framer.ok s.cfg.stgCap) (hw : s.framer.holds win) (b : Byte) :
    ∃ t, feedByte b s = .ok t ∧ RunsPass s t (listFeed s.cfg win b) := by
  obtain ⟨hfit, hlt⟩ := Framer.fits_of_holds h hw
  have hguard : (s.framer.seeking ∧ ¬ isCandidate b) ↔ (win = [] ∧ b ≠ startShort ∧ b ≠ startLong) := by
    simp [Framer.seeking_of_holds hw, isCandidate]
  by_cases hd : win = [] ∧ b ≠ startShort ∧ b ≠ startLong
  · refine ⟨s, by rw [feedByte, if_pos (hguard.2 hd)], ?_⟩
    rw [listFeed, if_pos hd, ← hd.1]
    exact RunsPass.stop hfit
  · obtain ⟨t, ht, hft, hfit', hdel, herr, hcrc⟩ := appendByte_spec b hfit hlt
    obtain ⟨u, hu, hrun⟩ := passLoop_runs (s := t) (k := t.framer.n + 1) (j := win.length + 1) (hft.cfg ▸ hfit')
      (by rw [Framer.n_of_holds hfit'.holds]; omega) (by simp)
    refine ⟨u, by simp only [feedByte, mt hguard.1 hd, if_false, ht, decodePass, hu], ?_⟩
    rw [listFeed, if_neg hd, ← hft.cfg]
    exact RunsPass.trans (payloads := []) (codes := []) (crcs := []) hft (by simp [hdel]) (by simp [herr]) (by simp [hcrc]) hrun

end Sys2Proof.Machine
end

section
/-! Noninterference of stale storage (10_state R34): from two similar states every operation ends alike. -/

namespace Sys2Proof.Machine

/-! ### FIFOs and framers with the same contents -/

theorem Fifo.sameContents.length_eq {cap : Nat} {f g : Fifo} (h : Fifo.sameContents cap f g) : g.length = f.length := by
  obtain ⟨bs, hf, hg⟩ := h
  rw [hf.1, hg.1]

theorem Fifo.sameContents_clear (cap : Nat) (f g : Fifo) : Fifo.sameContents cap f.clear g.clear :=
  ⟨[], Fifo.holds_clear, Fifo.holds_clear⟩

/-- PUSH overflows on both FIFOs or on neither. -/
theorem fifoPush_alike {cap : Nat} {f g : Fifo} (hcap : 0 < cap) (hlen : f.length ≤ cap - 1) (h : Fifo.sameContents cap f g)
    (b : Byte) : ∃ f' g' ov, fifoPush cap f b = .ok (f', ov) ∧ fifoPush cap g b = .ok (g', ov) ∧
      Fifo.sameContents cap f' g' := by
  by_cases hfull : f.length = cap - 1
  · exact ⟨_, _, true, fifoPush_full b hfull, fifoPush_full b (h.length_eq.trans hfull), Fifo.sameContents_clear cap f g⟩
  · have hfull' : g.length ≠ cap - 1 := h.length_eq ▸ hfull
    obtain ⟨bs, hf, hg⟩ := h
    have hroom : bs.length < cap - 1 := hf.1 ▸ Nat.lt_of_le_of_ne hlen hfull
    exact ⟨_, _, false, fifoPush_room b hcap hfull, fifoPush_room b hcap hfull',
      bs ++ [b], Fifo.holds_push b hf hroom, Fifo.holds_push b hg hroom⟩

/-- STORE overflows on both FIFOs or on neither. -/
theorem fifoStore_alike {cap : Nat} {f g : Fifo} (hcap : 0 < cap) (hlen : f.length ≤ cap - 1)
    (h : Fifo.sameContents cap f g) (data : Bytes) :
    ∃ f' g' ov, fifoStore cap f data = .ok (f', ov) ∧ fifoStore cap g data = .ok (g', ov) ∧
      Fifo.sameContents cap f' g' := by
  have hfree : g.freeSpace cap = f.freeSpace cap := by simp only [Fifo.freeSpace, h.length_eq]
  by_cases hov : f.freeSpace cap < data.length
  · exact ⟨_, _, true, fifoStore_overflow hov, fifoStore_overflow (hfree ▸ hov), Fifo.sameContents_clear cap f g⟩
  · obtain ⟨m, hm, hmin, hmout, _⟩ := fifoStore_room hcap (Nat.not_lt.1 hov)
    obtain ⟨m', hm', hmin', hmout', _⟩ := fifoStore_room (f := g) hcap (hfree.symm ▸ Nat.not_lt.1 hov)
    obtain ⟨bs, hf, hg⟩ := h
    have hroom : bs.length + data.length < cap := by
      have hl := hf.1
      simp only [Fifo.freeSpace] at hov
      omega
    exact ⟨_, _, false, hm, hm', bs ++ data, Fifo.holds_store hf hroom hmin hmout, Fifo.holds_store hg hroom hmin' hmout'⟩

/-- POP answers the sentinel on both FIFOs, or the same byte. -/
theorem fifoPop_alike {cap : Nat} {f g : Fifo} (hf : f.ok cap) (hg : g.ok cap) (h : Fifo.sameContents cap f g) :
    (f.length = 0 ∧ g.length = 0) ∨
    ∃ b f' g', fifoPop cap f = .ok (true, b, f') ∧ fifoPop cap g = .ok (true, b, g') ∧ f'.ok cap ∧ g'.ok cap ∧
      Fifo.sameContents cap f' g' := by
  obtain ⟨bs, hfb, hgb⟩ := h
  cases bs with
  | nil => exact .inl ⟨hfb.1, hgb.1⟩
  | cons b bs =>
    obtain ⟨c, f', hp, hf', _⟩ := fifoPop_ok hf (by rw [hfb.1]; exact Nat.succ_ne_zero _)
    obtain ⟨d, g', hq, hg', _⟩ := fifoPop_ok hg (by rw [hgb.1]; exact Nat.succ_ne_zero _)
    cases (fifoPop_cons hf.1 hfb).symm.trans hp
    cases (fifoPop_cons hg.1 hgb).symm.trans hq
    exact .inr ⟨b, _, _, hp, hq, hf', hg', bs, Fifo.holds_pop hfb, Fifo.holds_pop hgb⟩

theorem Framer.sameContents_discard (f g : Framer) :
    Framer.sameContents { f with lastValidIndex := -1 } { g with lastValidIndex := -1 } :=
  ⟨[], ⟨rfl, fun k hk => absurd hk (Nat.not_lt_zero k)⟩, ⟨rfl, fun k hk => absurd hk (Nat.not_lt_zero k)⟩⟩

/-! ### Updates keep states similar -/

theorem State.similar.cfg_eq {s s' : State} (h : s.similar s') : s'.cfg = s.cfg := h.1

theorem State.similar.fifo {s s' : State} (h : s.similar s') (i : Inst) :
    Fifo.sameContents (s.cap i) (s.fifo i) (s'.fifo i) := by
  obtain ⟨_, hrx, htx, _⟩ := h
  cases i
  · exact hrx
  · exact htx

theorem State.similar.setFifo {s s' : State} (h : s.similar s') (i : Inst) {f g : Fifo}
    (hfg : Fifo.sameContents (s.cap i) f g) : (s.setFifo i f).similar (s'.setFifo i g) := by
  obtain ⟨hcfg, hrx, htx, hrest⟩ := h
  cases i
  · exact ⟨hcfg, hfg, htx, hrest⟩
  · exact ⟨hcfg, hrx, hfg, hrest⟩

theorem State.similar.setResult {s s' : State} (h : s.similar s') (r : Result) :
    (s.setResult r).similar (s'.setResult r) := by
  obtain ⟨hcfg, hrx, htx, hfr, hcrc, hdel, hline, herr, _, hrest⟩ := h
  exact ⟨hcfg, hrx, htx, hfr, hcrc, hdel, hline, herr, rfl, hrest⟩

theorem State.similar.recordError {s s' : State} (h : s.similar s') (e : ErrorCode) :
    (s.recordError e).similar (s'.recordError e) := by
  obtain ⟨hcfg, hrx, htx, hfr, hcrc, hdel, hline, herr, hrest⟩ := h
  exact ⟨hcfg, hrx, htx, hfr, hcrc, hdel, hline, congrArg (· ++ [e]) herr, hrest⟩

theorem State.similar.noteOverflow {s s' : State} (h : s.similar s') (ov : Bool) :
    (s.noteOverflow ov).similar (s'.noteOverflow ov) := by
  cases ov
  · exact h
  · exact h.recordError .e6

theorem State.similar.notePop {s s' : State} (h : s.similar s') (i : Inst) (b : Byte) :
    (s.notePop i b).similar (s'.notePop i b) := by
  obtain ⟨hcfg, hrx, htx, hfr, hcrc, hdel, hline, herr, hres, hag, hpend⟩ := h
  rw [State.notePop, State.notePop, hag]
  split
  · exact ⟨hcfg, hrx, htx, hfr, hcrc, hdel, congrArg (· ++ [b]) hline, herr, hres, hag, hpend⟩
  · exact ⟨hcfg, hrx, htx, hfr, hcrc, hdel, hline, herr, hres, hag, hpend⟩

theorem State.similar.noteCrc {s s' : State} (h : s.similar s') (c : U16) : (s.noteCrc c).similar (s'.noteCrc c) := by
  obtain ⟨hcfg, hrx, htx, hfr, hcrc, hrest⟩ := h
  rw [State.noteCrc, State.noteCrc, show s'.cfg.crcSerial = s.cfg.crcSerial from congrArg _ hcfg]
  split
  · exact ⟨hcfg, hrx, htx, hfr, rfl, hrest⟩
  · exact ⟨hcfg, hrx, htx, hfr, hcrc, hrest⟩

theorem State.similar.noteDecode {s s' : State} (h : s.similar s') (win : Bytes) :
    (s.noteDecode win).similar (s'.noteDecode win) := by
  simp only [State.noteDecode, h.cfg_eq]
  split
  · exact h
  · exact h.noteCrc _

theorem State.similar.discardAll {s s' : State} (h : s.similar s') : (discardAll s).similar (discardAll s') := by
  obtain ⟨hcfg, hrx, htx, _, hrest⟩ := h
  exact ⟨hcfg, hrx, htx, Framer.sameContents_discard _ _, hrest⟩

theorem State.similar.resetBlock {s s' : State} (h : s.similar s') : (resetBlock s).similar (resetBlock s') := by
  obtain ⟨hcfg, _, _, _, hcrc, _, _, _, hrest⟩ := h
  refine ⟨hcfg, Fifo.sameContents_clear _ _ _, Fifo.sameContents_clear _ _ _, Framer.sameContents_discard _ _, ?_, rfl, rfl,
    rfl, hrest⟩
  simp only [Machine.resetBlock, hcfg, hcrc]

/-- The same pass from similar states ends in similar states. -/
theorem RunsPass.similar {s s' t t' : State} {p : Pass} (h : s.similar s') (ht : RunsPass s t p)
    (ht' : RunsPass s' t' p) : t.similar t' := by
  obtain ⟨hcfg, hrx, htx, _, hcrc, hdel, hline, herr, hres, hag, hpend⟩ := h
  have hf := ht.frame
  have hf' := ht'.frame
  refine ⟨?_, ?_, ?_, ⟨p.left, ht.fits.holds, ht'.fits.holds⟩, ?_, ?_, ?_, ?_, ?_, ?_, ?_⟩
  · rw [hf'.cfg, hf.cfg, hcfg]
  · rwa [hf.cfg, hf.rx, hf'.rx]
  · rwa [hf.cfg, hf.tx, hf'.tx]
  · rw [ht'.crcAcc, ht.crcAcc, hcfg, hcrc]
  · rw [ht'.delivered, ht.delivered, hdel]
  · rw [hf'.txLine, hf.txLine, hline]
  · rw [ht'.errors, ht.errors, herr]
  · rw [hf'.result, hf.result, hres]
  · rw [hf'.agent, hf.agent, hag]
  · rw [hf'.pending, hf.pending, hpend]

/-! ### Shared computations answer alike -/

/-- Two similar states of the invariant. -/
structure Twins (s s' : State) : Prop where
  inv     : s.inv
  inv'    : s'.inv
  similar : s.similar s'

/-- Two computations that complete, in similar states of the invariant. -/
def AnswerAlike (x x' : Except Fault State) : Prop := ∃ u u', x = .ok u ∧ x' = .ok u' ∧ Twins u u'

theorem answerAlike_of_similar {x x' : Except Fault State} (hx : ∃ u, x = .ok u ∧ u.inv) (hx' : ∃ u, x' = .ok u ∧ u.inv)
    (h : ∀ u u', x = .ok u → x' = .ok u' → u.similar u') : AnswerAlike x x' := by
  obtain ⟨u, hu, hi⟩ := hx
  obtain ⟨u', hu', hi'⟩ := hx'
  exact ⟨u, u', hu, hu', hi, hi', h u u' hu hu'⟩

theorem Twins.cap_eq {s s' : State} (h : Twins s s') (i : Inst) : s'.cap i = s.cap i := State.cap_of_cfg h.similar.cfg_eq i

theorem Twins.setFifo {s s' : State} (h : Twins s s') {i : Inst} {f g : Fifo} (hf : f.ok (s.cap i)) (hg : g.ok (s.cap i))
    (hfg : Fifo.sameContents (s.cap i) f g) : Twins (s.setFifo i f) (s'.setFifo i g) :=
  ⟨State.inv_setFifo h.inv hf, State.inv_setFifo h.inv' (h.cap_eq i ▸ hg), h.similar.setFifo i hfg⟩

theorem pushInst_alike {s s' : State} (h : Twins s s') (i : Inst) (b : Byte) :
    AnswerAlike (pushInst i b s) (pushInst i b s') := by
  refine answerAlike_of_similar (pushInst_keeps_inv h.inv i b) (pushInst_keeps_inv h.inv' i b) (fun u u' hu hu' => ?_)
  obtain ⟨hstart, hlen, _⟩ := State.inv_fifo h.inv i
  obtain ⟨f, g, ov, hf, hg, hfg⟩ := fifoPush_alike (Nat.zero_lt_of_lt hstart) hlen (h.similar.fifo i) b
  simp only [pushInst, h.cap_eq, hf, hg, Except.ok.injEq] at hu hu'
  subst hu hu'
  exact (h.similar.setFifo i hfg).noteOverflow ov

theorem storeInst_alike {s s' : State} (h : Twins s s') (i : Inst) (data : Bytes) :
    AnswerAlike (storeInst i data s) (storeInst i data s') := by
  refine answerAlike_of_similar (storeInst_keeps_inv h.inv i data) (storeInst_keeps_inv h.inv' i data)
    (fun u u' hu hu' => ?_)
  obtain ⟨hstart, hlen, _⟩ := State.inv_fifo h.inv i
  obtain ⟨f, g, ov, hf, hg, hfg⟩ := fifoStore_alike (Nat.zero_lt_of_lt hstart) hlen (h.similar.fifo i) data
  simp only [storeInst, h.cap_eq, hf, hg, Except.ok.injEq] at hu hu'
  subst hu hu'
  exact (h.similar.setFifo i hfg).noteOverflow ov

/-- The two ways of a POP: an empty FIFO on both sides, or the same byte popped from both. -/
theorem Twins.pop_cases {s s' : State} (h : Twins s s') (i : Inst) :
    ((s.fifo i).length = 0 ∧ (s'.fifo i).length = 0) ∨
    ∃ b f g, fifoPop (s.cap i) (s.fifo i) = .ok (true, b, f) ∧ fifoPop (s'.cap i) (s'.fifo i) = .ok (true, b, g) ∧
      Twins (s.setFifo i f) (s'.setFifo i g) := by
  have hg := h.cap_eq i ▸ State.inv_fifo h.inv' i
  rcases fifoPop_alike (State.inv_fifo h.inv i) hg (h.similar.fifo i) with hempty | ⟨b, f, g, hp, hq, hf, hg, hfg⟩
  · exact .inl hempty
  · exact .inr ⟨b, f, g, hp, (h.cap_eq i).symm ▸ hq, h.setFifo hf hg hfg⟩

theorem feedByte_alike {s s' : State} (h : Twins s s') (b : Byte) : AnswerAlike (feedByte b s) (feedByte b s') := by
  refine answerAlike_of_similar (feedByte_keeps_inv h.inv b) (feedByte_keeps_inv h.inv' b) (fun u u' hu hu' => ?_)
  obtain ⟨_, _, _, ⟨win, hw, hw'⟩, _⟩ := h.similar
  obtain ⟨t, ht, hrun⟩ := feedByte_runs h.inv.2.2.2 hw b
  obtain ⟨t', ht', hrun'⟩ := feedByte_runs h.inv'.2.2.2 hw' b
  rw [h.similar.cfg_eq] at hrun'
  cases hu.symm.trans ht
  cases hu'.symm.trans ht'
  exact hrun.similar h.similar hrun'

theorem framerStep_alike {s s' : State} (h : Twins s s') : AnswerAlike (framerStep s) (framerStep s') := by
  rcases h.pop_cases .rx with ⟨he, he'⟩ | ⟨b, f, g, hp, hq, htw⟩
  · refine ⟨s, s', ?_, ?_, h⟩
    · simp only [framerStep, fifoPop_empty (f := s.rx) he]
    · simp only [framerStep, fifoPop_empty (f := s'.rx) he']
  · have hs : framerStep s = feedByte b (s.setFifo .rx f) := by
      rw [framerStep, show fifoPop s.cfg.cRx s.rx = _ from hp]
    have hs' : framerStep s' = feedByte b (s'.setFifo .rx g) := by
      rw [framerStep, show fifoPop s'.cfg.cRx s'.rx = _ from hq]
    rw [hs, hs']
    exact feedByte_alike htw b

theorem framerSteps_alike {k : Nat} {s s' : State} (h : Twins s s') : AnswerAlike (framerSteps k s) (framerSteps k s') := by
  induction k generalizing s s' with
  | zero => exact ⟨s, s', rfl, rfl, h⟩
  | succ k ih =>
    obtain ⟨u, u', hu, hu', htw⟩ := framerStep_alike h
    simpa only [framerSteps, hu, hu'] using ih htw

theorem receiveByte_alike {s s' : State} (h : Twins s s') (b : Byte) : AnswerAlike (receiveByte b s) (receiveByte b s') := by
  obtain ⟨u, u', hu, hu', htw⟩ := pushInst_alike h .rx b
  simpa only [receiveByte, hu, hu'] using framerStep_alike htw

theorem receiveBytes_alike {bs : Bytes} {s s' : State} (h : Twins s s') :
    AnswerAlike (receiveBytes bs s) (receiveBytes bs s') := by
  induction bs generalizing s s' with
  | nil => exact ⟨s, s', rfl, rfl, h⟩
  | cons b bs ih =>
    obtain ⟨u, u', hu, hu', htw⟩ := receiveByte_alike h b
    simpa only [receiveBytes, hu, hu'] using ih htw

/-! ### Every instruction ends alike -/

/-- Both outcomes are next states that are similar, or the same refusal. -/
def EndAlike (o o' : Host.Outcome State Fault Refusal) : Prop :=
  (∃ t t', o = .next t ∧ o' = .next t' ∧ t.similar t') ∨ ∃ r, o = .refused r ∧ o' = .refused r

theorem endAlike_setResult {s s' : State} (h : s.similar s') (r : Result) :
    EndAlike (.next (s.setResult r)) (.next (s'.setResult r)) :=
  .inl ⟨_, _, rfl, rfl, h.setResult r⟩

theorem endAlike_refused (r : Refusal) : EndAlike (.refused r) (.refused r) := .inr ⟨r, rfl, rfl⟩

theorem AnswerAlike.setResult {x x' : Except Fault State} (h : AnswerAlike x x') (r : Result) :
    EndAlike (ofExcept (x.map (·.setResult r))) (ofExcept (x'.map (·.setResult r))) := by
  obtain ⟨u, u', rfl, rfl, htw⟩ := h
  exact endAlike_setResult htw.similar r

/-- Work that delivers the same from similar states gives the same payloads as its result. -/
theorem AnswerAlike.withPayloadsSince {x x' : Except Fault State} {s s' : State} (h : AnswerAlike x x')
    (hs : s.similar s') : EndAlike (ofExcept (x.map (·.withPayloadsSince s))) (ofExcept (x'.map (·.withPayloadsSince s'))) := by
  obtain ⟨u, u', rfl, rfl, htw⟩ := h
  obtain ⟨_, _, _, _, _, hdel, _⟩ := hs
  obtain ⟨_, _, _, _, _, hdel', _⟩ := htw.similar
  simp only [exceptMap_ok, ofExcept_ok, State.withPayloadsSince, hdel, hdel']
  exact endAlike_setResult htw.similar _

theorem popInst_endAlike {s s' : State} (h : Twins s s') (i : Inst) :
    EndAlike (ofExcept (popInst i s)) (ofExcept (popInst i s')) := by
  rcases h.pop_cases i with ⟨he, he'⟩ | ⟨b, f, g, hp, hq, htw⟩
  · rw [popInst_empty he, popInst_empty he']
    exact endAlike_setResult (h.similar.recordError .e7) _
  · rw [popInst_cons hp, popInst_cons hq]
    exact endAlike_setResult (htw.similar.notePop i b) _

/-- WRITE reads `TX_FIFO` through its length only. -/
theorem execWrite_endAlike {s s' : State} (h : Twins s s') (frame : Bytes) :
    EndAlike (execWrite frame s) (execWrite frame s') := by
  have hfree : s'.tx.freeSpace s'.cfg.cTx = s.tx.freeSpace s.cfg.cTx := by
    simp only [Fifo.freeSpace, h.similar.cfg_eq, show s'.tx.length = _ from (h.similar.fifo .tx).length_eq, State.fifo_tx]
  have hholds : writeHolds frame s' = writeHolds frame s := by
    rw [writeHolds, writeHolds, hfree, h.similar.cfg_eq]
  simp only [execWrite, hholds, h.similar.cfg_eq]
  split
  · exact endAlike_refused _
  · split
    · exact endAlike_setResult h.similar _
    · split
      · exact endAlike_refused _
      · exact (storeInst_alike h .tx frame).setResult _

theorem exec_endAlike {s s' : State} (h : Twins s s') (i : Instr) : EndAlike (exec i s) (exec i s') := by
  have hcfg := h.similar.cfg_eq
  cases i with
  | reset => exact endAlike_setResult h.similar.resetBlock _
  | push f b => exact (pushInst_alike h f b).setResult _
  | store f data =>
    simp only [exec, execStore]
    split
    · exact endAlike_refused _
    · exact (storeInst_alike h f data).setResult _
  | pop f => exact popInst_endAlike h f
  | length f =>
    simp only [exec, execLength, (h.similar.fifo f).length_eq]
    exact endAlike_setResult h.similar _
  | freeSpace f =>
    simp only [exec, execFreeSpace, Fifo.freeSpace, (h.similar.fifo f).length_eq, h.cap_eq]
    exact endAlike_setResult h.similar _
  | fifoReset f => exact endAlike_setResult (h.similar.setFifo f (Fifo.sameContents_clear _ _ _)) _
  | crc16 bytes =>
    simp only [exec, execCrc16, hcfg]
    split
    · exact endAlike_refused _
    · exact endAlike_setResult (h.similar.noteCrc _) _
  | encode payload =>
    simp only [exec, execEncode, hcfg]
    split
    · exact endAlike_refused _
    · exact endAlike_setResult (h.similar.noteCrc _) _
  | decode win =>
    simp only [exec, execDecode, hcfg]
    exact endAlike_setResult (h.similar.noteDecode win) _
  | feed b => exact (feedByte_alike h b).withPayloadsSince h.similar
  | poll =>
    simp only [exec, execPoll, show s'.rx.length = s.rx.length from (h.similar.fifo .rx).length_eq]
    exact (framerSteps_alike h).withPayloadsSince h.similar
  | framerReset => exact endAlike_setResult h.similar.discardAll _
  | write frame => exact execWrite_endAlike h frame
  | unassignedE hi => exact endAlike_refused _
  | unassignedF hi => exact endAlike_refused _
  | frameShort payload crc => exact (receiveBytes_alike h).withPayloadsSince h.similar
  | frameLong payload crc => exact (receiveBytes_alike h).withPayloadsSince h.similar

end Sys2Proof.Machine
end

section
/-! The verdicts of DECODE line by line (42_packet_codec R142). -/

namespace Sys2Proof.Machine

/-! ### The fields of a window -/

/-- The header of a window that begins with a marker (30_encoding R82, R84, R85). -/
theorem headerOf_of_marker {w : Bytes} {hdr len size : Nat}
    (h : (w[0]? = some 0x02 ∧ hdr = 2 ∧ len = (w.getD 1 0).toNat ∧ size = len + 5) ∨
      (w[0]? = some 0x03 ∧ hdr = 3 ∧ len = (w.getD 1 0).toNat * 256 + (w.getD 2 0).toNat ∧ size = len + 6)) :
    headerOf w = some ⟨hdr, len, size⟩ := by
  rcases h with ⟨h0, rfl, rfl, rfl⟩ | ⟨h0, rfl, rfl, rfl⟩
  · simp [headerOf, byteAt, h0, startShort, ovhShort]
  · simp [headerOf, byteAt, h0, startShort, startLong, ovhLong, be16_toNat]

theorem byteAt_eq_iff {w : Bytes} {i : Nat} {b : Byte} (hi : i < w.length) : byteAt w i = b ↔ w[i]? = some b := by
  simp [byteAt, hi]

theorem payloadOf_eq (w : Bytes) (h : Header) : payloadOf w h = (w.drop h.hdr).take h.len := by
  rw [payloadOf, slice, Nat.add_sub_cancel_left]

/-- The last byte of a packet that lies inside the window. -/
theorem lastByte_eq_iff {w : Bytes} {h : Header} (hh : headerOf w = some h) (hle : h.size ≤ w.length) (b : Byte) :
    byteAt w (h.size - 1) = b ↔ w[h.size - 1]? = some b := by
  have hsize := headerOf_size hh
  exact byteAt_eq_iff (by omega)

/-- A checksum is the CRC field as the two numbers agree (30_encoding R83). -/
theorem eq_crcFieldOf_iff (c : U16) (w : Bytes) (h : Header) :
    c = crcFieldOf w h ↔ c.toNat = (w.getD (h.size - 3) 0).toNat * 256 + (w.getD (h.size - 2) 0).toNat := by
  rw [← BitVec.toNat_inj, crcFieldOf, be16_toNat]
  rfl

/-! ### The lines -/

section
variable {c : Config} {w : Bytes} {h : Header} (hh : headerOf w = some h) (hz : c.zeroLen = .reject)
include hh hz

/-- Lines 1 to 8 on a window with a header, `ZERO_LEN = reject` (42_packet_codec R142). -/
theorem decodeWindow_of_header :
    decodeWindow c w =
      if w.length < 6 then .needMore else if h.len = 0 then .reject .zeroLen
      else if c.stgCap < h.size then .reject .oversize else if w.length < h.size then .needMore
      else if byteAt w (h.size - 1) ≠ endMark then .reject .badTerminator
      else if crc16 c.crc (payloadOf w h) ≠ crcFieldOf w h then .reject .badCrc else .ok h.hdr h.len h.size := by
  simp only [decodeWindow, checkWindow, minPacket, hh, hz, and_true]
  split_ifs <;> simp [*]

theorem decodeWindow_needMore_iff : decodeWindow c w = .needMore ↔
    w.length < 6 ∨ (h.len ≠ 0 ∧ h.size ≤ c.stgCap ∧ w.length < h.size) := by
  rw [decodeWindow_of_header hh hz]
  split_ifs <;> grind

theorem decodeWindow_zeroLen_iff : decodeWindow c w = .reject .zeroLen ↔ 6 ≤ w.length ∧ h.len = 0 := by
  rw [decodeWindow_of_header hh hz]
  split_ifs <;> grind

theorem decodeWindow_oversize_iff : decodeWindow c w = .reject .oversize ↔
    6 ≤ w.length ∧ h.len ≠ 0 ∧ c.stgCap < h.size := by
  rw [decodeWindow_of_header hh hz]
  split_ifs <;> grind

theorem decodeWindow_badTerminator_iff : decodeWindow c w = .reject .badTerminator ↔
    6 ≤ w.length ∧ h.len ≠ 0 ∧ h.size ≤ c.stgCap ∧ h.size ≤ w.length ∧ w[h.size - 1]? ≠ some endMark := by
  have hend := lastByte_eq_iff hh
  rw [decodeWindow_of_header hh hz]
  split_ifs <;> grind

theorem decodeWindow_badCrc_iff : decodeWindow c w = .reject .badCrc ↔
    6 ≤ w.length ∧ h.len ≠ 0 ∧ h.size ≤ c.stgCap ∧ h.size ≤ w.length ∧ w[h.size - 1]? = some endMark ∧
      ¬ crc16 c.crc (payloadOf w h) = crcFieldOf w h := by
  have hend := lastByte_eq_iff hh
  rw [decodeWindow_of_header hh hz]
  split_ifs <;> grind

theorem decodeWindow_ok_iff : decodeWindow c w = .ok h.hdr h.len h.size ↔
    6 ≤ w.length ∧ h.len ≠ 0 ∧ h.size ≤ c.stgCap ∧ h.size ≤ w.length ∧ w[h.size - 1]? = some endMark ∧
      crc16 c.crc (payloadOf w h) = crcFieldOf w h := by
  have hend := lastByte_eq_iff hh
  rw [decodeWindow_of_header hh hz]
  split_ifs <;> grind

end

/-- The accumulator after a DECODE, by its verdict (log 5): a CRC is computed with the verdict `BAD_CRC` or `ok` only. -/
theorem noteDecode_crcAcc_of_header {s : State} {w : Bytes} {h : Header} (hh : headerOf w = some h) :
    (s.noteDecode w).crcAcc =
      if s.cfg.crcSerial = true ∧ (decodeWindow s.cfg w = .reject .badCrc ∨ decodeWindow s.cfg w = .ok h.hdr h.len h.size)
      then crc16 s.cfg.crc (payloadOf w h) else s.crcAcc := by
  rw [State.noteDecode, decodeWindow]
  cases hc : checkWindow s.cfg w with
  | error v =>
    have hbad : v ≠ .reject .badCrc := fun he => checkWindow_error_ne_badCrc (he ▸ hc)
    have hok : v ≠ .ok h.hdr h.len h.size := fun he => checkWindow_error_ne_ok (he ▸ hc)
    simp [hbad, hok]
  | ok h' =>
    obtain ⟨_, hh', _⟩ := checkWindow_ok hc
    cases hh.symm.trans hh'
    by_cases hcrc : crc16 s.cfg.crc (payloadOf w h) = crcFieldOf w h <;> simp [hcrc]

end Sys2Proof.Machine
end

section
/-! Which operation reaches which storage (10_state R25, 20_memory R50): the frame of each group of operations, with no
assumption on the state it starts from. -/

namespace Sys2Proof.Machine

/-! ### The accumulator where the serial form is not built (log 5) -/

/-- The configuration is as before, and so is the accumulator where the serial CRC form is not built. -/
structure KeepsUnbuiltCrc (s t : State) : Prop where
  cfg    : t.cfg = s.cfg
  crcAcc : s.cfg.crcSerial = false → t.crcAcc = s.crcAcc

theorem KeepsUnbuiltCrc.refl (s : State) : KeepsUnbuiltCrc s s := ⟨rfl, fun _ => rfl⟩

theorem KeepsUnbuiltCrc.trans {s t u : State} (h : KeepsUnbuiltCrc s t) (k : KeepsUnbuiltCrc t u) : KeepsUnbuiltCrc s u :=
  ⟨k.cfg.trans h.cfg, fun hs => (k.crcAcc (h.cfg ▸ hs)).trans (h.crcAcc hs)⟩

theorem KeepsUnbuiltCrc.of_eq {s t : State} (hcfg : t.cfg = s.cfg) (hcrc : t.crcAcc = s.crcAcc) : KeepsUnbuiltCrc s t :=
  ⟨hcfg, fun _ => hcrc⟩

theorem KeepsUnbuiltCrc.noteCrc (s : State) (c : U16) : KeepsUnbuiltCrc s (s.noteCrc c) :=
  ⟨State.noteCrc_cfg s c, fun hs => by simp [hs]⟩

theorem KeepsUnbuiltCrc.noteDecode (s : State) (win : Bytes) : KeepsUnbuiltCrc s (s.noteDecode win) :=
  ⟨State.noteDecode_cfg s win, fun hs => by simp [State.noteDecode_crcAcc, hs]⟩

theorem passTrip_unbuiltCrc {win : Bytes} {s t : State} (h : passTrip win s = .ok (some t)) : KeepsUnbuiltCrc s t := by
  unfold passTrip at h
  split at h
  · cases h
  · obtain ⟨u, hu, heq⟩ := exceptMap_eq_ok h
    cases heq
    obtain ⟨hf, _, _, hcrc⟩ := shiftLeft_frame hu
    exact (KeepsUnbuiltCrc.noteDecode s win).trans (.of_eq hf.cfg hcrc)
  · obtain ⟨u, hu, heq⟩ := exceptMap_eq_ok h
    cases heq
    obtain ⟨hf, _, _, hcrc⟩ := react_frame hu
    exact (KeepsUnbuiltCrc.noteDecode s win).trans (.of_eq hf.cfg hcrc)

theorem passLoop_unbuiltCrc {k : Nat} {s t : State} (h : passLoop k s = .ok t) : KeepsUnbuiltCrc s t := by
  induction k generalizing s with
  | zero => cases h; exact .refl _
  | succ k ih =>
    unfold passLoop at h
    split at h
    · cases h; exact .refl _
    · split at h
      · cases h
      · split at h
        · cases h
        · cases h; exact .refl _
        · exact (passTrip_unbuiltCrc ‹_›).trans (ih h)

theorem feedByte_unbuiltCrc {b : Byte} {s t : State} (h : feedByte b s = .ok t) : KeepsUnbuiltCrc s t := by
  unfold feedByte appendByte decodePass at h
  split at h
  · cases h; exact .refl _
  · split at h
    · cases h
    · rename_i u hu
      split at hu
      · cases hu
        have hloop := passLoop_unbuiltCrc h
        exact ⟨hloop.cfg, hloop.crcAcc⟩
      · cases hu

theorem framerStep_unbuiltCrc {s t : State} (h : framerStep s = .ok t) : KeepsUnbuiltCrc s t := by
  unfold framerStep at h
  split at h
  · cases h
  · cases h; exact .refl _
  · have hfeed := feedByte_unbuiltCrc h
    exact ⟨hfeed.cfg, hfeed.crcAcc⟩

theorem framerSteps_unbuiltCrc {k : Nat} {s t : State} (h : framerSteps k s = .ok t) : KeepsUnbuiltCrc s t := by
  induction k generalizing s with
  | zero => cases h; exact .refl _
  | succ k ih =>
    unfold framerSteps at h
    split at h
    · cases h
    · exact (framerStep_unbuiltCrc ‹_›).trans (ih h)

theorem receiveByte_unbuiltCrc {b : Byte} {s t : State} (h : receiveByte b s = .ok t) : KeepsUnbuiltCrc s t := by
  unfold receiveByte at h
  split at h
  · cases h
  · obtain ⟨hf, _⟩ := pushInst_frame ‹_›
    exact .trans (.of_eq hf.cfg hf.crcAcc) (framerStep_unbuiltCrc h)

theorem receiveBytes_unbuiltCrc {bs : Bytes} {s t : State} (h : receiveBytes bs s = .ok t) : KeepsUnbuiltCrc s t := by
  induction bs generalizing s with
  | nil => cases h; exact .refl _
  | cons b bs ih =>
    unfold receiveBytes at h
    split at h
    · cases h
    · exact (receiveByte_unbuiltCrc ‹_›).trans (ih h)

/-! ### The operations by what they reach -/

/-- A computation whose answer is given a result. -/
theorem ofExcept_map_eq_next {x : Except Fault State} {g : State → State} {t : State}
    (h : ofExcept (x.map g) = .next t) : ∃ u, x = .ok u ∧ g u = t :=
  exceptMap_eq_ok (ofExcept_eq_next h)

theorem FifoFrame.setResult {x : Inst} {s t : State} (h : FifoFrame x s t) (r : Result) : FifoFrame x s (t.setResult r) :=
  ⟨h.cfg, by rw [← h.otherFifo]; cases x <;> rfl, h.framer, h.crcAcc, h.delivered, h.agent, h.pending⟩

theorem FifoFrame.refl (x : Inst) (s : State) : FifoFrame x s s := ⟨rfl, rfl, rfl, rfl, rfl, rfl, rfl⟩

/-- An operation that names a FIFO leaves the other one and the framer alone (10_state R25). -/
theorem exec_fifoFrame {x : Inst} {i : Instr} {s t : State} (h : exec i s = .next t)
    (hi : (∃ b, i = .push x b) ∨ (∃ d, i = .store x d) ∨ i = .pop x ∨ i = .length x ∨ i = .freeSpace x ∨ i = .fifoReset x) :
    FifoFrame x s t := by
  rcases hi with ⟨b, rfl⟩ | ⟨d, rfl⟩ | rfl | rfl | rfl | rfl
  · obtain ⟨u, hu, rfl⟩ := ofExcept_map_eq_next h
    exact (pushInst_frame hu).1.setResult _
  · rw [exec, execStore] at h
    split at h
    · cases h
    · obtain ⟨u, hu, rfl⟩ := ofExcept_map_eq_next h
      exact (storeInst_frame hu).1.setResult _
  · exact (popInst_frame (ofExcept_eq_next h)).1
  · cases h; exact (FifoFrame.refl x s).setResult _
  · cases h; exact (FifoFrame.refl x s).setResult _
  · cases h; exact (FifoFrame.setFifo s x _).setResult _

/-- FEED and FRAMER_RESET work in the framer alone. -/
theorem exec_framer_frame {i : Instr} {s t : State} (h : exec i s = .next t) (hi : (∃ b, i = .feed b) ∨ i = .framerReset) :
    t.rx = s.rx ∧ t.tx = s.tx ∧ t.txLine = s.txLine ∧ KeepsUnbuiltCrc s t := by
  rcases hi with ⟨b, rfl⟩ | rfl
  · obtain ⟨u, hu, rfl⟩ := ofExcept_map_eq_next h
    obtain ⟨hf, _⟩ := feedByte_frame hu
    exact ⟨hf.rx, hf.tx, hf.txLine, (feedByte_unbuiltCrc hu).trans (.of_eq rfl rfl)⟩
  · cases h
    exact ⟨rfl, rfl, rfl, .of_eq rfl rfl⟩

/-- POLL and a packet on the line leave the transmit side alone. -/
theorem exec_receive_frame {i : Instr} {s t : State} (h : exec i s = .next t)
    (hi : i = .poll ∨ (∃ p c, i = .frameShort p c) ∨ (∃ p c, i = .frameLong p c)) :
    t.tx = s.tx ∧ t.txLine = s.txLine ∧ KeepsUnbuiltCrc s t := by
  have hwork : ∃ u, (AgentFrame s u ∧ KeepsUnbuiltCrc s u) ∧ u.withPayloadsSince s = t := by
    rcases hi with rfl | ⟨p, c, rfl⟩ | ⟨p, c, rfl⟩ <;> obtain ⟨u, hu, rfl⟩ := ofExcept_map_eq_next h
    · exact ⟨u, ⟨(framerSteps_frame hu).1, framerSteps_unbuiltCrc hu⟩, rfl⟩
    · exact ⟨u, ⟨(receiveBytes_frame hu).1, receiveBytes_unbuiltCrc hu⟩, rfl⟩
    · exact ⟨u, ⟨(receiveBytes_frame hu).1, receiveBytes_unbuiltCrc hu⟩, rfl⟩
  obtain ⟨u, ⟨hf, hcrc⟩, rfl⟩ := hwork
  exact ⟨hf.tx, hf.txLine, hcrc.trans (.of_eq rfl rfl)⟩

/-- CRC16, ENCODE and DECODE leave every storage and the history alone. -/
theorem exec_codec_frame {i : Instr} {s t : State} (h : exec i s = .next t)
    (hi : (∃ d, i = .crc16 d) ∨ (∃ p, i = .encode p) ∨ (∃ w, i = .decode w)) :
    t.rx = s.rx ∧ t.tx = s.tx ∧ t.framer = s.framer ∧ t.delivered = s.delivered ∧ t.txLine = s.txLine ∧
      t.errors = s.errors ∧ KeepsUnbuiltCrc s t := by
  have hnote : (∃ c r, t = (s.noteCrc c).setResult r) ∨ ∃ w r, t = (s.noteDecode w).setResult r := by
    rcases hi with ⟨d, rfl⟩ | ⟨p, rfl⟩ | ⟨w, rfl⟩
    · rw [exec, execCrc16] at h
      split at h <;> cases h
      exact .inl ⟨_, _, rfl⟩
    · rw [exec, execEncode] at h
      split at h <;> cases h
      exact .inl ⟨_, _, rfl⟩
    · cases h
      exact .inr ⟨_, _, rfl⟩
  rcases hnote with ⟨c, r, rfl⟩ | ⟨w, r, rfl⟩
  · exact ⟨by simp, by simp, by simp, by simp, by simp, by simp, (KeepsUnbuiltCrc.noteCrc s c).trans (.of_eq rfl rfl)⟩
  · exact ⟨by simp, by simp, by simp, by simp, by simp, by simp, (KeepsUnbuiltCrc.noteDecode s w).trans (.of_eq rfl rfl)⟩

/-- WRITE reaches `TX_FIFO` alone, held or done. -/
theorem execWrite_frame {frame : Bytes} {s t : State} (h : exec (.write frame) s = .next t) :
    FifoFrame .tx s t ∧ t.txLine = s.txLine := by
  rw [exec] at h
  rcases execWrite_cases frame s with ⟨_, he⟩ | ⟨_, he⟩ | ⟨_, _, he⟩ | ⟨_, _, he⟩ <;> rw [he] at h
  · cases h
  · cases h
    exact ⟨(FifoFrame.refl .tx s).setResult _, rfl⟩
  · cases h
  · obtain ⟨u, hu, rfl⟩ := ofExcept_map_eq_next h
    obtain ⟨hf, hline, _⟩ := storeInst_frame hu
    exact ⟨hf.setResult _, hline⟩

end Sys2Proof.Machine
end

section
/-! The obligations about the state. -/

namespace Sys2Proof.Machine

/-- Settles O9: a step completes with the invariant or is a refusal, and only the first gives a state. -/
theorem stepKeepsInvariant : Obligations.StepKeepsInvariant := by
  intro s t h hstep
  rcases step_answers h with ⟨u, hu, hi⟩ | ⟨r, hr⟩
  · cases hstep.symm.trans hu
    exact hi
  · cases hstep.symm.trans hr

/-- Settles O28: similar states end every operation alike, by the operation. -/
theorem staleStorageIsUnobservable : Obligations.StaleStorageIsUnobservable := by
  intro i s s' hs hs' hsim
  rcases exec_endAlike ⟨hs, hs', hsim⟩ i with ⟨t, t', ht, ht', htt⟩ | ⟨r, hr, hr'⟩
  · rw [ht, ht']
    exact ⟨fun u hu => ⟨t', rfl, by cases hu; exact htt⟩, nofun⟩
  · rw [hr, hr']
    exact ⟨nofun, fun _ h => by cases h; rfl⟩

/-- Settles O8: no instruction writes the control fields, and serving a request writes no configuration. -/
theorem configurationNeverChanges : Obligations.ConfigurationNeverChanges :=
  ⟨fun _ _ _ h => (exec_keepsControl h).1, fun _ _ => step_keeps_cfg⟩

/-- Settles O32: the window's header gives `hdr`, `len` and `size`, and each verdict its line. -/
theorem decodeVerdictsInOrder : Obligations.DecodeVerdictsInOrder := by
  intro w s len hdr size hform hz
  have hh := headerOf_of_marker hform
  have hcrc := eq_crcFieldOf_iff (crc16 s.cfg.crc (payloadOf w ⟨hdr, len, size⟩)) w ⟨hdr, len, size⟩
  have hbad := decodeWindow_badCrc_iff hh hz
  have hok := decodeWindow_ok_iff hh hz
  have hacc := noteDecode_crcAcc_of_header (s := s) hh
  rw [hcrc] at hbad hok
  rw [payloadOf_eq] at hbad hok hacc
  exact ⟨_, decodeWindow s.cfg w, rfl, rfl, (FramerFrame.noteDecode s w).keepsControl, ⟨by simp, by simp, by simp⟩, by simp,
    by simp, by simp, decodeWindow_needMore_iff hh hz, decodeWindow_zeroLen_iff hh hz, decodeWindow_oversize_iff hh hz,
    decodeWindow_badTerminator_iff hh hz, hbad, hok, hacc⟩

/-- Settles O60, by the group of the operation. -/
theorem operationsReachOnlyTheirStorage : Obligations.OperationsReachOnlyTheirStorage := by
  intro s t i h
  refine ⟨fun x hi => ?fifo, fun hi => ?framer, fun hi => ?receive, fun hi => ?codec, fun hi => ?write⟩
  case fifo =>
    have hf := exec_fifoFrame h hi
    exact ⟨hf.otherFifo, hf.framer, hf.delivered, hf.crcAcc⟩
  case framer =>
    obtain ⟨hrx, htx, hline, hcrc⟩ := exec_framer_frame h hi
    exact ⟨hrx, htx, hline, hcrc.crcAcc⟩
  case receive =>
    obtain ⟨htx, hline, hcrc⟩ := exec_receive_frame h hi
    exact ⟨htx, hline, hcrc.crcAcc⟩
  case codec =>
    obtain ⟨hrx, htx, hfr, hdel, hline, herr, hcrc⟩ := exec_codec_frame h hi
    exact ⟨hrx, htx, hfr, hdel, hline, herr, hcrc.crcAcc⟩
  case write =>
    obtain ⟨frame, rfl⟩ := hi
    obtain ⟨hf, hline⟩ := execWrite_frame h
    exact ⟨hf.otherFifo, hf.framer, hf.delivered, hf.crcAcc, hline⟩

/-- Settles O10: empty FIFOs and an empty staging buffer are good at every valid capacity. -/
theorem resetMeetsInvariant : Obligations.ResetMeetsInvariant :=
  ⟨fun _ => State.inv_resetWith, State.inv_resetWith (by decide)⟩

/-- Settles O15, by the definition of the reset state. -/
theorem resetValues : Obligations.ResetValues :=
  ⟨fun _ => ⟨rfl, rfl, rfl, rfl, rfl, rfl, rfl⟩, rfl⟩

/-- Settles O17, by the definition of RESET. -/
theorem resetOperationRestartsHistory : Obligations.ResetOperationRestartsHistory :=
  fun s => ⟨(resetBlock s).setResult .none, rfl, rfl, rfl, rfl, rfl⟩

/-- Settles O26: `length` and 0 are distinct offsets below the capacity unless they are equal. -/
theorem reservedSlotTellsEmptyFromFull : Obligations.ReservedSlotTellsEmptyFromFull := by
  intro cap f hcap ⟨hstart, hlen, _⟩
  refine ⟨fun heq => ?_, fun h0 => by rw [h0, Nat.add_zero, Nat.mod_eq_of_lt hstart]⟩
  by_contra hne
  have hdiff := ring_ne (w := f.start) (k := f.length) (j := 0) (by omega) (by omega : 0 < cap) hne
  rw [Nat.add_zero, Nat.mod_eq_of_lt hstart] at hdiff
  exact hdiff heq

end Sys2Proof.Machine
end

section
/-! The storages (20_memory R50 to R61): the canonical form, the ascending copy of the staging shift, a STORE as two runs, and
a PUSH and a POP in both serial orders. -/

namespace Sys2Proof.Machine

/-! ### The canonical form -/

/-- In canonical form the bytes after the first entry are those at the indices above it. -/
theorem Memory.read_tail {a : Nat} {v : Byte} {m : Memory} (h : Memory.wf ((a, v) :: m) = true) (i : Nat) :
    m.read i = if a < i then Memory.read ((a, v) :: m) i else none := by
  induction m generalizing a v with
  | nil => simpa [Memory.read] using Nat.ne_of_lt
  | cons c m ih =>
    obtain ⟨b, w⟩ := c
    obtain ⟨hhead, hwf⟩ := Memory.wf_cons.1 h
    have hab : a < b := hhead (b, w) rfl
    by_cases hi : a < i
    · simp [Memory.read, hi, Nat.ne_of_lt hi]
    · have hrest := ih hwf
      rw [if_neg (by omega)] at hrest
      rw [if_neg hi, Memory.read, if_neg (by omega), hrest]

/-- In canonical form the first entry has the least index at which a byte is written. -/
theorem Memory.head_le_of_read {a i : Nat} {v w : Byte} {m : Memory} (h : Memory.wf ((a, v) :: m) = true)
    (hr : Memory.read ((a, v) :: m) i = some w) : a ≤ i := by
  by_contra hlt
  have hrest := Memory.read_tail h i
  rw [if_neg (by omega)] at hrest
  rw [Memory.read, if_neg (by omega), hrest] at hr
  cases hr

/-- A storage in canonical form is determined by what it reads as. -/
theorem Memory.ext_of_wf {m m' : Memory} (h : m.wf = true) (h' : m'.wf = true) (heq : ∀ i, m.read i = m'.read i) : m = m' := by
  induction m generalizing m' with
  | nil =>
    cases m' with
    | nil => rfl
    | cons c m' => have hc := heq c.1; simp [Memory.read] at hc
  | cons c m ih =>
    obtain ⟨a, v⟩ := c
    have hv : Memory.read ((a, v) :: m) a = some v := by simp [Memory.read]
    cases m' with
    | nil => cases (heq a).symm.trans hv
    | cons d m' =>
      obtain ⟨b, w⟩ := d
      have hw : Memory.read ((b, w) :: m') b = some w := by simp [Memory.read]
      have hab : a = b := Nat.le_antisymm (Memory.head_le_of_read h ((heq b).trans hw))
        (Memory.head_le_of_read h' ((heq a).symm.trans hv))
      subst hab
      cases (hv.symm.trans (heq a)).trans hw
      have htail : m = m' := ih (Memory.wf_cons.1 h).2 (Memory.wf_cons.1 h').2 fun i => by
        rw [Memory.read_tail h, Memory.read_tail h', heq]
      rw [htail]

/-! ### The ascending copy -/

/-- An ascending copy to lower indices writes the bytes that stood there at first: each is read before it is overwritten
(20_memory R61). -/
theorem copyDown_eq_writeRun {cap k i : Nat} {m : Memory} {bs : Bytes} (hk : 1 ≤ k) (hcap : i + k + bs.length ≤ cap)
    (h : ∀ j, j < bs.length → m.read (i + k + j) = bs[j]?) : copyDown cap k m i bs.length = writeRun cap m i bs := by
  induction bs generalizing i m with
  | nil => rfl
  | cons b bs ih =>
    simp only [List.length_cons] at hcap h ⊢
    have hread : m.read (i + k) = some b := h 0 (by omega)
    have hrest : copyDown cap k (m.write i b) (i + 1) bs.length = writeRun cap (m.write i b) (i + 1) bs := by
      refine ih (by omega) fun j hj => ?_
      rw [Memory.read_write_ne _ _ (by omega), (by omega : i + 1 + k + j = i + k + (j + 1)), h (j + 1) (by omega)]
      rfl
    simp only [copyDown, writeRun, storageRead_ok (by omega : i + k < cap) hread, storageWrite_ok m b (by omega : i < cap), hrest]

/-! ### The ring as runs -/

theorem writeRing_mod (cap : Nat) (m : Memory) (w : Nat) (bs : Bytes) :
    writeRing cap m (w % cap) bs = writeRing cap m w bs := by
  induction bs generalizing m w with
  | nil => rfl
  | cons b bs ih =>
    have hstep (m' : Memory) : writeRing cap m' (w % cap + 1) bs = writeRing cap m' (w + 1) bs := by
      rw [← ih m' (w % cap + 1), Nat.mod_add_mod, ih]
    simp only [writeRing, Nat.mod_mod, hstep]

theorem writeRing_append {cap : Nat} {m m' : Memory} {w : Nat} {bs : Bytes} (cs : Bytes) (h : writeRing cap m w bs = .ok m') :
    writeRing cap m w (bs ++ cs) = writeRing cap m' (w + bs.length) cs := by
  induction bs generalizing m w with
  | nil => cases h; rfl
  | cons b bs ih =>
    simp only [List.cons_append, writeRing] at h ⊢
    cases hw : storageWrite cap m (w % cap) b with
    | error e => rw [hw] at h; cases h
    | ok m1 =>
      rw [hw] at h
      rw [List.length_cons, (by omega : w + (bs.length + 1) = w + 1 + bs.length)]
      exact ih h

/-- Up to the end of the storage the ring is a run. -/
theorem writeRing_eq_writeRun {cap w : Nat} (m : Memory) {bs : Bytes} (h : w + bs.length ≤ cap) :
    writeRing cap m w bs = writeRun cap m w bs := by
  induction bs generalizing m w with
  | nil => rfl
  | cons b bs ih =>
    simp only [List.length_cons] at h
    have hrest (m' : Memory) : writeRing cap m' (w + 1) bs = writeRun cap m' (w + 1) bs := ih m' (by omega)
    simp only [writeRing, writeRun, Nat.mod_eq_of_lt (by omega : w < cap), hrest]

/-- Bytes that fit go to the end of the storage, and the others on from index 0 (20_memory R57). -/
theorem writeRing_two_runs {cap w : Nat} (m : Memory) {data : Bytes} (hw : w < cap) (hlen : data.length ≤ cap) :
    ∃ m1 m2, writeRun cap m w (data.take (min data.length (cap - w))) = .ok m1 ∧
      writeRun cap m1 0 (data.drop (min data.length (cap - w))) = .ok m2 ∧ writeRing cap m w data = .ok m2 := by
  generalize hn : min data.length (cap - w) = n
  have hfirst : w + (data.take n).length ≤ cap := by simp only [List.length_take]; omega
  have hsecond : 0 + (data.drop n).length ≤ cap := by simp only [List.length_drop]; omega
  obtain ⟨m1, h1, _⟩ := writeRun_spec (m := m) hfirst
  obtain ⟨m2, h2, _⟩ := writeRun_spec (m := m1) hsecond
  refine ⟨m1, m2, h1, h2, ?_⟩
  have hwrap : writeRing cap m1 (w + (data.take n).length) (data.drop n) = writeRun cap m1 0 (data.drop n) := by
    by_cases hfit : data.length ≤ cap - w
    · rw [List.drop_eq_nil_of_le (by omega)]
      rfl
    · have hend : w + (data.take n).length = cap := by simp only [List.length_take]; omega
      rw [← writeRing_mod, hend, Nat.mod_self, writeRing_eq_writeRun m1 hsecond]
  calc writeRing cap m w data = writeRing cap m w (data.take n ++ data.drop n) := by rw [List.take_append_drop]
    _ = writeRing cap m1 (w + (data.take n).length) (data.drop n) :=
      writeRing_append _ ((writeRing_eq_writeRun m hfirst).trans h1)
    _ = .ok m2 := hwrap.trans h2

/-! ### PUSH, STORE and POP on their instance -/

theorem State.fifo_noteOverflow_setFifo (s : State) (i : Inst) (f : Fifo) (ov : Bool) :
    ((s.setFifo i f).noteOverflow ov).fifo i = f := by
  cases i <;> simp [State.fifo]

theorem State.fifo_notePop_setFifo (s : State) (i : Inst) (f : Fifo) (b : Byte) : ((s.setFifo i f).notePop i b).fifo i = f := by
  cases i <;> simp [State.fifo]

/-- PUSH from a good state completes, its instance becoming what `fifoPush` answers. -/
theorem exec_push_next {s : State} (h : s.inv) (i : Inst) (b : Byte) :
    ∃ t f ov, exec (.push i b) s = .next t ∧ t.inv ∧ t.cap i = s.cap i ∧ t.fifo i = f ∧
      fifoPush (s.cap i) (s.fifo i) b = .ok (f, ov) := by
  obtain ⟨f, ov, he, hf, hpush⟩ := pushInst_spec h i b
  exact ⟨((s.setFifo i f).noteOverflow ov).setResult .none, f, ov, by simp [exec, execPush, he],
    State.inv_noteOverflow (State.inv_setFifo h hf) ov, State.cap_of_cfg (by simp) i,
    State.fifo_noteOverflow_setFifo s i f ov, hpush⟩

/-- POP from a good state completes, its instance and its result being what `fifoPop` answers. -/
theorem exec_pop_next {s : State} (h : s.inv) (i : Inst) :
    ∃ t ok b f, exec (.pop i) s = .next t ∧ t.inv ∧ t.cap i = s.cap i ∧ t.result = .popped ok b ∧ t.fifo i = f ∧
      fifoPop (s.cap i) (s.fifo i) = .ok (ok, b, f) := by
  by_cases hne : (s.fifo i).length = 0
  · exact ⟨(s.recordError .e7).setResult (.popped false popEmptyData), false, popEmptyData, s.fifo i,
      by rw [exec, execPop, popInst_empty hne, ofExcept_ok], State.inv_congr h rfl rfl rfl rfl, State.cap_of_cfg rfl i, rfl,
      by cases i <;> rfl, fifoPop_empty hne⟩
  · obtain ⟨b, f, hp, hf, _⟩ := fifoPop_ok (State.inv_fifo h i) hne
    exact ⟨((s.setFifo i f).notePop i b).setResult (.popped true b), true, b, f,
      by rw [exec, execPop, popInst_cons hp, ofExcept_ok],
      State.inv_congr (State.inv_setFifo h hf) (by simp) (by simp) (by simp) (by simp), State.cap_of_cfg (by simp) i, rfl,
      State.fifo_notePop_setFifo s i f b, hp⟩

/-- STORE of bytes that fit completes, the storage of its instance becoming what `writeRing` answers. -/
theorem exec_store_next {i : Inst} {data : Bytes} {s : State} {m : Memory} (hcount : data.length ≤ 65535)
    (hroom : data.length ≤ (s.fifo i).freeSpace (s.cap i))
    (hm : writeRing (s.cap i) (s.fifo i).mem ((s.fifo i).start + (s.fifo i).length) data = .ok m) :
    ∃ t, exec (.store i data) s = .next t ∧ (t.fifo i).mem = m := by
  have hstore : fifoStore (s.cap i) (s.fifo i) data =
      .ok ({ s.fifo i with mem := m, length := (s.fifo i).length + data.length }, false) := by
    simp [fifoStore, Nat.not_lt.2 hroom, hm]
  refine ⟨_, by rw [exec, execStore, if_neg (by rw [countMax]; omega), storeInst, hstore]; rfl, ?_⟩
  exact congrArg Fifo.mem (State.fifo_noteOverflow_setFifo s i _ false)

/-! ### The two serial orders at the edges (20_memory R60) -/

theorem State.two_le_cap {s : State} (h : s.inv) (i : Inst) : 2 ≤ s.cap i := by
  obtain ⟨⟨hrx, htx, _⟩, _⟩ := h
  cases i
  · exact hrx
  · exact htx

section
variable {s : State} {i : Inst} {bs : Bytes}

/-- PUSH on an instance with room appends its byte. -/
theorem exec_push_appends (h : s.inv) (hb : (s.fifo i).holds (s.cap i) bs) (hlen : bs.length < s.cap i - 1) (b : Byte) :
    ∃ t, exec (.push i b) s = .next t ∧ t.inv ∧ t.cap i = s.cap i ∧ (t.fifo i).holds (s.cap i) (bs ++ [b]) := by
  obtain ⟨t, f, ov, he, hi, hcap, hfifo, hpush⟩ := exec_push_next h i b
  rw [fifoPush_room b (by omega) (by rw [hb.1]; omega)] at hpush
  cases hpush
  exact ⟨t, he, hi, hcap, hfifo ▸ Fifo.holds_push b hb hlen⟩

/-- PUSH on a full instance empties it. -/
theorem exec_push_empties (h : s.inv) (hfull : (s.fifo i).length = s.cap i - 1) (b : Byte) :
    ∃ t, exec (.push i b) s = .next t ∧ t.inv ∧ t.cap i = s.cap i ∧ (t.fifo i).length = 0 := by
  obtain ⟨t, f, ov, he, hi, hcap, hfifo, hpush⟩ := exec_push_next h i b
  rw [fifoPush_full b hfull] at hpush
  cases hpush
  exact ⟨t, he, hi, hcap, hfifo ▸ rfl⟩

/-- POP on an empty instance answers the sentinel and leaves it. -/
theorem exec_pop_sentinel (h : s.inv) (hempty : (s.fifo i).length = 0) :
    ∃ t, exec (.pop i) s = .next t ∧ t.inv ∧ t.cap i = s.cap i ∧ t.result = .popped false 0xFF ∧ t.fifo i = s.fifo i := by
  obtain ⟨t, ok, b, f, he, hi, hcap, hres, hfifo, hpop⟩ := exec_pop_next h i
  rw [fifoPop_empty hempty] at hpop
  cases hpop
  exact ⟨t, he, hi, hcap, hres, hfifo⟩

/-- POP on an instance that holds bytes takes the oldest. -/
theorem exec_pop_takes_head {b : Byte} (h : s.inv) (hb : (s.fifo i).holds (s.cap i) (b :: bs)) :
    ∃ t, exec (.pop i) s = .next t ∧ t.inv ∧ t.cap i = s.cap i ∧ t.result = .popped true b ∧ (t.fifo i).holds (s.cap i) bs := by
  obtain ⟨t, ok, v, f, he, hi, hcap, hres, hfifo, hpop⟩ := exec_pop_next h i
  have hstart := (State.inv_fifo h i).1
  rw [fifoPop_cons hstart hb] at hpop
  cases hpop
  exact ⟨t, he, hi, hcap, hres, hfifo ▸ Fifo.holds_pop hb⟩

end

/-! ### The obligations -/

/-- Settles O13: the entries of a canonical storage are the indices it reads at, in order. -/
theorem storagesThatReadAlikeAreEqual : Obligations.StoragesThatReadAlikeAreEqual :=
  fun _ _ => Memory.ext_of_wf

/-- Settles O14: the ascending copy writes the same run as the shift. -/
theorem stagingShiftIsAscendingCopy : Obligations.StagingShiftIsAscendingCopy := by
  intro s win k hholds hroom hk hkn
  obtain ⟨hindex, hread⟩ := hholds
  obtain ⟨m, hrun, hin, _⟩ := writeRun_spec (cap := s.cfg.stgCap) (m := s.framer.stg) (bs := win.drop k) (i := 0)
    (by simp only [List.length_drop]; omega)
  have hcopy : copyDown s.cfg.stgCap k s.framer.stg 0 (win.drop k).length = .ok m := by
    refine (copyDown_eq_writeRun hk (by simp only [List.length_drop]; omega) fun j hj => ?_).trans hrun
    rw [List.length_drop] at hj
    rw [Nat.zero_add, hread (k + j) (by omega), List.getElem?_drop]
  refine ⟨m, by rwa [List.length_drop] at hcopy, by simp only [shiftLeft, hrun]; rfl, ?_, fun j hj => ?_⟩
  · simp only [List.length_drop]; omega
  · simpa using hin j hj

/-- Settles O21: the ring from `start + length` is the run from `w` to the end and the run from 0. -/
theorem storeIsTwoRuns : Obligations.StoreIsTwoRuns := by
  rintro i data s w hcap hcount hroom rfl
  obtain ⟨m1, m2, h1, h2, hring⟩ := writeRing_two_runs (s.fifo i).mem (data := data)
    (Nat.mod_lt ((s.fifo i).start + (s.fifo i).length) (by omega : 0 < s.cap i)) (by omega)
  rw [writeRing_mod] at hring
  obtain ⟨t, he, hmem⟩ := exec_store_next hcount hroom hring
  exact ⟨t, m1, m2, he, h1, h2, hmem⟩

/-- Settles O27: at each edge the first operation leaves an instance on which the second does what it does there. -/
theorem coincidentPushAndPopAtTheEdges : Obligations.CoincidentPushAndPopAtTheEdges := by
  intro i b s h
  have hcap2 := State.two_le_cap h i
  obtain ⟨bs, hb, hlen⟩ := Fifo.ok_holds (State.inv_fifo h i)
  refine ⟨fun hempty => ?_, fun hfull => ?_⟩
  · obtain rfl : bs = [] := List.eq_nil_of_length_eq_zero (hb.1.symm.trans hempty)
    constructor
    · obtain ⟨t, ht, hti, hcap, hres, hfifo⟩ := exec_pop_sentinel h hempty
      rw [← hcap] at hb hcap2
      rw [← hfifo] at hb
      obtain ⟨u, hu, _, _, hub⟩ := exec_push_appends hti hb (Nat.sub_pos_of_lt hcap2) b
      exact ⟨t, u, ht, hres, hu, hcap ▸ hub⟩
    · obtain ⟨t, ht, hti, hcap, htb⟩ := exec_push_appends h hb (Nat.sub_pos_of_lt hcap2) b
      obtain ⟨u, hu, _, _, hres, hub⟩ := exec_pop_takes_head hti (hcap.symm ▸ htb)
      exact ⟨t, u, ht, hu, hres, hub.1⟩
  · constructor
    · obtain ⟨t, ht, hti, _, ht0⟩ := exec_push_empties h hfull b
      obtain ⟨u, hu, _, _, hres, _⟩ := exec_pop_sentinel hti ht0
      exact ⟨t, u, ht, ht0, hu, hres⟩
    · have hl := hb.1
      obtain ⟨v, vs, rfl⟩ := List.exists_cons_of_length_pos (by omega : 0 < bs.length)
      obtain ⟨t, ht, hti, hcap, hres, htb⟩ := exec_pop_takes_head h hb
      rw [← hcap] at htb
      obtain ⟨u, hu, _, _, hub⟩ := exec_push_appends hti htb (by simp only [List.length_cons] at hl; omega) b
      exact ⟨v, vs, t, u, hb, ht, hres, hu, hcap ▸ hub⟩

end Sys2Proof.Machine
end

section
/-! Encoding (30_encoding R80 to R91): what the fields of an operation word say, which words select an operation, and that the
decoder undoes the encoder. -/

namespace Sys2Proof

/-! ### The fields of an operation word -/

theorem opField_toNat (w : Byte) : (opField w).toNat = w.toNat % 16 := by
  simp [opField, BitVec.extractLsb'_toNat]

theorem zeroField_eq_zero_iff (w : Byte) : zeroField w = 0 ↔ w.toNat / 32 = 0 := by
  have hw := w.isLt
  rw [← BitVec.toNat_inj, zeroField, BitVec.extractLsb'_toNat, Nat.shiftRight_eq_div_pow]
  show w.toNat / 32 % 8 = 0 ↔ _
  omega

theorem instField_eq_tx_iff (w : Byte) : instField w = .tx ↔ w.toNat / 16 % 2 = 1 := by
  simp [instField, BitVec.getLsbD, Nat.testBit_eq_decide_div_mod_eq]

theorem word_eq_of_op {w op : Byte} (hop : w.toNat % 16 = op.toNat) (hhigh : w.toNat / 16 = 0) : op = w :=
  BitVec.eq_of_toNat_eq (by omega)

/-- The word of an operation that takes an instance is made of its two fields (30_encoding R90). -/
theorem fifoWord_instField {w op : Byte} (hop : w.toNat % 16 = op.toNat) (hzero : w.toNat / 32 = 0) :
    fifoWord (instField w) op = w := by
  have htx := instField_eq_tx_iff w
  cases hf : instField w with
  | rx => exact word_eq_of_op hop (by simp only [hf, reduceCtorEq, false_iff] at htx; omega)
  | tx =>
    have hor : 16 ||| op.toNat = 16 + op.toNat := (Nat.two_pow_add_eq_or_of_lt (i := 4) (by omega) 1).symm
    have hbit := htx.1 hf
    apply BitVec.eq_of_toNat_eq
    show 16 ||| op.toNat = w.toNat
    omega

/-! ### Which words select an operation -/

/-- The words of 30_encoding R91: `op` in E, F; `opw[7:5]` not zero; an instance on an operation that takes none. -/
def ReservedWord (w : Byte) : Prop :=
  14 ≤ w.toNat % 16 ∨ w.toNat / 32 ≠ 0 ∨ (w.toNat / 16 % 2 = 1 ∧ (w.toNat % 16 = 0 ∨ 7 ≤ w.toNat % 16))

/-- Both ways in which a request selects no operation: no instruction, or one of the two unassigned rows. -/
def SelectsNone (x : Except DecodeReject Instr) : Prop :=
  (∃ why, x = .error why) ∨ ∃ hi, x = .ok (.unassignedE hi) ∨ x = .ok (.unassignedF hi)

theorem withInst_ok {w : Byte} (h : w.toNat / 32 = 0) (mk : Inst → Instr) : withInst w mk = .ok (mk (instField w)) :=
  if_pos ((zeroField_eq_zero_iff w).2 h)

theorem withInst_selectsNone {w : Byte} (h : w.toNat / 32 ≠ 0) (mk : Inst → Instr) : SelectsNone (withInst w mk) :=
  .inl ⟨_, if_neg (mt (zeroField_eq_zero_iff w).1 h)⟩

theorem withoutInst_ok {w : Byte} (h : w.toNat / 16 = 0) (i : Instr) : withoutInst w i = .ok i := by
  have hzero : zeroField w = 0 := (zeroField_eq_zero_iff w).2 (by omega)
  have hinst : instField w ≠ .tx := mt (instField_eq_tx_iff w).1 (by omega)
  simp [withoutInst, hzero, hinst]

theorem withoutInst_selectsNone {w : Byte} (h : w.toNat / 32 ≠ 0 ∨ w.toNat / 16 % 2 = 1) (i : Instr) :
    SelectsNone (withoutInst w i) := by
  rw [withoutInst]
  split
  · exact .inl ⟨_, rfl⟩
  · rename_i hzero
    rw [ne_eq, not_not, zeroField_eq_zero_iff] at hzero
    exact .inl ⟨_, if_pos ((instField_eq_tx_iff w).2 (by omega))⟩

/-- The three kinds of row of 30_encoding R90, R91, by the code. -/
theorem decodeOp_reserved {r : OpRequest} (h : ReservedWord r.opw) : SelectsNone (decodeOp r) := by
  have hop := opField_toNat r.opw
  unfold ReservedWord at h
  unfold decodeOp
  split <;> rename_i hcode
  case h_2 | h_3 | h_4 | h_5 | h_6 | h_7 => exact withInst_selectsNone (by omega) _
  case h_15 => exact .inr ⟨_, .inl rfl⟩
  case h_16 => exact .inr ⟨_, .inr rfl⟩
  all_goals exact withoutInst_selectsNone (by omega) _

/-- A word that is not reserved selects the operation of its code, and its two fields make the word up. -/
theorem decodeOp_not_reserved {r : OpRequest} (h : ¬ ReservedWord r.opw) :
    ∃ i q, decodeOp r = .ok i ∧ encode i = .op q ∧ q.opw = r.opw := by
  have hop := opField_toNat r.opw
  have hw := r.opw.isLt
  unfold ReservedWord at h
  unfold decodeOp
  split <;> rename_i hcode
  case h_2 | h_3 | h_4 | h_5 | h_6 | h_7 =>
    exact ⟨_, _, withInst_ok (by omega) _, rfl, fifoWord_instField (hop.symm.trans hcode) (by omega)⟩
  case h_15 => omega
  case h_16 =>
    simp only [imp_false] at *
    omega
  all_goals exact ⟨_, _, withoutInst_ok (by omega) _, rfl, word_eq_of_op (hop.symm.trans hcode) (by omega)⟩

/-! ### Packets on the line -/

theorem hi8_ofNat (n : Nat) : hi8 (BitVec.ofNat 16 n) = BitVec.ofNat 8 (n / 256) := by
  apply BitVec.eq_of_toNat_eq
  rw [hi8_toNat, BitVec.toNat_ofNat, BitVec.toNat_ofNat]
  omega

theorem lo8_ofNat (n : Nat) : lo8 (BitVec.ofNat 16 n) = BitVec.ofNat 8 (n % 256) := by
  apply BitVec.eq_of_toNat_eq
  rw [lo8_toNat, BitVec.toNat_ofNat, BitVec.toNat_ofNat]
  omega

/-- The rest of a packet is cut off where it ends. -/
theorem takeFrame_append {p : Bytes} (hp : 1 ≤ p.length) (crc : U16) (rest : Bytes) (mk : Bytes → U16 → Instr) :
    takeFrame p.length (p ++ ([hi8 crc, lo8 crc, endMark] ++ rest)) mk = .ok (mk p crc, rest) := by
  simp [takeFrame, Nat.ne_of_gt hp]

theorem decodeLine_shortFrame {p : Bytes} (hp : 1 ≤ p.length) (hmax : p.length ≤ shortMax) (crc : U16) (rest : Bytes) :
    decodeLine (shortFrame p crc ++ rest) = .ok (.frameShort p crc, rest) := by
  have hlen : (BitVec.ofNat 8 p.length).toNat = p.length := Nat.mod_eq_of_lt (Nat.lt_succ_of_le hmax)
  simp only [shortFrame, List.append_assoc, List.cons_append, List.nil_append, decodeLine, if_true, hlen]
  exact takeFrame_append hp crc rest .frameShort

theorem decodeLine_longFrame {p : Bytes} (hp : 1 ≤ p.length) (hmax : p.length ≤ lMax) (crc : U16) (rest : Bytes) :
    decodeLine (longFrame p crc ++ rest) = .ok (.frameLong p crc, rest) := by
  have hlen : (BitVec.ofNat 16 p.length).toNat = p.length := Nat.mod_eq_of_lt (Nat.lt_succ_of_le hmax)
  have hmark : ¬ startLong = startShort := by decide
  simp only [longFrame, List.append_assoc, List.cons_append, List.nil_append, decodeLine, hmark, if_false, if_true,
    be16_hi8_lo8, hlen]
  exact takeFrame_append hp crc rest .frameLong

/-! ### The decoder undoes the encoder -/

theorem decodeOp_encode {i : Instr} {r : OpRequest} (h : encode i = .op r) : decodeOp r = .ok i := by
  cases i with
  | push f _ | store f _ | pop f | length f | freeSpace f | fifoReset f =>
    cases h
    cases f <;> simp [decodeOp, opField, withInst, fifoWord, zeroField, instField]
  | unassignedE hi => cases h; revert hi; decide
  | unassignedF hi => cases h; revert hi; decide
  | frameShort _ _ | frameLong _ _ => cases h
  | _ => cases h; simp [decodeOp, opField, withoutInst, zeroField, instField]

theorem decodeLine_encode {i : Instr} (hwf : i.wellFormed = true) {bytes : Bytes} (h : encode i = .line bytes)
    (rest : Bytes) : decodeLine (bytes ++ rest) = .ok (i, rest) := by
  cases i with
  | frameShort payload crc =>
    cases h
    obtain ⟨hmin, hmax⟩ := by simpa [Instr.wellFormed] using hwf
    exact decodeLine_shortFrame hmin hmax crc rest
  | frameLong payload crc =>
    cases h
    obtain ⟨hmin, hmax⟩ := by simpa [Instr.wellFormed] using hwf
    exact decodeLine_longFrame hmin hmax crc rest
  | _ => cases h

/-! ### The obligations -/

end Sys2Proof

namespace Sys2Proof.Machine

/-- ENCODE of a payload in its domain emits the packet and leaves the rest of the block alone (42_packet_codec R140). -/
theorem exec_encode_completes {p : Bytes} (hmin : 1 ≤ p.length) (hmax : p.length ≤ 65535) (s : State) :
    ∃ t, exec (.encode p) s = .next t ∧ t.result = .frame (frameOf s.cfg.crc p) ∧
      keepsControl s t ∧ keepsFifos s t ∧ t.framer = s.framer ∧ t.delivered = s.delivered ∧ t.errors = s.errors := by
  have he : exec (.encode p) s = .next ((s.noteCrc (crc16 s.cfg.crc p)).setResult (.frame (frameOf s.cfg.crc p))) :=
    if_neg (by simp only [lMax]; omega)
  obtain ⟨hrx, htx, hframer, hdelivered, hline, herrors, _⟩ := exec_codec_frame he (.inr (.inl ⟨p, rfl⟩))
  exact ⟨_, he, rfl, exec_keepsControl he, ⟨hrx, htx, hline⟩, hframer, hdelivered, herrors⟩

theorem frameOf_short {p : Bytes} {c : CrcParams} (h : p.length ≤ 255) : frameOf c p =
    [0x02, BitVec.ofNat 8 p.length] ++ p ++ [hi8 (crc16 c p), lo8 (crc16 c p), 0x03] :=
  if_pos h

theorem frameOf_long {p : Bytes} {c : CrcParams} (h : 256 ≤ p.length) : frameOf c p =
    [0x03, BitVec.ofNat 8 (p.length / 256), BitVec.ofNat 8 (p.length % 256)] ++ p ++
      [hi8 (crc16 c p), lo8 (crc16 c p), 0x03] := by
  rw [← hi8_ofNat, ← lo8_ofNat]
  exact if_neg (Nat.not_le.2 h)

/-- Settles O4: an operation request read back row by row, a packet by the length in its header. -/
theorem decodeInvertsEncode : Obligations.DecodeInvertsEncode := by
  intro i rest hwf
  split
  · exact decodeOp_encode ‹_›
  · exact decodeLine_encode hwf ‹_› rest

/-- Settles O2: the request is enabled, and its word is no instruction or an unassigned one. -/
theorem reservedWordsRefused : Obligations.ReservedWordsRefused := by
  intro s a r es hp hreserved
  have hstep : Event.enabled s (.op a r) = true → step s = serve (.op a r) es s := step_of_head hp
  rcases decodeOp_reserved hreserved with ⟨why, hdec⟩ | ⟨hi, hdec | hdec⟩ <;>
    rw [hstep (by simp [Event.enabled, hdec, instrHolds]), serve, hdec] <;> rfl

/-- Settles O3, by the code of the word. -/
theorem otherWordsSelectOneOperation : Obligations.OtherWordsSelectOneOperation :=
  fun _ h => decodeOp_not_reserved h

/-- Settles O31, by the three ranges of the payload's length. -/
theorem encodeEmitsOneForm : Obligations.EncodeEmitsOneForm := by
  intro p s
  refine ⟨fun hout => if_pos (by simp only [lMax]; omega), fun hmin hmax => ?_, fun hmin hmax => ?_⟩
  · rw [← frameOf_short hmax]
    exact exec_encode_completes hmin (by omega) s
  · rw [← frameOf_long hmin]
    exact exec_encode_completes (by omega) hmax s

/-- Settles O1, by computing the fields of each word. -/
theorem operationWordsSelectOperations : Obligations.OperationWordsSelectOperations := by
  intro b d
  simp [decodeOp, opField, withInst, withoutInst, zeroField, instField]

/-- Settles O57, by the meaning of the two codes. -/
theorem unassignedCodesRefused : Obligations.UnassignedCodesRefused :=
  fun _ _ => ⟨rfl, rfl⟩

end Sys2Proof.Machine
end

section
/-! A packet on the line (30_encoding R80 to R89, 44_boundary R190, R191; log 15): DECODE on a packet and on its beginnings, and
what the bytes of a packet do one after another when `RX_FIFO` is empty. -/

namespace Sys2Proof.Machine

/-! ### DECODE on a packet -/

/-- A packet with payload `p` between a header `hd` and its CRC field and end marker, in either form. -/
structure IsPacket (w hd p : Bytes) (crc : U16) : Prop where
  bytes  : w = hd ++ p ++ [hi8 crc, lo8 crc, endMark]
  header : headerOf w = some ⟨hd.length, p.length, w.length⟩
  marker : isCandidate (byteAt w 0) = true
  nonempty : 1 ≤ p.length
  two_le : 2 ≤ hd.length

theorem shortFrame_isPacket {p : Bytes} (hp : 1 ≤ p.length) (hmax : p.length ≤ 255) (crc : U16) :
    IsPacket (shortFrame p crc) [startShort, BitVec.ofNat 8 p.length] p crc := by
  have hlen : p.length % 256 = p.length := Nat.mod_eq_of_lt (Nat.lt_succ_of_le hmax)
  refine ⟨rfl, ?_, rfl, hp, Nat.le_refl 2⟩
  rw [shortFrame_length]
  simp [headerOf, byteAt, shortFrame, hlen]

theorem longFrame_isPacket {p : Bytes} (hp : 1 ≤ p.length) (hmax : p.length ≤ 65535) (crc : U16) :
    IsPacket (longFrame p crc)
      [startLong, hi8 (BitVec.ofNat 16 p.length), lo8 (BitVec.ofNat 16 p.length)] p crc := by
  have hlen : p.length % 65536 = p.length := Nat.mod_eq_of_lt (Nat.lt_succ_of_le hmax)
  have hmark : ¬ startLong = startShort := by decide
  refine ⟨rfl, ?_, rfl, hp, Nat.le_succ 2⟩
  rw [longFrame_length]
  simp [headerOf, byteAt, longFrame, hlen, hmark]

theorem byteAt_append_right (xs ys : Bytes) (i : Nat) : byteAt (xs ++ ys) (xs.length + i) = byteAt ys i := by
  simp [byteAt, List.getD_eq_getElem?_getD, List.getElem?_append_right]

theorem byteAt_append_left {xs : Bytes} {i : Nat} (h : i < xs.length) (ys : Bytes) : byteAt (xs ++ ys) i = byteAt xs i := by
  simp [byteAt, List.getD_eq_getElem?_getD, List.getElem?_append_left h]

/-- The header is read from the first three bytes. -/
theorem headerOf_append {win : Bytes} (h : 3 ≤ win.length) (bs : Bytes) : headerOf (win ++ bs) = headerOf win := by
  simp only [headerOf, byteAt_append_left (by omega : 0 < win.length), byteAt_append_left (by omega : 1 < win.length),
    byteAt_append_left (by omega : 2 < win.length)]

section
variable {c : Config} {w hd p : Bytes} {crc : U16} (hw : IsPacket w hd p crc)
include hw

theorem IsPacket.length_eq : w.length = hd.length + p.length + 3 := by
  rw [hw.bytes]
  simp [Nat.add_assoc]

theorem IsPacket.slice_eq : slice w hd.length (hd.length + p.length) = p := by
  simp [slice, hw.bytes]

/-- DECODE of a packet that fits and carries its CRC (42_packet_codec R142). -/
theorem IsPacket.decodeWindow_ok (hcrc : crc = crc16 c.crc p) (hfit : w.length ≤ c.stgCap) :
    decodeWindow c w = .ok hd.length p.length w.length := by
  have hl := hw.length_eq
  have hp := hw.nonempty
  have h2 := hw.two_le
  have htail (i : Nat) : byteAt w (hd.length + p.length + i) = byteAt [hi8 crc, lo8 crc, endMark] i := by
    rw [hw.bytes, ← List.length_append]
    exact byteAt_append_right _ _ i
  have hfield : crcFieldOf w ⟨hd.length, p.length, w.length⟩ = crc := by
    rw [← be16_hi8_lo8 crc, crcFieldOf, hl]
    exact congrArg₂ be16 (htail 0) (htail 1)
  have hcheck : checkWindow c w = .ok ⟨hd.length, p.length, w.length⟩ := by
    refine checkWindow_intro (by rw [minPacket]; omega) hw.header (fun hz => Nat.ne_of_gt hp hz.1) hfit (Nat.le_refl _) ?_
    rw [hl]
    exact htail 2
  simp only [decodeWindow, hcheck, hfield, payloadOf, hw.slice_eq, hcrc, ne_eq, not_true, if_false]

/-- DECODE of a beginning of a packet that fits asks for more bytes (42_packet_codec R142). -/
theorem IsPacket.decodeWindow_needMore (hfit : w.length ≤ c.stgCap) {win bs : Bytes} (hsplit : win ++ bs = w) (hne : bs ≠ []) :
    decodeWindow c win = .needMore := by
  have hshort : win.length < w.length := by
    rw [← hsplit, List.length_append]
    exact Nat.lt_add_of_pos_right (List.length_pos_iff.2 hne)
  have hcheck : checkWindow c win = .error .needMore := by
    rw [checkWindow]
    split
    · rfl
    · rename_i h6
      rw [minPacket] at h6
      have hheader : headerOf win = some ⟨hd.length, p.length, w.length⟩ := by
        rw [← headerOf_append (by omega) bs, hsplit, hw.header]
      simp [hheader, Nat.ne_of_gt hw.nonempty, Nat.not_lt.2 hfit, hshort]
  simp only [decodeWindow, hcheck]

end

/-! ### FEED of the bytes of a packet -/

theorem listFeed_of_candidate {c : Config} {win : Bytes} {b : Byte} (h : isCandidate (byteAt (win ++ [b]) 0) = true) :
    listFeed c win b = listPass c (win.length + 1) (win ++ [b]) := by
  refine if_neg ?_
  rintro ⟨rfl, hs, hl⟩
  simp [byteAt, isCandidate, hs, hl] at h

theorem listPass_needMore {c : Config} {win : Bytes} (h : decodeWindow c win = .needMore) (k : Nat) :
    listPass c k win = Pass.stop win := by
  cases k with
  | zero => rfl
  | succ k =>
    cases win with
    | nil => rfl
    | cons b win => simp only [listPass, h]

theorem listPass_ok {c : Config} {win : Bytes} {hdr len : Nat} (hne : win ≠ [])
    (h : decodeWindow c win = .ok hdr len win.length) (k : Nat) :
    listPass c (k + 1) win = ⟨[], [slice win hdr (hdr + len)], [], computedCrc c win⟩ := by
  cases win with
  | nil => exact absurd rfl hne
  | cons b win => simp [listPass, h, listPass_nil, Pass.stop]

/-! ### The bytes of a packet on the line -/

/-- A byte pushed on an empty instance is the next one popped, and leaves it empty. -/
theorem fifoPop_after_push {cap : Nat} {f : Fifo} (hcap : 2 ≤ cap) (hstart : f.start < cap) (hempty : f.length = 0) (b : Byte) :
    ∃ g h, fifoPush cap f b = .ok (g, false) ∧ fifoPop cap g = .ok (true, b, h) ∧ h.length = 0 := by
  have hnil : f.holds cap [] := ⟨hempty, fun k hk => absurd hk (Nat.not_lt_zero k)⟩
  have hone := Fifo.holds_push b hnil (Nat.sub_pos_of_lt hcap)
  exact ⟨_, _, fifoPush_room b (by omega) (by omega), fifoPop_cons hstart hone, (Fifo.holds_pop hone).1⟩

/-- A byte that arrives with `RX_FIFO` empty goes through it into the framer (44_boundary R190, R191). -/
theorem receiveByte_eq_feedByte {s : State} (h : s.inv) (hempty : s.rx.length = 0) (b : Byte) :
    ∃ f, f.length = 0 ∧ receiveByte b s = feedByte b (s.setFifo .rx f) := by
  obtain ⟨⟨hcap, _⟩, hrx, _⟩ := h
  obtain ⟨g, f, hpush, hpop, hf⟩ := fifoPop_after_push hcap hrx.1 hempty b
  refine ⟨f, hf, ?_⟩
  simp only [receiveByte, pushInst, State.cap_rx, State.fifo_rx, hpush]
  show framerStep (s.setFifo .rx g) = _
  simp only [framerStep, State.setFifo_cfg, State.setFifo_rx_rx, hpop]
  rfl

/-- Between two bytes on the line: `RX_FIFO` is empty and `win` is buffered. -/
structure Awaits (s : State) (win : Bytes) : Prop where
  inv   : s.inv
  empty : s.rx.length = 0
  holds : s.framer.holds win

/-- From `s` the receive side works to `t`, delivering `payloads` and recording no error. -/
structure Delivers (s t : State) (payloads : List Bytes) : Prop where
  cfg       : t.cfg = s.cfg
  delivered : t.delivered = s.delivered ++ payloads
  errors    : t.errors = s.errors

theorem Delivers.trans {s t u : State} {ps qs : List Bytes} (h : Delivers s t ps) (k : Delivers t u qs) :
    Delivers s u (ps ++ qs) :=
  ⟨k.cfg.trans h.cfg, by rw [k.delivered, h.delivered, List.append_assoc], k.errors.trans h.errors⟩

theorem receiveByte_runs {s : State} {win : Bytes} {b : Byte} {p : Pass} (h : Awaits s win) (hp : listFeed s.cfg win b = p)
    (hcodes : p.codes = []) : ∃ t, receiveByte b s = .ok t ∧ Awaits t p.left ∧ Delivers s t p.payloads := by
  obtain ⟨hinv, hempty, hholds⟩ := h
  obtain ⟨f, hf, heq⟩ := receiveByte_eq_feedByte hinv hempty b
  obtain ⟨t, ht, _, hinvt⟩ := receiveByte_spec hinv b
  obtain ⟨u, hu, hrun⟩ := feedByte_runs (s := s.setFifo .rx f) hinv.2.2.2 hholds b
  obtain rfl : t = u := Except.ok.inj (ht.symm.trans (heq.trans hu))
  rw [State.setFifo_cfg, hp] at hrun
  refine ⟨t, ht, ⟨hinvt, hrun.frame.rx ▸ hf, hrun.fits.holds⟩, hrun.frame.cfg, hrun.delivered, ?_⟩
  rw [hrun.errors, hcodes, List.append_nil]
  rfl

/-- The remaining bytes of a packet that fits: the payload is delivered at the last one and not before. -/
theorem receiveBytes_packet {bs win hd p w : Bytes} {crc : U16} {s : State} (hw : IsPacket w hd p crc)
    (hsplit : win ++ bs = w) (hne : bs ≠ []) (h : Awaits s win) (hcrc : crc = crc16 s.cfg.crc p) (hfit : w.length ≤ s.cfg.stgCap) :
    ∃ t, receiveBytes bs s = .ok t ∧ Awaits t [] ∧ Delivers s t [p] := by
  induction bs generalizing win s with
  | nil => exact absurd rfl hne
  | cons b bs ih =>
    have hsplit' : (win ++ [b]) ++ bs = w := by rw [List.append_assoc]; exact hsplit
    have hfeed : listFeed s.cfg win b = listPass s.cfg (win.length + 1) (win ++ [b]) :=
      listFeed_of_candidate (by rw [← byteAt_append_left (by simp) bs, hsplit']; exact hw.marker)
    cases bs with
    | nil =>
      rw [List.append_nil] at hsplit'
      subst hsplit'
      rw [listPass_ok (by simp) (hw.decodeWindow_ok hcrc hfit), hw.slice_eq] at hfeed
      obtain ⟨t, ht, hawaits, hdel⟩ := receiveByte_runs h hfeed rfl
      exact ⟨t, by simp only [receiveBytes, ht], hawaits, hdel⟩
    | cons b' bs =>
      rw [listPass_needMore (hw.decodeWindow_needMore hfit hsplit' (by simp))] at hfeed
      obtain ⟨t, ht, hawaits, hdel⟩ := receiveByte_runs h hfeed rfl
      rw [← hdel.cfg] at hcrc hfit
      obtain ⟨u, hu, hawaits', hdel'⟩ := ih hsplit' (by simp) hawaits hcrc hfit
      refine ⟨u, by rw [receiveBytes, ht]; exact hu, hawaits', ?_⟩
      exact Delivers.trans hdel hdel'

/-- What the receive side answers to a byte string that arrives, with its result (log 15). -/
theorem receiveBytes_answers {s : State} (h : s.inv) (bs : Bytes) :
    ∃ t u, receiveBytes bs s = .ok u ∧ ofExcept ((receiveBytes bs s).map (·.withPayloadsSince s)) = .next t ∧
      t = { u with result := .payloads (u.delivered.drop s.delivered.length) } ∧
      t.inv ∧ t.tx = s.tx ∧ t.txLine = s.txLine ∧ keepsControl s t ∧ s.delivered <+: t.delivered := by
  obtain ⟨u, hu, hf, hinv⟩ := receiveBytes_spec (bs := bs) h
  exact ⟨_, u, hu, by rw [hu]; rfl, rfl, State.inv_setResult hinv _, hf.tx, hf.txLine, hf.keepsControl, hf.delivered⟩

/-- A packet that fits and carries its CRC, arriving in SEEKING with `RX_FIFO` empty, is delivered. -/
theorem receiveBytes_delivers {w hd p : Bytes} {s : State} (hw : IsPacket w hd p (crc16 s.cfg.crc p)) (hinv : s.inv)
    (hempty : s.rx.length = 0) (hseek : s.framer.lastValidIndex = -1) (hfit : w.length ≤ s.cfg.stgCap) :
    ∃ t, ofExcept ((receiveBytes w s).map (·.withPayloadsSince s)) = .next t ∧ t.result = .payloads [p] ∧
      t.delivered = s.delivered ++ [p] ∧ t.rx.length = 0 ∧ t.framer.lastValidIndex = -1 ∧ t.errors = s.errors := by
  have hawaits : Awaits s [] := ⟨hinv, hempty, hseek, fun k hk => absurd hk (Nat.not_lt_zero k)⟩
  have hne : w ≠ [] := List.length_pos_iff.1 (by rw [hw.length_eq]; omega)
  obtain ⟨t, ht, ⟨_, hrx, hholds⟩, ⟨_, hdel, herr⟩⟩ := receiveBytes_packet hw rfl hne hawaits rfl hfit
  refine ⟨t.withPayloadsSince s, by rw [ht]; rfl, ?_, hdel, hrx, hholds.1, herr⟩
  rw [State.withPayloadsSince_result, hdel, List.drop_left]

/-! ### The obligations -/

/-- Settles O55: both forms are the bytes of the packet, received in turn. -/
theorem packetOnTheLineCompletes : Obligations.PacketOnTheLineCompletes :=
  fun p crc _ h => ⟨receiveBytes_answers h (shortFrame p crc), receiveBytes_answers h (longFrame p crc)⟩

/-- Settles O56: both forms are packets whose beginnings only ask for more bytes. -/
theorem validPacketOnTheLineIsDelivered : Obligations.ValidPacketOnTheLineIsDelivered := by
  intro p s hinv hempty hseek hp
  refine ⟨fun hmax hfit => ?_, fun hmax hfit => ?_⟩
  · exact receiveBytes_delivers (shortFrame_isPacket hp hmax _) hinv hempty hseek (by rwa [shortFrame_length])
  · exact receiveBytes_delivers (longFrame_isPacket hp hmax _) hinv hempty hseek (by rwa [longFrame_length])

end Sys2Proof.Machine
end

section
/-! One FIFO instance (40_fifo R110 to R117): what PUSH, STORE and POP do to the slots of the ring, that a STORE is its PUSHes,
and the instance as a bounded queue. -/

namespace Sys2Proof.Machine

/-! ### The operations by what they do to the instance -/

section
variable {s t : State} {i : Inst}

theorem State.fifo_setResult (s : State) (r : Result) (i : Inst) : (s.setResult r).fifo i = s.fifo i := by cases i <;> rfl

theorem pushInst_eq_ok {b : Byte} (h : pushInst i b s = .ok t) :
    ∃ f ov, fifoPush (s.cap i) (s.fifo i) b = .ok (f, ov) ∧ t = (s.setFifo i f).noteOverflow ov := by
  unfold pushInst at h
  split at h
  · cases h
  · cases h; exact ⟨_, _, ‹_›, rfl⟩

theorem storeInst_eq_ok {data : Bytes} (h : storeInst i data s = .ok t) :
    ∃ f ov, fifoStore (s.cap i) (s.fifo i) data = .ok (f, ov) ∧ t = (s.setFifo i f).noteOverflow ov := by
  unfold storeInst at h
  split at h
  · cases h
  · cases h; exact ⟨_, _, ‹_›, rfl⟩

/-- The state after a PUSH or a STORE that made `f` of the instance, `ov` saying that it overflowed. -/
def State.filled (s : State) (i : Inst) (f : Fifo) (ov : Bool) : State := ((s.setFifo i f).noteOverflow ov).setResult .none

theorem State.filled_fifo (s : State) (i : Inst) (f : Fifo) (ov : Bool) : (s.filled i f ov).fifo i = f := by
  rw [State.filled, State.fifo_setResult, State.fifo_noteOverflow_setFifo]

theorem State.filled_frame (s : State) (i : Inst) (f : Fifo) (ov : Bool) : FifoFrame i s (s.filled i f ov) :=
  ((FifoFrame.setFifo s i f).noteOverflow ov).setResult _

theorem State.filled_txLine (s : State) (i : Inst) (f : Fifo) (ov : Bool) : (s.filled i f ov).txLine = s.txLine := by
  simp [State.filled]

theorem exec_push_eq {b : Byte} {f : Fifo} {ov : Bool} (h : fifoPush (s.cap i) (s.fifo i) b = .ok (f, ov)) :
    exec (.push i b) s = .next (s.filled i f ov) := by
  rw [exec, execPush, pushInst, h]
  rfl

theorem exec_store_eq {data : Bytes} {f : Fifo} {ov : Bool} (hcount : data.length ≤ countMax)
    (h : fifoStore (s.cap i) (s.fifo i) data = .ok (f, ov)) :
    exec (.store i data) s = .next (s.filled i f ov) := by
  rw [exec, execStore, if_neg (Nat.not_lt.2 hcount), storeInst, h]
  rfl

theorem FifoFrame.keepsFramer (h : FifoFrame i s t) : keepsFramer s t := ⟨h.framer, h.crcAcc, h.delivered⟩

end

/-! ### A STORE is its PUSHes -/

theorem State.setFifo_setFifo (s : State) (i : Inst) (f g : Fifo) : (s.setFifo i f).setFifo i g = s.setFifo i g := by
  cases i <;> rfl

theorem State.setFifo_fifo (s : State) (i : Inst) : s.setFifo i (s.fifo i) = s := by cases i <;> rfl

theorem State.cap_setFifo (s : State) (i : Inst) (f : Fifo) : (s.setFifo i f).cap i = s.cap i := State.cap_of_cfg (by simp) i

/-- A PUSH on an instance with room, in a state that has just completed an operation without a result. -/
theorem exec_push_room {s : State} {i : Inst} (hcap : 0 < s.cap i) (hroom : (s.fifo i).length ≠ s.cap i - 1) (b : Byte) :
    exec (.push i b) (s.setResult .none) = .next ((s.setFifo i { s.fifo i with
      mem := (s.fifo i).mem.write (((s.fifo i).start + (s.fifo i).length) % s.cap i) b
      length := (s.fifo i).length + 1 }).setResult .none) := by
  have hpush := fifoPush_room b hcap hroom
  rw [← State.fifo_setResult s .none] at hpush
  rw [exec_push_eq (s := s.setResult .none) hpush]
  cases i <;> rfl

/-- Bytes pushed one after another on an instance with room for all of them go round the ring (40_fifo R112). -/
theorem execAll_push {i : Inst} {data : Bytes} {s : State} {m : Memory} (hcap : 0 < s.cap i)
    (hroom : (s.fifo i).length + data.length ≤ s.cap i - 1)
    (hm : writeRing (s.cap i) (s.fifo i).mem ((s.fifo i).start + (s.fifo i).length) data = .ok m) :
    execAll (data.map (.push i)) (s.setResult .none) =
      .next (s.filled i { s.fifo i with mem := m, length := (s.fifo i).length + data.length } false) := by
  induction data generalizing s with
  | nil =>
    cases hm
    exact congrArg (fun u : State => Host.Outcome.next (u.setResult .none)) (State.setFifo_fifo s i).symm
  | cons b data ih =>
    rw [List.length_cons] at hroom
    rw [writeRing, storageWrite_ok _ b (Nat.mod_lt _ hcap)] at hm
    have hrest := ih (s := s.setFifo i { s.fifo i with
      mem := (s.fifo i).mem.write (((s.fifo i).start + (s.fifo i).length) % s.cap i) b
      length := (s.fifo i).length + 1 })
    rw [State.cap_setFifo, State.fifo_setFifo, State.filled, State.setFifo_setFifo, Nat.add_assoc, Nat.add_comm 1] at hrest
    simp only [List.map_cons, execAll, exec_push_room hcap (by omega : (s.fifo i).length ≠ s.cap i - 1)]
    exact hrest hcap hroom hm

/-! ### Contents -/

section
variable {cap : Nat} {f g : Fifo} {bs : Bytes} {ov : Bool}

/-- PUSH seen through the contents: a full instance is emptied, any other takes the byte at its end. -/
theorem fifoPush_contents {b : Byte} (hok : f.ok cap) (hb : f.holds cap bs) (h : fifoPush cap f b = .ok (g, ov)) :
    (bs.length = cap - 1 ∧ ov = true ∧ g.holds cap []) ∨ (bs.length ≠ cap - 1 ∧ ov = false ∧ g.holds cap (bs ++ [b])) := by
  have hl := hb.1
  have hlen := hok.2.1
  by_cases hfull : f.length = cap - 1
  · cases (fifoPush_full b hfull).symm.trans h
    exact .inl ⟨hl ▸ hfull, rfl, Fifo.holds_clear⟩
  · cases (fifoPush_room b (Fifo.cap_pos hok) hfull).symm.trans h
    exact .inr ⟨hl ▸ hfull, rfl, Fifo.holds_push b hb (by omega)⟩

/-- STORE seen through the contents: bytes that do not fit empty the instance, others go to its end. -/
theorem fifoStore_contents {data : Bytes} (hok : f.ok cap) (hb : f.holds cap bs) (h : fifoStore cap f data = .ok (g, ov)) :
    (cap - 1 - bs.length < data.length ∧ ov = true ∧ g.holds cap []) ∨
    (data.length ≤ cap - 1 - bs.length ∧ ov = false ∧ g.holds cap (bs ++ data)) := by
  have hl := hb.1
  have hlen := hok.2.1
  have hcap := Fifo.cap_pos hok
  have hfree : f.freeSpace cap = cap - 1 - bs.length := by rw [Fifo.freeSpace, hl]; omega
  by_cases hfit : f.freeSpace cap < data.length
  · cases (fifoStore_overflow hfit).symm.trans h
    exact .inl ⟨hfree ▸ hfit, rfl, Fifo.holds_clear⟩
  · obtain ⟨m, hm, hin, hout, _⟩ := fifoStore_room hcap (Nat.not_lt.1 hfit)
    cases hm.symm.trans h
    exact .inr ⟨hfree ▸ Nat.not_lt.1 hfit, rfl, Fifo.holds_store hb (by omega) hin hout⟩

/-- POP seen through the contents: the sentinel, or the head. -/
theorem fifoPop_contents {ok : Bool} {b : Byte} (hok : f.ok cap) (hb : f.holds cap bs) (h : fifoPop cap f = .ok (ok, b, g)) :
    (bs = [] ∧ ok = false ∧ b = popEmptyData ∧ g.holds cap []) ∨ ∃ cs, bs = b :: cs ∧ ok = true ∧ g.holds cap cs := by
  cases bs with
  | nil =>
    cases (fifoPop_empty hb.1).symm.trans h
    exact .inl ⟨rfl, rfl, rfl, hb⟩
  | cons c cs =>
    cases (fifoPop_cons hok.1 hb).symm.trans h
    exact .inr ⟨cs, rfl, rfl, Fifo.holds_pop hb⟩

end

/-! ### The obligations -/

/-- Settles O18, by the definition of FIFO_RESET. -/
theorem fifoResetClearsOneInstance : Obligations.FifoResetClearsOneInstance := by
  intro i s
  have he : exec (.fifoReset i) s = .next ((s.setFifo i (s.fifo i).clear).setResult .none) := rfl
  have hf := (FifoFrame.setFifo s i (s.fifo i).clear).setResult .none
  have hfifo : ((s.setFifo i (s.fifo i).clear).setResult .none).fifo i = (s.fifo i).clear := by
    rw [State.fifo_setResult, State.fifo_setFifo]
  exact ⟨_, he, rfl, congrArg Fifo.start hfifo, congrArg Fifo.length hfifo, (congrArg Fifo.mem hfifo :),
    hf.otherFifo, hf.keepsControl, hf.keepsFramer, State.setFifo_txLine s i _, State.setFifo_errors s i _⟩

/-- Settles O19, by whether the instance is full. -/
theorem pushWritesOrEmpties : Obligations.PushWritesOrEmpties := by
  intro i b s hcap
  have hf := State.filled_frame s i
  by_cases hfull : (s.fifo i).length = s.cap i - 1
  · refine ⟨_, exec_push_eq (fifoPush_full b hfull), rfl, fun _ => ?_, fun hroom => absurd hfull hroom, (hf _ _).otherFifo,
      (hf _ _).keepsControl, (hf _ _).keepsFramer, State.filled_txLine s i _ _⟩
    rw [State.filled_fifo]
    exact ⟨rfl, rfl, rfl⟩
  · refine ⟨_, exec_push_eq (fifoPush_room b (by omega) hfull), rfl, fun h => absurd h hfull, fun _ => ?_, (hf _ _).otherFifo,
      (hf _ _).keepsControl, (hf _ _).keepsFramer, State.filled_txLine s i _ _⟩
    rw [State.filled_fifo]
    exact ⟨rfl, rfl, Memory.read_write_same _ _ _, fun a ha => Memory.read_write_ne _ _ ha⟩

/-- Settles O20: a STORE that fits writes the ring, and so do its PUSHes. -/
theorem storeWritesOrEmpties : Obligations.StoreWritesOrEmpties := by
  intro i data s hcap hlen
  have hf := State.filled_frame s i
  refine ⟨fun hcount => if_pos hcount, fun hcount => ?_⟩
  by_cases hover : (s.fifo i).freeSpace (s.cap i) < data.length
  · refine ⟨_, exec_store_eq hcount (fifoStore_overflow hover), rfl, fun _ => ?_, fun hfit => absurd hover (Nat.not_lt.2 hfit),
      (hf _ _).otherFifo, (hf _ _).keepsControl, (hf _ _).keepsFramer, State.filled_txLine s i _ _⟩
    rw [State.filled_fifo]
    exact ⟨rfl, rfl, rfl⟩
  · have hfit : data.length ≤ s.cap i - (s.fifo i).length - 1 := Nat.not_lt.1 hover
    obtain ⟨m, hm, hin, hout, _⟩ := writeRing_spec (cap := s.cap i) (m := (s.fifo i).mem) (bs := data)
      (w := (s.fifo i).start + (s.fifo i).length) (by omega) (by omega)
    have hstore : fifoStore (s.cap i) (s.fifo i) data =
        .ok ({ s.fifo i with mem := m, length := (s.fifo i).length + data.length }, false) := by
      rw [fifoStore, if_neg hover, hm]
    refine ⟨_, exec_store_eq hcount hstore, rfl, fun h => absurd h hover, fun _ => ?_, (hf _ _).otherFifo,
      (hf _ _).keepsControl, (hf _ _).keepsFramer, State.filled_txLine s i _ _⟩
    rw [State.filled_fifo]
    have hpushes := execAll_push (by omega : 0 < s.cap i) (by omega) hm
    exact ⟨rfl, rfl, hin, fun a ha => hout a fun k hk heq => ha ⟨k, hk, heq⟩, hpushes⟩

/-- Settles O22, by whether the instance is empty. -/
theorem popReturnsOldestOrSentinel : Obligations.PopReturnsOldestOrSentinel := by
  intro i s hok
  obtain ⟨bs, hb, _⟩ := Fifo.ok_holds hok
  cases bs with
  | nil =>
    have hempty : (s.fifo i).length = 0 := hb.1
    have hpop := popInst_empty hempty
    obtain ⟨hf, _⟩ := popInst_frame hpop
    refine ⟨_, congrArg ofExcept hpop, fun _ => ⟨rfl, by cases i <;> rfl, rfl⟩, fun hne => absurd hempty hne, fun _ => rfl,
      hf.otherFifo, hf.keepsControl, hf.keepsFramer⟩
  | cons v vs =>
    have hne : (s.fifo i).length ≠ 0 := by rw [hb.1]; exact Nat.succ_ne_zero _
    have hread : (s.fifo i).mem.read (s.fifo i).start = some v := by
      simpa [Nat.mod_eq_of_lt hok.1] using hb.2 0 (Nat.succ_pos _)
    have hpop := popInst_cons (fifoPop_cons hok.1 hb)
    obtain ⟨hf, _⟩ := popInst_frame hpop
    refine ⟨_, congrArg ofExcept hpop, fun h => absurd h hne, fun _ => ⟨v, hread, rfl, ?_⟩, ?_, hf.otherFifo, hf.keepsControl,
      hf.keepsFramer⟩
    · rw [State.fifo_setResult, State.fifo_notePop_setFifo]
      exact ⟨rfl, rfl, rfl⟩
    · rintro rfl
      simp

/-- Settles O23, by the definitions of the two reads. -/
theorem lengthAndFreeSpaceAddUp : Obligations.LengthAndFreeSpaceAddUp := by
  intro i s hcap hlen
  exact ⟨_, _, rfl, rfl, rfl, rfl, by rw [Fifo.freeSpace]; omega⟩

/-- Settles O24, by the contents after each operation. -/
theorem fifoIsBoundedQueue : Obligations.FifoIsBoundedQueue := by
  intro i s bs h hb
  have hok := State.inv_fifo h i
  refine ⟨fun b => ?push, fun data hcount => ?store, ?pop⟩
  case push =>
    obtain ⟨f, ov, hpush, _⟩ := fifoPush_ok b hok
    refine ⟨_, exec_push_eq hpush, ?_⟩
    rw [State.filled_fifo]
    rcases fifoPush_contents hok hb hpush with ⟨hfull, _, hf⟩ | ⟨hroom, _, hf⟩
    · rwa [if_pos hfull]
    · rwa [if_neg hroom]
  case store =>
    obtain ⟨f, ov, hstore, _⟩ := fifoStore_ok data hok
    refine ⟨_, exec_store_eq hcount hstore, ?_⟩
    rw [State.filled_fifo]
    rcases fifoStore_contents hok hb hstore with ⟨hover, _, hf⟩ | ⟨hfit, _, hf⟩
    · rwa [if_pos hover]
    · rwa [if_neg (Nat.not_lt.2 hfit)]
  case pop =>
    cases bs with
    | nil =>
      obtain ⟨t, ht, _, _, hres, hfifo⟩ := exec_pop_sentinel h hb.1
      exact ⟨t, ht, hres, hfifo ▸ hb⟩
    | cons b bs =>
      obtain ⟨t, ht, _, _, hres, hbs⟩ := exec_pop_takes_head h hb
      exact ⟨t, ht, hres, hbs⟩

end Sys2Proof.Machine
end

section
/-! The framer's work depends on the configuration, the framer and what has been delivered alone: from two states that agree on
these it ends in two states that agree on them (43_stream_framer R161 to R166). -/

namespace Sys2Proof.Machine

/-- What FEED reads and writes, apart from the history of errors, the accumulator and the result. -/
def State.framing (s : State) : Config × Framer × List Bytes := (s.cfg, s.framer, s.delivered)

theorem State.framing_eq_iff {s t : State} :
    s.framing = t.framing ↔ s.cfg = t.cfg ∧ s.framer = t.framer ∧ s.delivered = t.delivered := by
  simp [State.framing]

/-- Two computations that fault alike, or whose answers agree on the framing. -/
def FramingAlike (x y : Except Fault State) : Prop := x.map State.framing = y.map State.framing

theorem FramingAlike.of_ok {s t : State} (h : s.framing = t.framing) : FramingAlike (.ok s) (.ok t) := congrArg Except.ok h

theorem FramingAlike.eq_ok {x y : Except Fault State} {u : State} (h : FramingAlike x y) (hx : x = .ok u) :
    ∃ v, y = .ok v ∧ v.framing = u.framing := by
  subst hx
  exact exceptMap_eq_ok h.symm

section
variable {s t : State} (h : s.framing = t.framing)
include h

theorem shiftLeft_framing (k : Nat) (win : Bytes) : FramingAlike (shiftLeft k win s) (shiftLeft k win t) := by
  obtain ⟨hcfg, hframer, hdel⟩ := State.framing_eq_iff.1 h
  rw [shiftLeft, shiftLeft, hcfg, hframer]
  cases writeRun t.cfg.stgCap t.framer.stg 0 (win.drop k) with
  | error e => rfl
  | ok m => exact .of_ok (State.framing_eq_iff.2 ⟨hcfg, by simp [hframer], hdel⟩)

theorem discardAll_framing : (discardAll s).framing = (discardAll t).framing := by
  obtain ⟨hcfg, hframer, hdel⟩ := State.framing_eq_iff.1 h
  exact State.framing_eq_iff.2 ⟨hcfg, by simp [hframer], hdel⟩

theorem resync_framing (win : Bytes) : FramingAlike (resync win s) (resync win t) := by
  rw [resync, resync]
  cases resyncPoint win with
  | none => exact .of_ok (discardAll_framing h)
  | some j => exact shiftLeft_framing h j win

theorem noteDecode_framing (win : Bytes) : (s.noteDecode win).framing = (t.noteDecode win).framing := by
  simpa [State.framing] using h

theorem react_framing (r : RejectReason) (win : Bytes) : FramingAlike (react r win s) (react r win t) := by
  rw [react, react, (State.framing_eq_iff.1 h).1]
  split
  · exact .of_ok (discardAll_framing h)
  · exact resync_framing h win

theorem consume_framing (hdr len size : Nat) (win : Bytes) :
    FramingAlike (consume hdr len size win s) (consume hdr len size win t) := by
  obtain ⟨hcfg, hframer, hdel⟩ := State.framing_eq_iff.1 h
  have hdeliver (p : Bytes) : (s.deliver p).framing = (t.deliver p).framing :=
    State.framing_eq_iff.2 ⟨hcfg, hframer, by simp [hdel]⟩
  exact shiftLeft_framing (hdeliver _) size win

/-- One trip round the loop returns from both states or goes on from both, to states that agree. -/
theorem passTrip_framing (win : Bytes) :
    (passTrip win s = .ok none ∧ passTrip win t = .ok none) ∨
    ∃ x y, passTrip win s = x.map some ∧ passTrip win t = y.map some ∧ FramingAlike x y := by
  have hnote := noteDecode_framing h win
  have hrecord (e : ErrorCode) : ((s.noteDecode win).recordError e).framing = ((t.noteDecode win).recordError e).framing := hnote
  rw [passTrip, passTrip, (State.framing_eq_iff.1 h).1]
  cases decodeWindow t.cfg win with
  | needMore => exact .inl ⟨rfl, rfl⟩
  | ok hdr len size => exact .inr ⟨_, _, rfl, rfl, consume_framing hnote hdr len size win⟩
  | reject r => exact .inr ⟨_, _, rfl, rfl, react_framing (hrecord _) r win⟩

theorem passLoop_framing (k : Nat) : FramingAlike (passLoop k s) (passLoop k t) := by
  induction k generalizing s t with
  | zero => exact .of_ok h
  | succ k ih =>
    obtain ⟨hcfg, hframer, _⟩ := State.framing_eq_iff.1 h
    rw [passLoop, passLoop, hcfg, hframer]
    split
    · exact .of_ok h
    · cases readRun t.cfg.stgCap t.framer.stg 0 t.framer.n with
      | error e => rfl
      | ok win =>
        rcases passTrip_framing h win with ⟨hs, ht⟩ | ⟨x, y, hs, ht, hxy⟩
        · simp only [hs, ht]
          exact .of_ok h
        · simp only [hs, ht]
          cases x with
          | error e => cases y <;> cases hxy; rfl
          | ok u =>
            obtain ⟨v, rfl, hv⟩ := hxy.eq_ok rfl
            exact ih hv.symm

theorem decodePass_framing : FramingAlike (decodePass s) (decodePass t) := by
  rw [decodePass, decodePass, (State.framing_eq_iff.1 h).2.1]
  exact passLoop_framing h _

theorem feedByte_framing (b : Byte) : FramingAlike (feedByte b s) (feedByte b t) := by
  obtain ⟨hcfg, hframer, hdel⟩ := State.framing_eq_iff.1 h
  rw [feedByte, feedByte, appendByte, appendByte, hcfg, hframer]
  split
  · exact .of_ok h
  · by_cases hroom : t.framer.n < t.cfg.stgCap
    · simp only [if_pos hroom]
      have happend (m : Memory) (k : Int) :
          ((s.setStg m).setLastValidIndex k).framing = ((t.setStg m).setLastValidIndex k).framing :=
        State.framing_eq_iff.2 ⟨hcfg, by simp [hframer], hdel⟩
      exact decodePass_framing (happend _ _)
    · simp only [if_neg hroom]
      rfl

end

/-- A run of FEEDs from a state that agrees. -/
theorem execAll_feed_framing {bs : Bytes} {s t u : State} (h : s.framing = t.framing)
    (hu : execAll (bs.map .feed) s = .next u) : ∃ v, execAll (bs.map .feed) t = .next v ∧ v.framing = u.framing := by
  induction bs generalizing s t with
  | nil => cases hu; exact ⟨t, rfl, h.symm⟩
  | cons b bs ih =>
    cases hs : feedByte b s with
    | error e => simp [execAll, exec, execFeed, hs] at hu
    | ok s' =>
      obtain ⟨t', ht, hst⟩ := (feedByte_framing h b).eq_ok hs
      simp only [List.map_cons, execAll, exec, execFeed, hs, ht, exceptMap_ok, ofExcept_ok] at hu ⊢
      exact ih (s := s'.withPayloadsSince s) (t := t'.withPayloadsSince t) hst.symm hu

theorem execAll_append_next {as bs : List Instr} {s t : State} (h : execAll as s = .next t) :
    execAll (as ++ bs) s = execAll bs t := by
  induction as generalizing s with
  | nil => cases h; rfl
  | cons a as ih =>
    simp only [List.cons_append, execAll] at h ⊢
    cases ha : exec a s with
    | next u => rw [ha] at h; exact ih h
    | fault f => rw [ha] at h; cases h
    | refused r => rw [ha] at h; cases h

end Sys2Proof.Machine
end

section
/-! Traffic on one instance, and on the receive side of the block (40_fifo R117, 60_exceptions R206): a relation between the
states before and after any piece of work, which composes, and by which nothing is lost or reordered unless an overflow is
named. -/

namespace Sys2Proof.Machine

/-! ### Work on one instance -/

theorem exec_keeps_inv {i : Instr} {s t : State} (h : s.inv) (he : exec i s = .next t) : t.inv := by
  rcases exec_answers h i with ⟨u, hu, hi⟩ | ⟨r, hr⟩
  · cases he.symm.trans hu
    exact hi
  · cases he.symm.trans hr

/-- From `s` to `t` the bytes `put` went into the instance `x` and the bytes `taken` came out of it, in the order of a queue,
unless the history names an overflow in between. -/
structure QueueRun (x : Inst) (s t : State) (put taken : Bytes) : Prop where
  cfg    : t.cfg = s.cfg
  errors : s.errors <+: t.errors
  order  : t.errors.count .e6 = s.errors.count .e6 → ∀ bs, (s.fifo x).holds (s.cap x) bs →
    ∃ cs, (t.fifo x).holds (s.cap x) cs ∧ bs ++ put = taken ++ cs

section
variable {x : Inst} {s t u : State} {put taken : Bytes}

theorem QueueRun.of_same (hcfg : t.cfg = s.cfg) (hfifo : t.fifo x = s.fifo x) (herr : s.errors <+: t.errors) :
    QueueRun x s t [] [] :=
  ⟨hcfg, herr, fun _ bs hb => ⟨bs, hfifo ▸ hb, List.append_nil bs⟩⟩

/-- Histories only grow, so one that names no overflow at the end names none in the middle. -/
theorem QueueRun.trans {put' taken' : Bytes} (h : QueueRun x s t put taken) (k : QueueRun x t u put' taken') :
    QueueRun x s u (put ++ put') (taken ++ taken') := by
  refine ⟨k.cfg.trans h.cfg, h.errors.trans k.errors, fun hcount bs hb => ?_⟩
  have hst := h.errors.sublist.count_le .e6
  have htu := k.errors.sublist.count_le .e6
  obtain ⟨cs, hc, hput⟩ := h.order (by omega) bs hb
  rw [← State.cap_of_cfg h.cfg] at hc
  obtain ⟨ds, hd, hput'⟩ := k.order (by omega) cs hc
  rw [State.cap_of_cfg h.cfg] at hd
  exact ⟨ds, hd, by rw [← List.append_assoc, hput, List.append_assoc, hput', ← List.append_assoc]⟩

theorem QueueRun.setResult (h : QueueRun x s t put taken) (r : Result) : QueueRun x s (t.setResult r) put taken :=
  ⟨h.cfg, h.errors, fun hcount bs hb => by rw [State.fifo_setResult]; exact h.order hcount bs hb⟩

/-- PUSH and STORE put their bytes in unless they overflow, and then the history names it. -/
theorem QueueRun.of_filled {f : Fifo} {ov : Bool}
    (h : ov = false → ∀ bs, (s.fifo x).holds (s.cap x) bs → f.holds (s.cap x) (bs ++ put)) :
    QueueRun x s ((s.setFifo x f).noteOverflow ov) put [] := by
  cases ov with
  | true => exact ⟨by simp, by simp, fun hcount => by simp at hcount⟩
  | false =>
    refine ⟨by simp, by simp, fun _ bs hb => ⟨bs ++ put, ?_, rfl⟩⟩
    rw [State.fifo_noteOverflow_setFifo]
    exact h rfl bs hb

theorem pushInst_queueRun {b : Byte} (h : s.inv) (hu : pushInst x b s = .ok u) : QueueRun x s u [b] [] := by
  obtain ⟨f, ov, hpush, rfl⟩ := pushInst_eq_ok hu
  refine .of_filled fun hov bs hb => ?_
  rcases fifoPush_contents (State.inv_fifo h x) hb hpush with ⟨_, hover, _⟩ | ⟨_, _, hf⟩
  · cases hov.symm.trans hover
  · exact hf

theorem storeInst_queueRun {data : Bytes} (h : s.inv) (hu : storeInst x data s = .ok u) : QueueRun x s u data [] := by
  obtain ⟨f, ov, hstore, rfl⟩ := storeInst_eq_ok hu
  refine .of_filled fun hov bs hb => ?_
  rcases fifoStore_contents (State.inv_fifo h x) hb hstore with ⟨_, hover, _⟩ | ⟨_, _, hf⟩
  · cases hov.symm.trans hover
  · exact hf

theorem fifoPop_queueRun {ok : Bool} {b : Byte} {f : Fifo} (h : s.inv)
    (hpop : fifoPop (s.cap x) (s.fifo x) = .ok (ok, b, f)) :
    QueueRun x s (s.setFifo x f) [] (takenOut (.popped ok b)) := by
  refine ⟨by simp, by simp, fun _ bs hb => ?_⟩
  rw [State.fifo_setFifo]
  rcases fifoPop_contents (State.inv_fifo h x) hb hpop with ⟨rfl, rfl, _, hf⟩ | ⟨cs, rfl, rfl, hf⟩
  · exact ⟨[], hf, rfl⟩
  · exact ⟨cs, hf, List.append_nil _⟩

theorem popInst_queueRun (h : s.inv) (hu : popInst x s = .ok u) : QueueRun x s u [] (takenOut u.result) := by
  unfold popInst at hu
  split at hu
  · cases hu
  · rename_i b f hpop
    cases hu
    have hnote : QueueRun x (s.setFifo x f) ((s.setFifo x f).notePop x b) [] [] :=
      .of_same (by simp) (by rw [State.fifo_notePop_setFifo, State.fifo_setFifo]) (by simp)
    exact ((fifoPop_queueRun h hpop).trans hnote).setResult _
  · cases hu
    have hnote : QueueRun x s (s.recordError .e7) [] [] := .of_same rfl (by cases x <;> rfl) (by simp)
    exact hnote.setResult _

/-- One operation of traffic. -/
theorem exec_queueRun {i : Instr} (h : s.inv) (hi : isTraffic x i = true) (he : exec i s = .next t) :
    QueueRun x s t (putIn i) (takenOut t.result) := by
  cases i with
  | push f b =>
    obtain rfl : f = x := of_decide_eq_true hi
    obtain ⟨u, hu, rfl⟩ := ofExcept_map_eq_next he
    exact (pushInst_queueRun h hu).setResult .none
  | store f data =>
    obtain rfl : f = x := of_decide_eq_true hi
    rw [exec, execStore] at he
    split at he
    · cases he
    · obtain ⟨u, hu, rfl⟩ := ofExcept_map_eq_next he
      exact (storeInst_queueRun h hu).setResult .none
  | pop f =>
    obtain rfl : f = x := of_decide_eq_true hi
    exact popInst_queueRun h (ofExcept_eq_next he)
  | _ => cases hi

/-- A run of traffic, by induction on its operations. -/
theorem traceAll_queueRun {is : List Instr} {rs : List Result} (h : s.inv) (hi : ∀ i ∈ is, isTraffic x i = true)
    (ht : traceAll is s = some (rs, t)) : QueueRun x s t (is.flatMap putIn) (rs.flatMap takenOut) := by
  induction is generalizing s rs with
  | nil => cases ht; exact .of_same rfl rfl (List.prefix_refl _)
  | cons i is ih =>
    rw [traceAll] at ht
    split at ht
    · rename_i u hu
      obtain ⟨⟨rs, v⟩, hrest, heq⟩ := Option.map_eq_some_iff.1 ht
      cases heq
      have hfirst := exec_queueRun h (hi i List.mem_cons_self) hu
      exact hfirst.trans (ih (exec_keeps_inv h hu) (fun j hj => hi j (List.mem_cons_of_mem i hj)) hrest)
    · cases ht
    · cases ht

end

/-! ### Work on the receive side -/

/-- From `s` to `t` the bytes `arrived` went into `RX_FIFO`, and those that came out of it were fed to the framer. -/
def Receives (s t : State) (arrived : Bytes) : Prop :=
  ∃ fed, QueueRun .rx s t arrived fed ∧ ∃ u, execAll (fed.map .feed) s = .next u ∧ u.framing = t.framing

section
variable {s t u : State} {arrived : Bytes}

/-- Work that feeds nothing. -/
theorem Receives.of_queueRun (h : QueueRun .rx s t arrived []) (hf : s.framing = t.framing) : Receives s t arrived :=
  ⟨[], h, s, rfl, hf⟩

/-- Work outside `RX_FIFO` and the framer. -/
theorem Receives.of_same (hrx : t.rx = s.rx) (hf : s.framing = t.framing) (herr : s.errors <+: t.errors) : Receives s t [] :=
  .of_queueRun (.of_same (State.framing_eq_iff.1 hf).1.symm hrx herr) hf

theorem Receives.refl (s : State) : Receives s s [] := .of_same rfl rfl (List.prefix_refl _)

/-- The bytes fed in the second piece act on the framer as the first piece left it. -/
theorem Receives.trans {more : Bytes} (h : Receives s t arrived) (k : Receives t u more) : Receives s u (arrived ++ more) := by
  obtain ⟨fed, hq, v, hv, hvt⟩ := h
  obtain ⟨fed', hq', w, hw, hwu⟩ := k
  obtain ⟨w', hw', hww⟩ := execAll_feed_framing hvt.symm hw
  refine ⟨fed ++ fed', hq.trans hq', w', ?_, hww.trans hwu⟩
  rw [List.map_append, execAll_append_next hv, hw']

theorem Receives.setResult (h : Receives s t arrived) (r : Result) : Receives s (t.setResult r) arrived := by
  obtain ⟨fed, hq, hfed⟩ := h
  exact ⟨fed, hq.setResult r, hfed⟩

theorem FifoFrame.framing {i : Inst} (h : FifoFrame i s t) : s.framing = t.framing :=
  State.framing_eq_iff.2 ⟨h.cfg.symm, h.framer.symm, h.delivered.symm⟩

/-- Work on `TX_FIFO`. -/
theorem Receives.of_tx (hf : FifoFrame .tx s t) (herr : s.errors <+: t.errors) : Receives s t [] :=
  .of_same hf.otherFifo hf.framing herr

/-- The framer's step feeds the byte it pops (44_boundary R191). -/
theorem framerStep_receives (h : s.inv) (he : framerStep s = .ok t) : Receives s t [] := by
  unfold framerStep at he
  split at he
  · cases he
  · cases he; exact .refl s
  · rename_i b f hpop
    obtain ⟨hframe, _⟩ := feedByte_frame he
    have hfeed : QueueRun .rx (s.setFifo .rx f) t [] [] := .of_same hframe.cfg hframe.rx hframe.errors
    obtain ⟨v, hv, hvt⟩ := (feedByte_framing (s := s.setFifo .rx f) (t := s) rfl b).eq_ok he
    exact ⟨[b], (fifoPop_queueRun (x := .rx) h hpop).trans hfeed, v.withPayloadsSince s,
      by simp [execAll, exec, execFeed, hv], hvt⟩

theorem framerSteps_receives {k : Nat} (h : s.inv) (he : framerSteps k s = .ok t) : Receives s t [] := by
  induction k generalizing s with
  | zero => cases he; exact .refl _
  | succ k ih =>
    obtain ⟨u, hu, hi⟩ := framerStep_keeps_inv h
    simp only [framerSteps, hu] at he
    exact (framerStep_receives h hu).trans (ih hi he)

theorem pushInst_receives {b : Byte} (h : s.inv) (hu : pushInst .rx b s = .ok u) : Receives s u [b] :=
  .of_queueRun (pushInst_queueRun h hu) (pushInst_frame hu).1.framing

theorem receiveByte_receives {b : Byte} (h : s.inv) (he : receiveByte b s = .ok t) : Receives s t [b] := by
  obtain ⟨u, hu, hi⟩ := pushInst_keeps_inv h .rx b
  simp only [receiveByte, hu] at he
  exact (pushInst_receives h hu).trans (framerStep_receives hi he)

theorem receiveBytes_receives {bs : Bytes} (h : s.inv) (he : receiveBytes bs s = .ok t) : Receives s t bs := by
  induction bs generalizing s with
  | nil => cases he; exact .refl _
  | cons b bs ih =>
    obtain ⟨u, hu, hi⟩ := receiveByte_keeps_inv h b
    simp only [receiveBytes, hu] at he
    exact (receiveByte_receives h hu).trans (ih hi he)

end

/-! ### Every instruction under the discipline -/

/-- The bytes an instruction puts into `RX_FIFO`. -/
def bytesIn : Instr → Bytes
  | .push .rx b => [b]
  | .store .rx data => data
  | .frameShort payload crc => shortFrame payload crc
  | .frameLong payload crc => longFrame payload crc
  | _ => []

/-- What the discipline leaves out: a reset of `RX_FIFO`, and a POP RX, FEED or FRAMER_RESET by itself. -/
def keepsReceiveOrder : Instr → Prop
  | .reset | .fifoReset .rx | .pop .rx | .feed _ | .framerReset => False
  | _ => True

theorem exec_codec_receives {i : Instr} {s t : State} (he : exec i s = .next t)
    (hi : (∃ d, i = .crc16 d) ∨ (∃ p, i = .encode p) ∨ (∃ w, i = .decode w)) : Receives s t [] := by
  obtain ⟨hrx, _, hframer, hdel, _, herr, hcrc⟩ := exec_codec_frame he hi
  exact .of_same hrx (State.framing_eq_iff.2 ⟨hcrc.cfg.symm, hframer.symm, hdel.symm⟩) (herr ▸ List.prefix_refl _)

theorem exec_receives {i : Instr} {s t : State} (h : s.inv) (hi : keepsReceiveOrder i) (he : exec i s = .next t) :
    Receives s t (bytesIn i) := by
  cases i with
  | reset => exact hi.elim
  | push f b =>
    obtain ⟨u, hu, rfl⟩ := ofExcept_map_eq_next he
    cases f with
    | rx => exact (pushInst_receives h hu).setResult _
    | tx => exact (Receives.of_tx (pushInst_frame hu).1 (pushInst_queueRun h hu).errors).setResult _
  | store f data =>
    rw [exec, execStore] at he
    split at he
    · cases he
    · obtain ⟨u, hu, rfl⟩ := ofExcept_map_eq_next he
      have hq := storeInst_queueRun h hu
      obtain ⟨hf, _⟩ := storeInst_frame hu
      cases f with
      | rx => exact (Receives.of_queueRun hq hf.framing).setResult _
      | tx => exact (Receives.of_tx hf hq.errors).setResult _
  | pop f =>
    cases f with
    | rx => exact hi.elim
    | tx =>
      have hu := ofExcept_eq_next he
      exact .of_tx (popInst_frame hu).1 (popInst_queueRun h hu).errors
  | length f => cases he; exact (Receives.refl s).setResult _
  | freeSpace f => cases he; exact (Receives.refl s).setResult _
  | fifoReset f =>
    cases f with
    | rx => exact hi.elim
    | tx => cases he; exact (Receives.of_tx (FifoFrame.setFifo s .tx s.tx.clear) (List.prefix_refl _)).setResult _
  | crc16 bytes => exact exec_codec_receives he (.inl ⟨_, rfl⟩)
  | encode payload => exact exec_codec_receives he (.inr (.inl ⟨_, rfl⟩))
  | decode win => exact exec_codec_receives he (.inr (.inr ⟨_, rfl⟩))
  | feed b => exact hi.elim
  | poll =>
    obtain ⟨u, hu, rfl⟩ := ofExcept_map_eq_next he
    exact (framerSteps_receives h hu).setResult _
  | framerReset => exact hi.elim
  | write frame =>
    rw [exec] at he
    rcases execWrite_cases frame s with ⟨_, hw⟩ | ⟨_, hw⟩ | ⟨_, _, hw⟩ | ⟨_, _, hw⟩ <;> rw [hw] at he
    · cases he
    · cases he; exact (Receives.refl s).setResult _
    · cases he
    · obtain ⟨u, hu, rfl⟩ := ofExcept_map_eq_next he
      exact (Receives.of_tx (storeInst_frame hu).1 (storeInst_queueRun h hu).errors).setResult _
  | unassignedE hi => cases he
  | unassignedF hi => cases he
  | frameShort payload crc =>
    obtain ⟨u, hu, rfl⟩ := ofExcept_map_eq_next he
    exact (receiveBytes_receives h hu).setResult _
  | frameLong payload crc =>
    obtain ⟨u, hu, rfl⟩ := ofExcept_map_eq_next he
    exact (receiveBytes_receives h hu).setResult _

/-! ### Every request under the discipline -/

/-- The premises on a request: the roles, the framer's steps, and no reset of `RX_FIFO` (60_exceptions R206, 44_boundary R191). -/
def Event.disciplined (e : Event) : Prop := keepsReceiveRoles e = true ∧ framerActsByStep e = true ∧ empties .rx e = false

/-- A word selects no packet (30_encoding R90). -/
theorem decodeOp_encode_op {r : OpRequest} {i : Instr} (h : decodeOp r = .ok i) : ∃ q, encode i = .op q := by
  by_cases hr : ReservedWord r.opw
  · rcases decodeOp_reserved hr with ⟨why, hd⟩ | ⟨hi, hd | hd⟩ <;> cases hd.symm.trans h
    · exact ⟨_, rfl⟩
    · exact ⟨_, rfl⟩
  · obtain ⟨j, q, hd, he, _⟩ := decodeOp_not_reserved hr
    cases hd.symm.trans h
    exact ⟨q, he⟩

/-- What the request of an operation still brings is what the operation puts in, if it is RXP's. -/
theorem rxpBytes_op {a : Agent} {r : OpRequest} {i : Instr} (hd : decodeOp r = .ok i) :
    rxpBytes [.op a r] = if a = .rxp then bytesIn i else [] := by
  obtain ⟨q, hq⟩ := decodeOp_encode_op hd
  cases a with
  | rxp =>
    simp only [rxpBytes, hd, if_true]
    cases i with
    | push f _ | store f _ => cases f <;> simp [bytesIn]
    | frameShort _ _ | frameLong _ _ => cases hq
    | _ => rfl
  | _ => rfl

theorem disciplined_op {a : Agent} {r : OpRequest} {i : Instr} (h : Event.disciplined (.op a r)) (hd : decodeOp r = .ok i) :
    keepsReceiveOrder i ∧ rxpBytes [.op a r] = bytesIn i := by
  obtain ⟨q, hq⟩ := decodeOp_encode_op hd
  simp only [rxpBytes_op hd, Event.disciplined, keepsReceiveRoles, framerActsByStep, empties, hd] at h ⊢
  cases i with
  | push f _ | store f _ =>
    cases f with
    | rx => exact ⟨trivial, if_pos (of_decide_eq_true h.1)⟩
    | tx => exact ⟨trivial, ite_self _⟩
  | pop f | fifoReset f =>
    cases f with
    | rx => simp at h
    | tx => exact ⟨trivial, ite_self _⟩
  | reset | feed _ | framerReset => simp at h
  | frameShort _ _ | frameLong _ _ => cases hq
  | _ => exact ⟨trivial, ite_self _⟩

/-- The rest of a packet is its payload, its CRC and the end marker. -/
theorem takeFrame_eq_ok {len : Nat} {body more : Bytes} {mk : Bytes → U16 → Instr} {i : Instr}
    (h : takeFrame len body mk = .ok (i, more)) :
    ∃ payload crc, i = mk payload crc ∧ payload.length = len ∧ body = payload ++ [hi8 crc, lo8 crc, endMark] ++ more := by
  unfold takeFrame at h
  split at h
  · cases h
  · split at h
    · rename_i hi lo e rest hdrop
      split at h
      · rename_i hend
        cases h
        have hlen : (body.drop len).length ≠ 0 := by simp [hdrop]
        refine ⟨body.take len, be16 hi lo, rfl, ?_, ?_⟩
        · rw [List.length_drop] at hlen
          rw [List.length_take]
          omega
        · rw [hi8_be16, lo8_be16, ← hend, List.append_assoc]
          exact (List.take_append_drop len body).symm.trans (congrArg _ hdrop)
      · cases h
    · cases h

/-- The packet at the head of the line, and the bytes after it. -/
theorem decodeLine_eq_ok {bytes more : Bytes} {i : Instr} (h : decodeLine bytes = .ok (i, more)) :
    keepsReceiveOrder i ∧ bytes = bytesIn i ++ more := by
  unfold decodeLine at h
  split at h
  · cases h
  · split at h
    · rename_i hm
      split at h
      · obtain ⟨payload, crc, rfl, hlen, rfl⟩ := takeFrame_eq_ok h
        refine ⟨trivial, ?_⟩
        simp [bytesIn, shortFrame, hm, hlen]
      · cases h
    · split at h
      · rename_i hm
        split at h
        · obtain ⟨payload, crc, rfl, hlen, rfl⟩ := takeFrame_eq_ok h
          refine ⟨trivial, ?_⟩
          simp [bytesIn, longFrame, hm, hlen]
        · cases h
      · cases h

theorem rxpBytes_of_agent_ne {es : List Event} (h : ∀ e ∈ es, e.agent ≠ .rxp) : rxpBytes es = [] := by
  induction es with
  | nil => rfl
  | cons e es ih =>
    have hrest := ih fun d hd => h d (List.mem_cons_of_mem e hd)
    have he := h e List.mem_cons_self
    cases e with
    | op a r =>
      cases a with
      | rxp => exact absurd rfl he
      | _ => exact hrest
    | line bytes => exact absurd rfl he
    | _ => exact hrest

/-- Serving a request puts in some of the bytes it brings and leaves the others at the head of the line. -/
theorem serve_receives {e : Event} {rest : List Event} {s t : State} (h : s.inv) (hd : e.disciplined)
    (he : serve e rest s = .next t) :
    ∃ arrived left, Receives s t arrived ∧ rxpBytes [e] = arrived ++ left ∧ t.pending = putBack left rest := by
  have hcontrol (a : Agent) (es : List Event) : Receives s { s with agent := a, pending := es } [] :=
    .of_same rfl rfl (List.prefix_refl _)
  cases e with
  | op a r =>
    rw [serve] at he
    split at he
    · obtain ⟨hi, hbytes⟩ := disciplined_op hd ‹_›
      have hwork := exec_receives (State.inv_request h a rest) hi he
      obtain ⟨_, _, hp⟩ := exec_keepsControl he
      exact ⟨_, [], (hcontrol a rest).trans hwork, hbytes.trans (List.append_nil _).symm, hp⟩
    · cases he
  | framerStep =>
    obtain ⟨u, hu, rfl⟩ := ofExcept_map_eq_next he
    have hwork := (framerStep_receives (State.inv_request h .frm rest) hu).setResult
    exact ⟨[], [], (hcontrol .frm rest).trans (hwork _), rfl, (framerStep_frame hu).1.pending⟩
  | txStep =>
    have hu := ofExcept_eq_next he
    obtain ⟨hf, _⟩ := popInst_frame hu
    have hwork := Receives.of_tx hf (popInst_queueRun (State.inv_request h .txc rest) hu).errors
    exact ⟨[], [], (hcontrol .txc rest).trans hwork, rfl, hf.pending⟩
  | line bytes =>
    cases bytes with
    | nil => cases he; exact ⟨[], [], hcontrol .rxp rest, rfl, rfl⟩
    | cons b bs =>
      rw [serve] at he
      split at he
      · rename_i i more hdec
        obtain ⟨hi, hbytes⟩ := decodeLine_eq_ok hdec
        have hwork := exec_receives (State.inv_request h .rxp (putBack more rest)) hi he
        obtain ⟨_, _, hp⟩ := exec_keepsControl he
        exact ⟨_, more, (hcontrol _ _).trans hwork, (List.append_nil _).trans hbytes, hp⟩
      · obtain ⟨u, hu, rfl⟩ := ofExcept_map_eq_next he
        have hwork := (receiveByte_receives (State.inv_request h .rxp (putBack bs rest)) hu).setResult
        exact ⟨[b], bs, (hcontrol _ _).trans (hwork _), List.append_nil _, (receiveByte_frame hu).1.pending⟩

/-- Only RXP's requests bring bytes, and it has none waiting before the one that is served. -/
theorem rxpBytes_served {before after : List Event} {e : Event} {arrived left : Bytes}
    (hagent : ∀ d ∈ before, d.agent ≠ e.agent) (hbytes : rxpBytes [e] = arrived ++ left) :
    rxpBytes (before ++ e :: after) = arrived ++ rxpBytes (putBack left (before ++ after)) := by
  rw [rxpBytes_append, ← List.singleton_append, rxpBytes_append, hbytes, rxpBytes_putBack, rxpBytes_append]
  by_cases he : e.agent = .rxp
  · rw [rxpBytes_of_agent_ne fun d hd => he ▸ hagent d hd]
    simp
  · rw [rxpBytes_of_agent_ne (es := [e]) (by simpa using he)] at hbytes
    obtain ⟨rfl, rfl⟩ := List.append_eq_nil_iff.1 hbytes.symm
    simp

theorem disciplined_putBack {left : Bytes} {es : List Event} (h : ∀ e ∈ es, e.disciplined) :
    ∀ e ∈ putBack left es, e.disciplined := by
  cases left with
  | nil => exact h
  | cons b bs => exact List.forall_mem_cons.2 ⟨⟨rfl, rfl, rfl⟩, h⟩

/-- With no request to serve it is the framer's or TXC's step that is served, or nothing happens (log 13). -/
theorem idle_serves (s : State) :
    (∃ e, (e = .framerStep ∨ e = .txStep) ∧ idle s = serve e s.pending s) ∨ idle s = .next s := by
  rw [idle]
  split
  · split
    · exact .inr rfl
    · exact .inl ⟨_, .inr rfl, rfl⟩
  · exact .inl ⟨_, .inl rfl, rfl⟩

/-- A step moves the bytes it takes from RXP's requests into `RX_FIFO` and on to the framer, and keeps the discipline. -/
theorem step_receives {s t : State} (h : s.inv) (hd : ∀ e ∈ s.pending, e.disciplined) (hstep : step s = .next t) :
    ∃ arrived, Receives s t arrived ∧ rxpBytes s.pending = arrived ++ rxpBytes t.pending ∧ ∀ e ∈ t.pending, e.disciplined := by
  rcases step_cases s with ⟨e, rest, hp, he⟩ | ⟨_, he⟩ <;> rw [he] at hstep
  · obtain ⟨before, after, hsplit, rfl, _, _, hagent⟩ := pick_spec hp
    rw [hsplit] at hd ⊢
    obtain ⟨hbefore, he, hafter⟩ := List.forall_mem_append.1 hd |>.imp_right List.forall_mem_cons.1
    obtain ⟨arrived, left, hr, hbytes, hpend⟩ := serve_receives h he hstep
    rw [hpend]
    exact ⟨arrived, hr, rxpBytes_served hagent hbytes, disciplined_putBack (List.forall_mem_append.2 ⟨hbefore, hafter⟩)⟩
  · rcases idle_serves s with ⟨e, he, hidle⟩ | hidle <;> rw [hidle] at hstep
    · have hnone : e.disciplined ∧ rxpBytes [e] = [] := by rcases he with rfl | rfl <;> exact ⟨⟨rfl, rfl, rfl⟩, rfl⟩
      obtain ⟨arrived, left, hr, hbytes, hpend⟩ := serve_receives h hnone.1 hstep
      obtain ⟨rfl, rfl⟩ := List.append_eq_nil_iff.1 (hbytes.symm.trans hnone.2)
      rw [hpend]
      exact ⟨[], hr, rfl, hd⟩
    · cases hstep
      exact ⟨[], .refl _, rfl, hd⟩

/-! ### Runs -/

theorem core_run_succ_next {M : Host.Core} {k : Nat} {s t : M.State} (h : M.run (k + 1) s = .next t) :
    ∃ u, M.step s = .next u ∧ M.run k u = .next t := by
  rw [Host.Core.run] at h
  split at h
  · exact ⟨_, ‹_›, h⟩
  · cases h
  · cases h

theorem run_receives {k : Nat} {s t : State} (h : s.inv) (hd : ∀ e ∈ s.pending, e.disciplined) (hrun : run k s = .next t) :
    ∃ arrived, Receives s t arrived ∧ rxpBytes s.pending = arrived ++ rxpBytes t.pending := by
  induction k generalizing s with
  | zero => cases hrun; exact ⟨[], .refl _, rfl⟩
  | succ k ih =>
    obtain ⟨u, hu, hrest⟩ := core_run_succ_next hrun
    obtain ⟨arrived, hr, hbytes, hd'⟩ := step_receives h hd hu
    obtain ⟨more, hr', hbytes'⟩ := ih (stepKeepsInvariant s u h hu) hd' hrest
    exact ⟨arrived ++ more, hr.trans hr', by rw [hbytes, hbytes', List.append_assoc]⟩

/-! ### The obligations -/

/-- Settles O25: both runs compose their steps. -/
theorem fifoTrafficKeepsOrder : Obligations.FifoTrafficKeepsOrder := by
  constructor
  · intro x is s t rs bs h hb hi ht hcount
    exact (traceAll_queueRun h hi ht).order hcount bs hb
  · intro k s t bs h hb hd hrun hcount
    obtain ⟨arrived, ⟨fed, hq, u, hu, hut⟩, hbytes⟩ := run_receives h hd hrun
    obtain ⟨cs, hc, horder⟩ := hq.order hcount bs hb
    obtain ⟨_, hframer, hdel⟩ := State.framing_eq_iff.1 hut
    exact ⟨arrived, fed, cs, u, hbytes, hc, horder, hu, hframer.symm, hdel.symm⟩

end Sys2Proof.Machine
end

section
/-! The CRC generator (41_crc16 R130 to R132): the bitwise step is linear over XOR and moves the low byte up unchanged, from
which the corner cases of the checksum and the table form follow. -/

namespace Sys2Proof.Machine

/-! ### The step is linear over XOR -/

theorem crcBit_eq (poly c : U16) : crcBit poly c = (c <<< 1) ^^^ (if c.getLsbD 15 then poly else 0) := by
  unfold crcBit
  split <;> simp

theorem crcBit_xor (poly c d : U16) : crcBit poly (c ^^^ d) = crcBit poly c ^^^ crcBit poly d := by
  have hmask : ∀ x y : Bool, (if x ^^ y then poly else 0) = (if x then poly else 0) ^^^ (if y then poly else 0) := by
    intro x y
    cases x <;> cases y <;> simp
  rw [crcBit_eq, crcBit_eq, crcBit_eq, BitVec.shiftLeft_xor_distrib, BitVec.getLsbD_xor, hmask]
  ac_rfl

theorem crcBits_xor (poly : U16) (n : Nat) (c d : U16) :
    crcBits poly n (c ^^^ d) = crcBits poly n c ^^^ crcBits poly n d := by
  induction n generalizing c d with
  | zero => rfl
  | succ n ih => rw [crcBits, crcBit_xor, ih]; rfl

theorem crcStep_xor (poly c d : U16) (a b : Byte) :
    crcStep poly (c ^^^ d) (a ^^^ b) = crcStep poly c a ^^^ crcStep poly d b := by
  rw [crcStep, crcStep, crcStep, ← crcBits_xor, BitVec.setWidth_xor, BitVec.shiftLeft_xor_distrib]
  congr 1
  ac_rfl

theorem crcFold_zipWith_xor (poly : U16) {xs ys : Bytes} (h : xs.length = ys.length) (c d : U16) :
    crcFold poly (c ^^^ d) (List.zipWith (· ^^^ ·) xs ys) = crcFold poly c xs ^^^ crcFold poly d ys := by
  induction xs generalizing ys c d with
  | nil => cases List.length_eq_zero_iff.1 h.symm; rfl
  | cons x xs ih =>
    obtain ⟨y, ys, rfl⟩ := List.exists_cons_of_length_eq_add_one h.symm
    rw [List.zipWith_cons_cons, crcFold, crcStep_xor]
    exact ih (Nat.succ.inj h) _ _

/-! ### The low byte of the accumulator moves up unchanged -/

theorem crcBit_shiftLeft (poly : U16) {c : U16} (h : c.toNat < 2 ^ 15) : crcBit poly c = c <<< 1 := by
  have hmsb : c.getLsbD 15 = false := Nat.testBit_lt_two_pow h
  rw [crcBit, hmsb]
  rfl

/-- `n` steps on an accumulator whose highest `n` bits are 0 shift it and XOR nothing. -/
theorem crcBits_shiftLeft (poly : U16) {n : Nat} {c : U16} (h : c.toNat * 2 ^ n < 2 ^ 16) :
    crcBits poly n c = c <<< n := by
  induction n generalizing c with
  | zero => simp [crcBits]
  | succ n ih =>
    have hdouble : c.toNat * 2 * 2 ^ n < 2 ^ 16 := by rwa [Nat.mul_assoc, ← Nat.pow_succ']
    have hle : c.toNat * 2 ≤ c.toNat * 2 * 2 ^ n := Nat.le_mul_of_pos_right _ (Nat.two_pow_pos n)
    have hshift : (c <<< 1).toNat = c.toNat * 2 := by
      rw [BitVec.toNat_shiftLeft, Nat.shiftLeft_eq, Nat.mod_eq_of_lt (by omega), Nat.pow_one]
    rw [crcBits, crcBit_shiftLeft poly (by omega), ih (by rwa [hshift]), ← BitVec.shiftLeft_add, Nat.add_comm]

theorem setWidth_lo8_shiftLeft (c : U16) : (lo8 c).setWidth 16 <<< 8 = c <<< 8 := by
  apply BitVec.eq_of_toNat_eq
  simp only [BitVec.toNat_shiftLeft, BitVec.toNat_setWidth, lo8_toNat, Nat.shiftLeft_eq]
  omega

theorem setWidth_lo8_xor_hi8 (c : U16) : (lo8 c).setWidth 16 ^^^ ((hi8 c).setWidth 16 <<< 8) = c := by
  ext i hi
  by_cases h : i < 8
  · simp [lo8, h, BitVec.getLsbD_eq_getElem hi]
  · simp [lo8, hi8, h, show 8 + (i - 8) = i by omega, show i - 8 < 8 by omega, BitVec.getLsbD_eq_getElem hi]

/-- The table step of 41_crc16 R132: the high byte meets the next byte, the low byte moves up. -/
theorem crcStep_eq_table_step (poly c : U16) (b : Byte) :
    crcStep poly c b = crcStep poly 0 (hi8 c ^^^ b) ^^^ (c <<< 8) := by
  have hlow : crcBits poly 8 ((lo8 c).setWidth 16) = c <<< 8 := by
    have := (lo8 c).isLt
    rw [crcBits_shiftLeft poly (by rw [BitVec.toNat_setWidth]; omega), setWidth_lo8_shiftLeft]
  have hsplit : c ^^^ (b.setWidth 16 <<< 8) = ((0 : U16) ^^^ ((hi8 c ^^^ b).setWidth 16 <<< 8)) ^^^ (lo8 c).setWidth 16 := by
    nth_rw 1 [← setWidth_lo8_xor_hi8 c]
    simp only [BitVec.ofNat_eq_ofNat, BitVec.zero_xor, BitVec.setWidth_xor, BitVec.shiftLeft_xor_distrib]
    ac_rfl
  rw [crcStep, hsplit, crcBits_xor, hlow]
  rfl

/-! ### The corner cases of 41_crc16 R130 -/

theorem crcStep_zero (poly : U16) : crcStep poly 0 0 = 0 := by
  simp [crcStep, crcBits_shiftLeft]

/-- A byte equal to the high byte of the accumulator cancels it. -/
theorem crcStep_hi8 (poly c : U16) : crcStep poly c (hi8 c) = c <<< 8 := by
  have hzero : crcStep poly 0 (hi8 c ^^^ hi8 c) = 0 := by rw [BitVec.xor_self]; exact crcStep_zero poly
  rw [crcStep_eq_table_step, hzero]
  exact BitVec.zero_xor

theorem hi8_shiftLeft (c : U16) : hi8 (c <<< 8) = lo8 c := by
  apply BitVec.eq_of_toNat_eq
  rw [hi8_toNat, lo8_toNat, BitVec.toNat_shiftLeft, Nat.shiftLeft_eq]
  omega

/-- The residue: its own two bytes bring an accumulator to 0. -/
theorem crcFold_residue (poly c : U16) : crcFold poly c [hi8 c, lo8 c] = 0 := by
  rw [crcFold, crcFold, crcStep_hi8, ← hi8_shiftLeft, crcStep_hi8, ← BitVec.shiftLeft_add]
  exact BitVec.shiftLeft_eq_zero (by omega)

/-! ### The definition of 41_crc16 R130 -/

theorem crcBits_eq_iterate (poly : U16) (n : Nat) (c : U16) : crcBits poly n c = (crcBit poly)^[n] c := by
  induction n generalizing c with
  | zero => rfl
  | succ n ih => exact ih _

theorem crcFold_eq_foldl (poly c : U16) (bs : Bytes) : crcFold poly c bs = bs.foldl (crcStep poly) c := by
  induction bs generalizing c with
  | nil => rfl
  | cons b bs ih => exact ih _

/-- With the parameters of 00_scope R8 the checksum is the bit-by-bit definition. -/
theorem crc16_xmodem_eq_foldl (bs : Bytes) : crc16 CrcParams.xmodem bs =
    bs.foldl (fun (c : U16) (b : Byte) => (crcBit 0x1021)^[8] (c ^^^ (b.setWidth 16 <<< 8))) 0 := by
  simp only [crc16_xmodem, crcFold_eq_foldl, ← crcBits_eq_iterate]
  rfl

/-! ### The operations -/

theorem noteCrc_setResult_eq (s : State) (c : U16) (r : Result) :
    (s.noteCrc c).setResult r = { s with result := r, crcAcc := if s.cfg.crcSerial then c else s.crcAcc } := by
  unfold State.noteCrc
  split <;> rfl

theorem exec_crc16 {bytes : Bytes} (h : bytes.length ≤ 65535) (s : State) :
    exec (.crc16 bytes) s = .next ((s.noteCrc (crc16 s.cfg.crc bytes)).setResult (.crc (crc16 s.cfg.crc bytes))) :=
  if_neg (Nat.not_lt.2 h)

theorem exec_encode {p : Bytes} (hmin : 1 ≤ p.length) (hmax : p.length ≤ 65535) (s : State) :
    exec (.encode p) s = .next ((s.noteCrc (crc16 s.cfg.crc p)).setResult (.frame (frameOf s.cfg.crc p))) :=
  if_neg (by simp only [lMax]; omega)

/-- Settles O29: the fold is R130's, the step is linear over XOR, and the checksum's own bytes cancel it. -/
theorem crc16Operation : Obligations.Crc16Operation := by
  refine ⟨fun bytes s h => if_pos h, fun bytes s h hp => ⟨crc16 s.cfg.crc bytes, ?_, ?_⟩,
    fun p s hmin hmax => ⟨_, exec_encode hmin hmax s, by simp⟩, rfl, fun m => ?_, fun xs ys h => ?_, fun p => ?_⟩
  · rw [exec_crc16 h, noteCrc_setResult_eq]
  · rw [hp]
    exact crc16_xmodem_eq_foldl bytes
  · rw [crc16_xmodem, crc16_xmodem, crcFold]
    exact congrArg (crcFold 0x1021 · m) (crcStep_zero _)
  · rw [crc16_xmodem, crc16_xmodem, crc16_xmodem, ← crcFold_zipWith_xor _ h]
    rfl
  · simp only [crc16_xmodem, crcFold_append]
    exact crcFold_residue _ _

/-! ### The printed table -/

/-- `T[i] = crc16([i])` (41_crc16 R132), by computing the 256 entries. -/
theorem crcTable_getElem? : ∀ b : Byte, crcTable[b.toNat]? = some (crc16 CrcParams.xmodem [b]) := by decide

theorem crcTable_getElem?_eq_none {i : Nat} (h : 256 ≤ i) : crcTable[i]? = none :=
  have hend : crcTable[256]? = none := by decide
  List.getElem?_eq_none ((List.getElem?_eq_none_iff.1 hend).trans h)

theorem ushiftRight_eq_setWidth_hi8 (c : U16) : c >>> 8 = (hi8 c).setWidth 16 := by
  apply BitVec.eq_of_toNat_eq
  rw [BitVec.toNat_ushiftRight, BitVec.toNat_setWidth, hi8_toNat, Nat.shiftRight_eq_div_pow]
  omega

/-- The index of the table step (41_crc16 R132). -/
theorem table_index_toNat (c : U16) (b : Byte) :
    (((c >>> 8) ^^^ b.setWidth 16) &&& 0x00FF).toNat = (hi8 c ^^^ b).toNat := by
  have hmask : (0x00FF : U16).toNat = 2 ^ 8 - 1 := rfl
  have := (hi8 c ^^^ b).isLt
  rw [ushiftRight_eq_setWidth_hi8, ← BitVec.setWidth_xor, BitVec.toNat_and, hmask, Nat.and_two_pow_sub_one_eq_mod,
    BitVec.toNat_setWidth]
  omega

/-- Settles O30: the printed entries are computed, and the step from any accumulator comes down to one of them. -/
theorem crcTableFormAgrees : Obligations.CrcTableFormAgrees := by
  refine ⟨List.ext_getElem? fun i => ?_, fun c b => ?_⟩
  · by_cases hi : i < 256
    · have hentry := crcTable_getElem? (BitVec.ofNat 8 i)
      rw [BitVec.toNat_ofNat, Nat.mod_eq_of_lt hi] at hentry
      rw [hentry, List.getElem?_map, List.getElem?_range hi, Option.map_some]
    · rw [crcTable_getElem?_eq_none (by omega), List.getElem?_eq_none (by simpa using hi)]
  · rw [table_index_toNat, crcTable_getElem?, crcStep_eq_table_step, crc16_xmodem]
    rfl

end Sys2Proof.Machine
end

section
/-! The checksum of a changed string (41_crc16 R130, 42_packet_codec R145): with an odd polynomial each step of the generator is
injective, in the accumulator and in the byte, so a difference that one byte makes is never lost. -/

namespace Sys2Proof.Machine

section
variable {poly : U16} (hodd : poly[0] = true)
include hodd

/-- The bit shifted out is bit 0 of the result, so nothing is lost. -/
theorem crcBit_injective : Function.Injective (crcBit poly) := by
  intro c d h
  have hbit (x : U16) : (crcBit poly x)[0] = x.getLsbD 15 := by
    rw [crcBit]
    cases x.getLsbD 15 <;> simp [hodd]
  have htop : c.getLsbD 15 = d.getLsbD 15 := by rw [← hbit, h, hbit]
  have hshift : c <<< 1 = d <<< 1 := by
    rwa [crcBit_eq, crcBit_eq, htop, BitVec.xor_left_inj] at h
  apply BitVec.eq_of_getLsbD_eq
  intro i hi
  by_cases h15 : i = 15
  · rw [h15, htop]
  · have hlow := congrArg (BitVec.getLsbD · (i + 1)) hshift
    simpa [show i + 1 < 16 by omega, hi] using hlow

theorem crcBits_injective (n : Nat) : Function.Injective (crcBits poly n) := by
  rw [funext (crcBits_eq_iterate poly n)]
  exact (crcBit_injective hodd).iterate n

theorem crcStep_injective_acc (b : Byte) : Function.Injective (crcStep poly · b) :=
  fun _ _ h => (BitVec.xor_left_inj _).1 (crcBits_injective hodd 8 h)

theorem crcStep_injective_byte (c : U16) : Function.Injective (crcStep poly c) := by
  intro a b h
  have hshift : a.setWidth 16 <<< 8 = b.setWidth 16 <<< 8 := (BitVec.xor_right_inj _).1 (crcBits_injective hodd 8 h)
  have hnat := congrArg BitVec.toNat hshift
  simp only [BitVec.toNat_shiftLeft, BitVec.toNat_setWidth, Nat.shiftLeft_eq] at hnat
  apply BitVec.eq_of_toNat_eq
  omega

theorem crcFold_injective_acc (bs : Bytes) : Function.Injective (crcFold poly · bs) := by
  induction bs with
  | nil => exact Function.injective_id
  | cons b bs ih => exact ih.comp (crcStep_injective_acc hodd b)

/-- One changed byte changes the accumulator at the end. -/
theorem crcFold_set_ne {bs : Bytes} {k : Nat} (hk : k < bs.length) {b : Byte} (hb : byteAt bs k ≠ b) (c : U16) :
    crcFold poly c (bs.set k b) ≠ crcFold poly c bs := by
  induction bs generalizing k c with
  | nil => exact absurd hk (Nat.not_lt_zero k)
  | cons x xs ih =>
    cases k with
    | zero => exact fun h => hb (crcStep_injective_byte hodd c (crcFold_injective_acc hodd xs h)).symm
    | succ k => exact ih (Nat.lt_of_succ_lt_succ hk) hb _

end

/-- With the parameters of 00_scope R8 one changed byte changes the checksum. -/
theorem crc16_xmodem_set_ne {bs : Bytes} {k : Nat} (hk : k < bs.length) {b : Byte} (hb : byteAt bs k ≠ b) :
    crc16 CrcParams.xmodem (bs.set k b) ≠ crc16 CrcParams.xmodem bs := by
  rw [crc16_xmodem, crc16_xmodem]
  exact crcFold_set_ne (by decide) hk hb 0

end Sys2Proof.Machine
end

section
/-! The round trip of the codec, a window with no marker, and a packet with a changed byte (42_packet_codec R142, R144,
R145). -/

namespace Sys2Proof.Machine

/-! ### The round trip (42_packet_codec R144) -/

/-- What ENCODE emits is a packet that carries its payload's checksum, in either form (42_packet_codec R140). -/
theorem frameOf_isPacket {p : Bytes} (hmin : 1 ≤ p.length) (hmax : p.length ≤ 65535) (c : CrcParams) :
    ∃ hd, IsPacket (frameOf c p) hd p (crc16 c p) := by
  unfold frameOf
  split
  · exact ⟨_, shortFrame_isPacket hmin ‹_› _⟩
  · exact ⟨_, longFrame_isPacket hmin hmax _⟩

/-- The bound of R144: the short form needs one byte less than the long form. -/
theorem frameOf_length_le {p : Bytes} {cap : Nat}
    (hfit : p.length + 6 ≤ cap ∨ (p.length ≤ 255 ∧ p.length + 5 ≤ cap)) (c : CrcParams) : (frameOf c p).length ≤ cap := by
  unfold frameOf
  split
  · rw [shortFrame_length, ovhShort]; omega
  · rename_i hlong
    rw [shortMax] at hlong
    rw [longFrame_length, ovhLong]; omega

/-! ### A window that begins with no marker (42_packet_codec R142 line 2) -/

theorem headerOf_eq_none {w : Bytes} (hshort : w[0]? ≠ some startShort) (hlong : w[0]? ≠ some startLong) :
    headerOf w = none := by
  cases w with
  | nil => rfl
  | cons b bs =>
    have hb : b ≠ startShort ∧ b ≠ startLong := by simpa using And.intro hshort hlong
    simp [headerOf, byteAt, hb]

theorem checkWindow_of_headerOf_none {w : Bytes} (h : headerOf w = none) (c : Config) :
    checkWindow c w = .error (if w.length < 6 then .needMore else .reject .badMarker) := by
  rw [checkWindow, minPacket, h]
  split <;> rfl

/-- A DECODE that lines 1 to 6 decide answers their verdict and changes nothing else. -/
theorem exec_decode_of_error {w : Bytes} {s : State} {v : Verdict} (h : checkWindow s.cfg w = .error v) :
    exec (.decode w) s = .next (s.setResult (.verdict v)) := by
  show execDecode w s = _
  rw [execDecode, State.noteDecode, decodeWindow, h]

/-! ### The fields of a changed window -/

section
variable {w : Bytes} {h : Header} {k : Nat} {b : Byte}

theorem byteAt_set_ne {i : Nat} (hi : i ≠ k) : byteAt (w.set k b) i = byteAt w i := by
  simp [byteAt, List.getElem?_set_ne hi.symm]

theorem byteAt_set_self (hk : k < w.length) : byteAt (w.set k b) k = b := by
  simp [byteAt, hk]

/-- A byte behind the header is not read for it. -/
theorem headerOf_set (hh : headerOf w = some h) (hk : h.hdr ≤ k) : headerOf (w.set k b) = some h := by
  rcases headerOf_cases hh with ⟨h0, rfl⟩ | ⟨h0, rfl⟩ <;> dsimp only at hk
  · rw [← hh, headerOf, headerOf, byteAt_set_ne (by omega), byteAt_set_ne (by omega), if_pos h0, if_pos h0]
  · rw [← hh, headerOf, headerOf, byteAt_set_ne (by omega), byteAt_set_ne (by omega), byteAt_set_ne (by omega)]

theorem payloadOf_set (hk : h.hdr ≤ k) : payloadOf (w.set k b) h = (payloadOf w h).set (k - h.hdr) b := by
  rw [payloadOf_eq, payloadOf_eq, List.drop_set, if_neg (Nat.not_lt.2 hk), List.take_set]

theorem payloadOf_length (hw : h.hdr + h.len ≤ w.length) : (payloadOf w h).length = h.len := by
  rw [payloadOf_eq, List.length_take, List.length_drop]
  omega

theorem byteAt_payloadOf {i : Nat} (hi : i < h.len) : byteAt (payloadOf w h) i = byteAt w (h.hdr + i) := by
  simp [payloadOf_eq, byteAt, List.getD_eq_getElem?_getD, hi]

theorem crcFieldOf_inj {v : Bytes} (hf : crcFieldOf v h = crcFieldOf w h) :
    byteAt v (h.size - 3) = byteAt w (h.size - 3) ∧ byteAt v (h.size - 2) = byteAt w (h.size - 2) :=
  ⟨by simpa [crcFieldOf] using congrArg hi8 hf, by simpa [crcFieldOf] using congrArg lo8 hf⟩

/-! ### DECODE of a changed packet (42_packet_codec R145) -/

variable {c : Config}

/-- A byte between the header and the end marker plays no part in lines 1 to 6. -/
theorem checkWindow_set (hc : checkWindow c w = .ok h) (hk : h.hdr ≤ k) (hend : k < h.size - 1) :
    checkWindow c (w.set k b) = .ok h := by
  obtain ⟨hmin, hh, hzero, hcap, hlen, hmark⟩ := checkWindow_ok hc
  rw [← w.length_set (i := k) (a := b)] at hmin hlen
  exact checkWindow_intro hmin (headerOf_set hh hk) hzero hcap hlen (by rwa [byteAt_set_ne (Nat.ne_of_gt hend)])

/-- Line 6 rejects any other byte in the place of the end marker. -/
theorem checkWindow_set_end (hc : checkWindow c w = .ok h) (hb : b ≠ endMark) :
    checkWindow c (w.set (h.size - 1) b) = .error (.reject .badTerminator) := by
  obtain ⟨hmin, hh, hzero, hcap, hlen, _⟩ := checkWindow_ok hc
  have hsize := headerOf_size hh
  rw [checkWindow, headerOf_set hh (by omega)]
  simp [Nat.not_lt.2 hmin, hzero, Nat.not_lt.2 hcap, Nat.not_lt.2 hlen, hb,
    byteAt_set_self (show h.size - 1 < w.length by omega)]

/-- Another byte in the payload gives another checksum, another one in the CRC field another field; the other of
the two stays as it was. -/
theorem crc_ne_crcFieldOf_set (hcrc : c.crc = CrcParams.xmodem) (hc : checkWindow c w = .ok h)
    (hok : crc16 c.crc (payloadOf w h) = crcFieldOf w h) (hk : h.hdr ≤ k) (hend : k < h.size - 1) (hb : byteAt w k ≠ b) :
    crc16 c.crc (payloadOf (w.set k b) h) ≠ crcFieldOf (w.set k b) h := by
  obtain ⟨_, hh, _, _, hlen, _⟩ := checkWindow_ok hc
  have hsize := headerOf_size hh
  have hplen : (payloadOf w h).length = h.len := payloadOf_length (by omega)
  by_cases hpay : k < h.hdr + h.len
  · have hfield : crcFieldOf (w.set k b) h = crcFieldOf w h := by
      rw [crcFieldOf, crcFieldOf, byteAt_set_ne (by omega), byteAt_set_ne (by omega)]
    rw [hfield, ← hok, payloadOf_set hk, hcrc]
    apply crc16_xmodem_set_ne (by omega)
    rwa [byteAt_payloadOf (by omega), Nat.add_sub_cancel' hk]
  · have hpayload : payloadOf (w.set k b) h = payloadOf w h := by
      rw [payloadOf_set hk, List.set_eq_of_length_le (by omega)]
    rw [hpayload, hok]
    intro hf
    obtain ⟨hhi, hlo⟩ := crcFieldOf_inj hf
    have hself : byteAt (w.set k b) k = b := byteAt_set_self (by omega)
    have hplace : k = h.size - 3 ∨ k = h.size - 2 := by omega
    rcases hplace with rfl | rfl
    · exact hb (hhi.trans hself)
    · exact hb (hlo.trans hself)

end

theorem ne_xor_two_pow {bit : Nat} (hbit : bit < 8) (b : Byte) : b ≠ b ^^^ BitVec.ofNat 8 (2 ^ bit) := by
  have hmask : ∀ i < 8, BitVec.ofNat 8 (2 ^ i) ≠ 0#8 := by decide
  intro h
  exact hmask bit hbit ((BitVec.xor_right_inj b).1 (h.symm.trans BitVec.xor_zero.symm))

/-! ### The obligations -/

/-- Settles O34: ENCODE emits a packet that carries its CRC and fits, and DECODE of such a packet is `ok`. -/
theorem packetRoundTrip : Obligations.PacketRoundTrip := by
  intro p s hmin hmax hfit
  obtain ⟨hd, hw⟩ := frameOf_isPacket hmin hmax s.cfg.crc
  have hverdict : decodeWindow s.cfg (frameOf s.cfg.crc p) = .ok hd.length p.length (frameOf s.cfg.crc p).length :=
    hw.decodeWindow_ok rfl (frameOf_length_le hfit _)
  refine ⟨_, _, frameOf s.cfg.crc p, hd.length, exec_encode hmin hmax s, rfl, rfl, ?_, ?_⟩
  · simp [hverdict]
  · have hslice := hw.slice_eq
    rwa [slice, Nat.add_sub_cancel_left] at hslice

/-- Settles O35: a flipped bit is a changed byte, so lines 1 to 6 pass and the checksum differs from the field, or line 6 rejects
the end marker. -/
theorem singleBitFlipIsRejected : Obligations.SingleBitFlipIsRejected := by
  intro c w hdr len size k bit hcrc hd hbit
  obtain ⟨hc, hok⟩ := decodeWindow_ok hd
  have hb := ne_xor_two_pow hbit (byteAt w k)
  refine ⟨fun hk hend => ?_, fun hend => ?_⟩
  · rw [decodeWindow, checkWindow_set hc hk hend]
    exact if_pos (crc_ne_crcFieldOf_set hcrc hc hok hk hend hb)
  · subst hend
    obtain ⟨_, _, _, _, _, hmark⟩ := checkWindow_ok hc
    rw [decodeWindow, checkWindow_set_end hc (hmark ▸ hb.symm)]

/-- Settles O33: a window with no marker has no header, so line 1 or line 2 decides. -/
theorem decodeRejectsBadMarker : Obligations.DecodeRejectsBadMarker := fun _ _ hshort hlong =>
  ⟨_, exec_decode_of_error (checkWindow_of_headerOf_none (headerOf_eq_none hshort hlong) _), rfl, ⟨rfl, rfl, rfl⟩,
    ⟨rfl, rfl, rfl⟩, ⟨rfl, rfl, rfl⟩, rfl⟩

end Sys2Proof.Machine
end

section
/-! FEED by the bytes it finds buffered, and the progress of the decode pass in whatever form the staging storage is
(43_stream_framer R161 to R167). -/

namespace Sys2Proof.Machine

/-! ### FEED by what is buffered -/

theorem exec_feed_of_ok {b : Byte} {s u : State} (h : feedByte b s = .ok u) :
    exec (.feed b) s = .next (u.withPayloadsSince s) := by
  rw [exec, execFeed, h, exceptMap_ok, ofExcept_ok]

/-- FEED ends as FEED on the contents of the staging buffer says (43_stream_framer R161 to R166). -/
theorem exec_feed_runs {s : State} {win : Bytes} (h : s.inv) (hw : s.framer.holds win) (b : Byte) :
    ∃ u, exec (.feed b) s = .next (u.withPayloadsSince s) ∧ RunsPass s u (listFeed s.cfg win b) := by
  obtain ⟨u, hu, hrun⟩ := feedByte_runs h.2.2.2 hw b
  exact ⟨u, exec_feed_of_ok hu, hrun⟩

theorem Framer.holds_nil_iff {f : Framer} : f.holds [] ↔ f.lastValidIndex = -1 :=
  ⟨fun h => h.1, fun h => ⟨h, fun k hk => absurd hk (Nat.not_lt_zero k)⟩⟩

/-- The window of DECODE is the contents of the staging buffer, in whatever form the storage is. -/
theorem Framer.readRun_holds {cap : Nat} {f : Framer} {win : Bytes} (h : f.holds win) (hfit : win.length ≤ cap) :
    readRun cap f.stg 0 f.n = .ok win := by
  rw [Framer.n_of_holds h]
  exact readRun_ok (by omega) (fun k hk => by rw [Nat.zero_add, h.2 k hk])

theorem isCandidate_iff {b : Byte} : isCandidate b = true ↔ b = 0x02 ∨ b = 0x03 := by
  show _ ↔ b = startShort ∨ b = startLong
  simp [isCandidate]

/-- A byte written behind the buffered ones is buffered as the last. -/
theorem Framer.holds_append {f : Framer} {win : Bytes} (h : f.holds win) (b : Byte) :
    Framer.holds ⟨f.stg.write win.length b, win.length⟩ (win ++ [b]) := by
  refine ⟨by simp, fun k hk => ?_⟩
  rcases Nat.lt_or_eq_of_le (Nat.le_of_lt_succ (by simpa using hk)) with hlt | rfl
  · rw [Memory.read_write_ne _ _ (Nat.ne_of_lt hlt), h.2 k hlt, List.getElem?_append_left hlt]
  · simp

/-- The block after byte `b` has been appended at index `k` (43_stream_framer R161, R162). -/
def State.appended (s : State) (k : Nat) (b : Byte) : State := (s.setStg (s.framer.stg.write k b)).setLastValidIndex k

@[simp] theorem State.appended_cfg (s : State) (k : Nat) (b : Byte) : (s.appended k b).cfg = s.cfg := rfl

theorem appendByte_eq {s : State} {win : Bytes} (hw : s.framer.holds win) (hroom : win.length < s.cfg.stgCap) (b : Byte) :
    appendByte b s = .ok (s.appended win.length b) := by
  have hlast : s.framer.lastValidIndex + 1 = win.length := by rw [hw.1]; omega
  rw [appendByte, Framer.n_of_holds hw, if_pos hroom, hlast, State.appended]

/-- The loop on a buffer of which DECODE asks for more changes nothing (43_stream_framer R163). -/
theorem passLoop_needMore {s : State} {win : Bytes} (hw : s.framer.holds win) (hfit : win.length ≤ s.cfg.stgCap)
    (hmore : decodeWindow s.cfg win = .needMore) (k : Nat) : passLoop k s = .ok s := by
  cases k with
  | zero => rfl
  | succ k => simp only [passLoop, Framer.readRun_holds hw hfit, passTrip, hmore, ite_self]

/-- A FEED after which DECODE asks for more appends the byte, whatever its value, and does nothing else
(43_stream_framer R161 to R163). -/
theorem exec_feed_appends {s : State} {win : Bytes} {b : Byte} (hw : s.framer.holds win) (hroom : win.length < s.cfg.stgCap)
    (hstart : win = [] → isCandidate b = true) (hmore : decodeWindow s.cfg (win ++ [b]) = .needMore) :
    exec (.feed b) s = .next ((s.appended win.length b).setResult (.payloads [])) := by
  have hkeep : ¬ (s.framer.seeking ∧ ¬ isCandidate b) := fun h => h.2 (hstart ((Framer.seeking_of_holds hw).1 h.1))
  have hpass : decodePass (s.appended win.length b) = .ok (s.appended win.length b) :=
    passLoop_needMore (s := s.appended win.length b) (Framer.holds_append hw b) (by simpa [Nat.succ_le_iff] using hroom) hmore _
  have hfeed : feedByte b s = .ok (s.appended win.length b) := by
    simp only [feedByte, if_neg hkeep, appendByte_eq hw hroom b, hpass]
  rw [exec_feed_of_ok hfeed, State.withPayloadsSince]
  simp [State.appended]

theorem State.appended_keepsBytes (s : State) (k : Nat) (b : Byte) :
    keepsBytesOutside (· = k) s.framer.stg (s.appended k b).framer.stg :=
  fun _ ha => Memory.read_write_ne _ b ha

/-- DECODE asks for more of a window with fewer than six bytes (42_packet_codec R142 line 1). -/
theorem decodeWindow_of_short {c : Config} {win : Bytes} (h : win.length < minPacket) : decodeWindow c win = .needMore := by
  simp only [decodeWindow, checkWindow, if_pos h]

/-- In SEEKING a byte that is no candidate start is discarded (43_stream_framer R161). -/
theorem exec_feed_discards {s : State} {b : Byte} (hseek : s.framer.lastValidIndex = -1) (hb : b ≠ 0x02 ∧ b ≠ 0x03) :
    exec (.feed b) s = .next (s.setResult (.payloads [])) := by
  have hdrop : s.framer.seeking ∧ ¬ isCandidate b :=
    ⟨decide_eq_true hseek, fun hc => (isCandidate_iff.1 hc).elim hb.1 hb.2⟩
  have hfeed : feedByte b s = .ok s := by rw [feedByte, if_pos hdrop]
  rw [exec_feed_of_ok hfeed, State.withPayloadsSince, List.drop_length]

/-! ### The decode pass on a window it rejects -/

theorem listFeed_accumulating {c : Config} {win : Bytes} (hne : win ≠ []) (b : Byte) :
    listFeed c win b = listPass c (win.length + 1) (win ++ [b]) := if_neg fun h => hne h.1

/-- A declared size above `S` under `discard_all` empties the buffer (43_stream_framer R166). -/
theorem listPass_discardAll {c : Config} {win : Bytes} (hne : win ≠ []) (hd : decodeWindow c win = .reject .oversize)
    (hpol : c.oversize = .discardAll) (k : Nat) :
    (listPass c (k + 1) win).left = [] ∧ (listPass c (k + 1) win).payloads = [] := by
  cases win with
  | nil => exact absurd rfl hne
  | cons b win => simp [listPass, hd, hpol, Pass.stop]

/-- Under `resync` the pass goes on from the next candidate start (43_stream_framer R165, R166). -/
theorem listPass_resync {c : Config} {win : Bytes} (hne : win ≠ []) (hd : decodeWindow c win = .reject .oversize)
    (hpol : c.oversize = .resync) (k : Nat) :
    (listPass c (k + 1) win).left = (listPass c k (afterResync win)).left ∧
      (listPass c (k + 1) win).payloads = (listPass c k (afterResync win)).payloads := by
  cases win with
  | nil => exact absurd rfl hne
  | cons b win => simp [listPass, hd, hpol]

theorem afterResync_length_lt {win : Bytes} (hne : win ≠ []) : (afterResync win).length < win.length := by
  have hle := (List.dropWhile_sublist (l := win.drop 1) fun b => b ≠ startShort ∧ b ≠ startLong).length_le
  have hpos := List.length_pos_iff.2 hne
  rw [List.length_drop] at hle
  rw [afterResync]
  omega

/-! ### Progress of the decode pass -/

/-- Removing the first `k` bytes leaves the rest, in whatever form the storage is (20_memory R61). -/
theorem shiftLeft_holds {s : State} {win : Bytes} {k : Nat} (hw : s.framer.holds win) (hfit : win.length ≤ s.cfg.stgCap)
    (hk : k ≤ win.length) : ∃ t, shiftLeft k win s = .ok t ∧ t.framer.holds (win.drop k) := by
  obtain ⟨m, he, hin, _⟩ := writeRun_spec (cap := s.cfg.stgCap) (m := s.framer.stg) (bs := win.drop k) (i := 0)
    (by rw [List.length_drop]; omega)
  refine ⟨_, by rw [shiftLeft, he], ?_, fun j hj => by rw [← hin j hj, Nat.zero_add]; rfl⟩
  have hlast := hw.1
  simp only [State.setLastValidIndex_framer, State.setStg_framer, List.length_drop]
  omega

theorem resync_holds {s : State} {win : Bytes} (hw : s.framer.holds win) (hfit : win.length ≤ s.cfg.stgCap) :
    ∃ t, resync win s = .ok t ∧ t.framer.holds (afterResync win) := by
  rw [afterResync_eq, resync]
  cases hr : resyncPoint win with
  | none => exact ⟨_, rfl, Framer.holds_nil_iff.2 rfl⟩
  | some j => exact shiftLeft_holds hw hfit (Nat.le_of_lt (resyncPoint_bounds hr).2)

theorem react_holds {s : State} {win : Bytes} (r : RejectReason) (hw : s.framer.holds win)
    (hfit : win.length ≤ s.cfg.stgCap) (hne : win ≠ []) :
    ∃ t left, react r win s = .ok t ∧ t.framer.holds left ∧ left.length < win.length := by
  rw [react]
  split
  · exact ⟨_, [], rfl, Framer.holds_nil_iff.2 rfl, List.length_pos_iff.2 hne⟩
  · obtain ⟨t, ht, hold⟩ := resync_holds hw hfit
    exact ⟨t, _, ht, hold, afterResync_length_lt hne⟩

/-- A trip round the loop returns or leaves fewer bytes, in whatever form the storage is (43_stream_framer R167). -/
theorem passTrip_shrinks {s : State} {win : Bytes} (hw : s.framer.holds win) (hfit : win.length ≤ s.cfg.stgCap)
    (hne : win ≠ []) : passTrip win s = .ok none ∨
      ∃ t left, passTrip win s = .ok (some t) ∧ t.framer.holds left ∧ left.length < win.length := by
  rw [passTrip]
  cases hd : decodeWindow s.cfg win with
  | needMore => exact .inl rfl
  | ok hdr len size =>
    obtain ⟨hcheck, _⟩ := decodeWindow_ok hd
    obtain ⟨_, hhead, _, _, hsize, _⟩ := checkWindow_ok hcheck
    have hpos := headerOf_size hhead
    obtain ⟨t, ht, hold⟩ := shiftLeft_holds (s := (s.noteDecode win).deliver (slice win hdr (hdr + len))) (k := size)
      (by simpa using hw) (by simpa using hfit) hsize
    refine .inr ⟨t, _, by simp only [consume, ht, exceptMap_ok], hold, ?_⟩
    simp only [List.length_drop] at hpos hsize ⊢
    omega
  | reject r =>
    obtain ⟨t, left, ht, hold, hlt⟩ := react_holds (s := (s.noteDecode win).recordError (errorOfReject r)) r
      (by simpa using hw) (by simpa using hfit) hne
    exact .inr ⟨t, left, by simp only [ht, exceptMap_ok], hold, hlt⟩

/-- Any two numbers of trips above the number of buffered bytes give the same answer (43_stream_framer R167). -/
theorem passLoop_enough {j k : Nat} {s : State} {win : Bytes} (hw : s.framer.holds win) (hfit : win.length ≤ s.cfg.stgCap)
    (hj : win.length < j) (hk : win.length < k) : ∃ t, passLoop k s = .ok t ∧ passLoop j s = .ok t := by
  induction k generalizing j s win with
  | zero => omega
  | succ k ih =>
    obtain ⟨j, rfl⟩ := Nat.exists_eq_add_one.2 (Nat.zero_lt_of_lt hj)
    have hn := Framer.n_of_holds hw
    by_cases hne : win = []
    · exact ⟨s, by simp [passLoop, hn, hne], by simp [passLoop, hn, hne]⟩
    · have hn0 : s.framer.n ≠ 0 := fun h0 => hne (List.eq_nil_of_length_eq_zero (hn ▸ h0))
      simp only [passLoop, if_neg hn0, Framer.readRun_holds hw hfit]
      rcases passTrip_shrinks hw hfit hne with ht | ⟨t, left, ht, hold, hlt⟩
      · exact ⟨s, by simp only [ht], by simp only [ht]⟩
      · have hcfg := (passTrip_frame ht).1.cfg
        simp only [ht]
        exact ih hold (by rw [hcfg]; omega) (by omega) (by omega)

end Sys2Proof.Machine
end

section
/-! The bytes of a packet and garbage fed one after another, POLL as a FEED of each byte of `RX_FIFO`, and the obligations about
the framer (43_stream_framer R160 to R171). -/

namespace Sys2Proof.Machine

/-! ### FEED of the bytes of a packet -/

/-- FEED of the bytes of a proper beginning of a packet that fits: they are buffered, and nothing is delivered
(43_stream_framer R162, R171). -/
theorem execAll_feed_beginning {bs rest win hd p w : Bytes} {crc : U16} {s : State} (hw : IsPacket w hd p crc)
    (hsplit : win ++ bs ++ rest = w) (hne : rest ≠ []) (hinv : s.inv) (hold : s.framer.holds win)
    (hfit : w.length ≤ s.cfg.stgCap) :
    ∃ t, execAll (bs.map .feed) s = .next t ∧ t.inv ∧ t.framer.holds (win ++ bs) ∧ Delivers s t [] := by
  induction bs generalizing win s with
  | nil => exact ⟨s, rfl, hinv, by rwa [List.append_nil], rfl, (List.append_nil _).symm, rfl⟩
  | cons b bs ih =>
    have hsplit' : win ++ [b] ++ bs ++ rest = w := by simpa using hsplit
    have hstart : win = [] → isCandidate b = true := fun h0 => by simpa [← hsplit, h0, byteAt] using hw.marker
    have hmore := hw.decodeWindow_needMore hfit (win := win ++ [b]) (bs := bs ++ rest) (by simpa using hsplit) (by simp [hne])
    have hfeed := exec_feed_appends hold (Framer.fits_of_holds hinv.2.2.2 hold).2 hstart hmore
    obtain ⟨t, ht, hinvt, holdt, hdel⟩ := ih hsplit' (exec_keeps_inv hinv hfeed) (Framer.holds_append hold b) hfit
    refine ⟨t, ?_, hinvt, by simpa using holdt, hdel.cfg, hdel.delivered, hdel.errors⟩
    simp only [List.map_cons, execAll, hfeed]
    exact ht

/-- FEED of a packet that fits and carries its CRC, in SEEKING, delivers its payload (43_stream_framer R164, R169). -/
theorem execAll_feed_packet {hd p w : Bytes} {s : State} (hw : IsPacket w hd p (crc16 s.cfg.crc p)) (hinv : s.inv)
    (hseek : s.framer.lastValidIndex = -1) (hfit : w.length ≤ s.cfg.stgCap) :
    ∃ t, execAll (w.map .feed) s = .next t ∧ t.inv ∧ t.framer.lastValidIndex = -1 ∧ Delivers s t [p] := by
  obtain ⟨init, b, hlast⟩ : ∃ init b, w = init ++ [b] := by
    refine ⟨w.dropLast, _, (List.dropLast_append_getLast (List.length_pos_iff.1 ?_)).symm⟩
    rw [hw.length_eq]; omega
  obtain ⟨t, ht, hinvt, hold, hdel⟩ := execAll_feed_beginning (win := []) (bs := init) hw hlast.symm (by simp) hinv
    (Framer.holds_nil_iff.2 hseek) hfit
  obtain ⟨u, hu, hrun⟩ := exec_feed_runs hinvt hold b
  have hpass : listFeed t.cfg init b = ⟨[], [p], [], computedCrc t.cfg w⟩ := by
    rw [listFeed_of_candidate (hlast ▸ hw.marker), ← hlast, hdel.cfg,
      listPass_ok (by simp [hlast]) (hw.decodeWindow_ok rfl hfit), hw.slice_eq]
  rw [List.nil_append, hpass] at hrun
  have hlastFeed : Delivers t (u.withPayloadsSince t) [p] := ⟨hrun.frame.cfg, hrun.delivered, by simpa using hrun.errors⟩
  refine ⟨_, ?_, exec_keeps_inv hinvt hu, hrun.fits.holds.1, hdel.trans hlastFeed⟩
  rw [hlast, List.map_append, execAll_append_next ht]
  simp only [List.map_cons, List.map_nil, execAll, hu]

/-- Bytes that are no candidate starts leave a framer in SEEKING as it is (43_stream_framer R161). -/
theorem execAll_feed_garbage {gs : Bytes} {s : State} (hseek : s.framer.lastValidIndex = -1)
    (hgs : ∀ g ∈ gs, g ≠ 0x02 ∧ g ≠ 0x03) : ∃ r, execAll (gs.map .feed) s = .next (s.setResult r) := by
  induction gs generalizing s with
  | nil => exact ⟨s.result, rfl⟩
  | cons g gs ih =>
    obtain ⟨hg, hgs⟩ := List.forall_mem_cons.1 hgs
    obtain ⟨r, hr⟩ := ih (s := s.setResult (.payloads [])) hseek hgs
    refine ⟨r, ?_⟩
    simp only [List.map_cons, execAll, exec_feed_discards hseek hg]
    exact hr

/-! ### POLL as FEEDs -/

/-- Two states whose framers have worked alike: they agree on what FEED reads and on all that it writes but the result. -/
structure FedAlike (s t : State) : Prop where
  framing : s.framing = t.framing
  errors  : s.errors = t.errors
  crcAcc  : s.crcAcc = t.crcAcc

/-- From states that agree FEED ends in states that agree: the framing as `feedByte_framing` says, the error conditions and the
accumulator as the pass on the common contents says. -/
theorem feedByte_fedAlike {s t u : State} {b : Byte} (h : FedAlike s t) (hok : s.framer.ok s.cfg.stgCap)
    (hu : feedByte b s = .ok u) : ∃ v, feedByte b t = .ok v ∧ FedAlike u v := by
  obtain ⟨hcfg, hframer, _⟩ := State.framing_eq_iff.1 h.framing
  obtain ⟨v, hv, hframing⟩ := (feedByte_framing h.framing b).eq_ok hu
  obtain ⟨win, hfit, _⟩ := Framer.fits_of_ok hok
  obtain ⟨u', hu', hrun⟩ := feedByte_runs hok hfit.holds b
  obtain ⟨v', hv', hrun'⟩ := feedByte_runs (s := t) (hcfg ▸ hframer ▸ hok) (hframer ▸ hfit.holds) b
  cases hu.symm.trans hu'
  cases hv.symm.trans hv'
  exact ⟨v, hv, hframing.symm, by rw [hrun.errors, hrun'.errors, h.errors, hcfg],
    by rw [hrun.crcAcc, hrun'.crcAcc, h.crcAcc, hcfg]⟩

/-- A framer step feeds the oldest byte of `RX_FIFO` and leaves the others there (44_boundary R191). -/
theorem framerStep_feeds {s : State} {b : Byte} {bs : Bytes} (h : s.inv) (hb : s.rx.holds s.cfg.cRx (b :: bs)) :
    ∃ f t, framerStep s = .ok t ∧ feedByte b (s.setFifo .rx f) = .ok t ∧ t.inv ∧ t.rx.holds t.cfg.cRx bs ∧
      t.rx.mem = s.rx.mem := by
  have hpop := fifoPop_cons h.2.1.1 hb
  obtain ⟨b', f, t, hpop', hstep, hframe, hinv, _⟩ := framerStep_spec h (by rw [hb.1]; exact Nat.succ_ne_zero _)
  cases hpop.symm.trans hpop'
  refine ⟨_, t, hstep, by simpa only [framerStep, hpop] using hstep, hinv, ?_, by rw [hframe.rx]; rfl⟩
  rw [hframe.rx, hframe.cfg]
  exact Fifo.holds_pop hb

/-- Framer steps in the number of the bytes in `RX_FIFO` work as a FEED of each byte, and leave the storage of `RX_FIFO` as it is
(43_stream_framer R168). -/
theorem framerSteps_feed_all {bs : Bytes} {s t : State} (h : s.inv) (hb : s.rx.holds s.cfg.cRx bs) (hst : FedAlike s t) :
    ∃ u v, framerSteps bs.length s = .ok u ∧ execAll (bs.map .feed) t = .next v ∧ FedAlike u v ∧ u.rx.mem = s.rx.mem := by
  induction bs generalizing s t with
  | nil => exact ⟨s, t, rfl, rfl, hst, rfl⟩
  | cons b bs ih =>
    obtain ⟨f, s', hstep, hfeed, hinv, hb', hmem⟩ := framerStep_feeds h hb
    obtain ⟨t', ht, hst'⟩ := feedByte_fedAlike (s := s.setFifo .rx f) (t := t) ⟨hst.framing, hst.errors, hst.crcAcc⟩ h.2.2.2 hfeed
    obtain ⟨u, v, hu, hv, huv, hmem'⟩ := ih (t := t'.withPayloadsSince t) hinv hb' ⟨hst'.framing, hst'.errors, hst'.crcAcc⟩
    refine ⟨u, v, by simp only [List.length_cons, framerSteps, hstep, hu], ?_, huv, hmem'.trans hmem⟩
    simp only [List.map_cons, execAll, exec_feed_of_ok ht]
    exact hv

/-! ### The obligations -/

/-- Settles O44: either form is a packet, whose beginnings only ask for more bytes. -/
theorem validPacketIsDeliveredOnce : Obligations.ValidPacketIsDeliveredOnce := by
  intro p f s hinv hseek hfit hp hform
  obtain ⟨hd, hw⟩ : ∃ hd, IsPacket f hd p (crc16 s.cfg.crc p) := by
    rcases hform with ⟨hmax, rfl⟩ | ⟨hmax, rfl⟩
    · exact ⟨_, shortFrame_isPacket hp hmax _⟩
    · exact ⟨_, longFrame_isPacket hp hmax _⟩
  constructor
  · obtain ⟨t, ht, _, hseek', hdel⟩ := execAll_feed_packet hw hinv hseek hfit
    exact ⟨t, ht, hdel.delivered, hseek', hdel.errors⟩
  · intro k hk
    obtain ⟨t, ht, _, hold, hdel⟩ := execAll_feed_beginning (win := []) (bs := f.take k) (rest := f.drop k) hw
      (List.take_append_drop k f) (by simpa using hk) hinv (Framer.holds_nil_iff.2 hseek) hfit
    exact ⟨t, ht, by simpa using hdel.delivered, hold⟩

/-- Settles O38, by induction on the bytes. -/
theorem garbageIsAbsorbedInSeeking : Obligations.GarbageIsAbsorbedInSeeking :=
  fun _ _ hseek hgs => execAll_feed_garbage hseek hgs

/-- Settles O39: the append has room by the invariant, and the pass returns at once. -/
theorem feedInAccumulating : Obligations.FeedInAccumulating := by
  intro b s win hinv hold hne hmore
  refine ⟨_, exec_feed_appends hold (Framer.fits_of_holds hinv.2.2.2 hold).2 (absurd · hne) hmore, rfl,
    Framer.holds_append hold b, s.appended_keepsBytes _ b, ?_⟩
  exact ⟨⟨rfl, rfl, rfl⟩, ⟨rfl, rfl, rfl⟩, rfl, rfl, rfl⟩

/-- Settles O41: after a resync of six bytes at most five are left, of which DECODE asks for more. -/
theorem oversizeFollowsThePolicy : Obligations.OversizeFollowsThePolicy := by
  intro b s win hinv hold hne hover
  obtain ⟨u, hu, hrun⟩ := exec_feed_runs hinv hold b
  rw [listFeed_accumulating hne] at hrun
  have hne' : win ++ [b] ≠ [] := by simp
  have hend {left : Bytes} (hleft : (listPass s.cfg (win.length + 1) (win ++ [b])).left = left)
      (hnone : (listPass s.cfg (win.length + 1) (win ++ [b])).payloads = []) :
      u.framer.holds left ∧ u.delivered = s.delivered :=
    ⟨hleft ▸ hrun.fits.holds, by rw [hrun.delivered, hnone, List.append_nil]⟩
  constructor
  · intro hpol
    obtain ⟨hleft, hnone⟩ := listPass_discardAll hne' hover hpol win.length
    obtain ⟨hold', hdel⟩ := hend hleft hnone
    exact ⟨_, hu, hold'.1, hdel⟩
  · intro hpol hlen
    obtain ⟨hleft, hnone⟩ := listPass_resync hne' hover hpol win.length
    have hshort : (afterResync (win ++ [b])).length < minPacket := by
      simpa [hlen, minPacket] using afterResync_length_lt hne'
    rw [listPass_needMore (decodeWindow_of_short hshort)] at hleft hnone
    exact ⟨_, hu, hend hleft hnone⟩

/-- Settles O42, by induction on the number of trips. -/
theorem decodePassTerminates : Obligations.DecodePassTerminates := by
  intro s win _ hold hfit
  have hn := Framer.n_of_holds hold
  refine ⟨fun t hne ht => ?_, fun k hk => passLoop_enough hold hfit (by omega) hk⟩
  rcases passTrip_shrinks hold hfit hne with hret | ⟨t', left, ht', hold', hlt⟩
  · cases ht.symm.trans hret
  · cases ht.symm.trans ht'
    rwa [hn, Framer.n_of_holds hold']

/-- Settles O43: both parts are clauses of the framer's invariant, which FEED keeps. -/
theorem stagingNeverOverflows : Obligations.StagingNeverOverflows := by
  intro b s hinv
  obtain ⟨u, hu, hinv'⟩ := feedByte_keeps_inv hinv b
  have hcfg := (feedByte_frame hu).1.cfg
  obtain ⟨_, hroom, _, hwithin, _⟩ := hinv'.2.2.2
  rw [hcfg] at hroom hwithin
  refine ⟨_, exec_feed_of_ok hu, ?_, hwithin⟩
  rw [State.withPayloadsSince_framer, Framer.n]
  omega

/-- Settles O45: two packets, each fed in SEEKING, and between them bytes that change nothing. -/
theorem packetsAroundGarbageAreDelivered : Obligations.PacketsAroundGarbageAreDelivered := by
  intro p q gs s hinv hseek hp hpmax hpfit hq hqmax hqfit hgs
  obtain ⟨_, hpacket⟩ := frameOf_isPacket hp hpmax s.cfg.crc
  obtain ⟨t, ht, hinvt, hseekt, hdel⟩ := execAll_feed_packet hpacket hinv hseek (frameOf_length_le hpfit _)
  obtain ⟨r, hr⟩ := execAll_feed_garbage hseekt hgs
  rw [← hdel.cfg] at hqfit
  obtain ⟨_, hpacket'⟩ := frameOf_isPacket hq hqmax t.cfg.crc
  obtain ⟨u, hu, _, hseeku, hdel'⟩ := execAll_feed_packet (s := t.setResult r) hpacket' (State.inv_setResult hinvt r) hseekt
    (frameOf_length_le hqfit _)
  refine ⟨u, ?_, by rw [hdel'.delivered, State.setResult_delivered, hdel.delivered, List.append_assoc]; rfl, hseeku⟩
  rw [List.append_assoc, List.map_append, execAll_append_next ht, List.map_append, execAll_append_next hr, ← hdel.cfg]
  exact hu

/-- Settles O47, by induction on the bytes in `RX_FIFO`. -/
theorem pollFeedsEveryByte : Obligations.PollFeedsEveryByte := by
  intro s bs hinv hb
  obtain ⟨u, v, hu, hv, ⟨hframing, herr, hcrc⟩, hmem⟩ := framerSteps_feed_all hinv hb ⟨rfl, rfl, rfl⟩
  rw [← hb.1] at hu
  obtain ⟨_, hframer, hdel⟩ := State.framing_eq_iff.1 hframing
  obtain ⟨u', hu', hframe, _, hlen⟩ := framerSteps_spec (k := s.rx.length) hinv
  cases hu.symm.trans hu'
  refine ⟨u.withPayloadsSince s, v, by rw [exec, execPoll, hu, exceptMap_ok, ofExcept_ok], hv, ?_, hframer, hcrc, hdel, herr,
    hframe.delivered, rfl, hmem, hframe.tx, hframe.txLine, hframe.cfg, hframe.agent, hframe.pending⟩
  rw [State.withPayloadsSince_rx, hlen, Nat.sub_self]

/-- Settles O36: the operation writes `lastValidIndex` and the result only. -/
theorem framerResetSeeks : Obligations.FramerResetSeeks := fun s =>
  ⟨(discardAll s).setResult .none, rfl, rfl, rfl, rfl, ⟨rfl, rfl, rfl⟩, ⟨rfl, rfl, rfl⟩, rfl, rfl, rfl⟩

/-- Settles O37: with one byte buffered DECODE asks for more. -/
theorem feedInSeeking : Obligations.FeedInSeeking := by
  intro b s hvalid hseek
  refine ⟨fun hshort hlong => exec_feed_discards hseek ⟨hshort, hlong⟩, fun hb => ?_⟩
  have hfeed := exec_feed_appends (Framer.holds_nil_iff.2 hseek) (Nat.lt_of_lt_of_le (by decide) hvalid.2.2)
    (fun _ => isCandidate_iff.2 hb) (decodeWindow_of_short (by simp [minPacket]))
  refine ⟨_, hfeed, rfl, rfl, Memory.read_write_same _ 0 b, s.appended_keepsBytes 0 b, ?_⟩
  exact ⟨⟨rfl, rfl, rfl⟩, ⟨rfl, rfl, rfl⟩, rfl, rfl, rfl⟩

end Sys2Proof.Machine
end

section
/-! The transmit side of the block (44_boundary R193, R194, 60_exceptions R206): WRITE as a STORE of a frame for which there is
room, and a relation between the states before and after any piece of work, which composes, by which the line and `TX_FIFO`
carry the written frames whole and in order. -/

namespace Sys2Proof.Machine

/-! ### WRITE -/

section
variable {s : State} {frame : Bytes}

theorem writeHolds_iff :
    writeHolds frame s = true ↔ frame.length ≤ s.cfg.cTx - 1 ∧ s.tx.freeSpace s.cfg.cTx < frame.length := by
  rw [writeHolds, Bool.and_eq_true, decide_eq_true_iff, decide_eq_true_iff]

theorem not_writeHolds_of_room (h : frame.length ≤ s.tx.freeSpace s.cfg.cTx) : writeHolds frame s = false :=
  Bool.eq_false_iff.2 fun hheld => Nat.not_lt.2 h (writeHolds_iff.1 hheld).2

/-- A WRITE of a frame for which there is room is a STORE of it (44_boundary R193). -/
theorem exec_write_of_room (h : frame.length ≤ s.tx.freeSpace s.cfg.cTx) :
    exec (.write frame) s = exec (.store .tx frame) s := by
  have hfits : ¬ s.cfg.cTx - 1 < frame.length := by rw [Fifo.freeSpace] at h; omega
  show execWrite frame s = execStore .tx frame s
  rw [execWrite, if_neg hfits, if_neg (Bool.eq_false_iff.1 (not_writeHolds_of_room h))]
  rfl

/-- The STORE inside WRITE puts the frame behind what `TX_FIFO` holds and writes no other byte of its storage. -/
theorem exec_write_stores {bs : Bytes} (h : s.inv) (hb : s.tx.holds s.cfg.cTx bs) (hcount : frame.length ≤ countMax)
    (hroom : frame.length ≤ s.tx.freeSpace s.cfg.cTx) :
    ∃ f, exec (.write frame) s = .next (s.filled .tx f false) ∧ f.holds s.cfg.cTx (bs ++ frame) ∧ f.start = s.tx.start ∧
      keepsBytesOutside (fun a => ∃ k, k < frame.length ∧ a = (s.tx.start + s.tx.length + k) % s.cfg.cTx)
        s.tx.mem f.mem := by
  have hok : s.tx.ok s.cfg.cTx := State.inv_fifo h .tx
  have hcap := Fifo.cap_pos hok
  have hmax : bs.length ≤ s.cfg.cTx - 1 := hb.1 ▸ hok.2.1
  obtain ⟨m, hm, hin, hout, _⟩ := fifoStore_room hcap hroom
  have hlen : bs.length + frame.length < s.cfg.cTx := by rw [Fifo.freeSpace, hb.1] at hroom; omega
  exact ⟨_, (exec_write_of_room hroom).trans (exec_store_eq hcount hm), Fifo.holds_store hb hlen hin hout, rfl,
    fun a ha => hout a fun k hk heq => ha ⟨k, hk, heq⟩⟩

end

/-! ### Work on the transmit side -/

/-- From `s` to `t` the frames `frames` were written: the line only grew, and it and then `TX_FIFO` carry what they carried
and then those frames. -/
structure Transmits (s t : State) (frames : List Bytes) : Prop where
  cfg   : t.cfg = s.cfg
  line  : s.txLine <+: t.txLine
  order : ∀ bs, s.tx.holds s.cfg.cTx bs → ∃ cs, t.tx.holds s.cfg.cTx cs ∧ t.txLine ++ cs = s.txLine ++ bs ++ frames.flatten

section
variable {s t u : State} {frames : List Bytes}

/-- Work outside `TX_FIFO` and the line. -/
theorem Transmits.of_same (hcfg : t.cfg = s.cfg) (htx : t.tx = s.tx) (hline : t.txLine = s.txLine) : Transmits s t [] :=
  ⟨hcfg, hline ▸ List.prefix_refl _, fun bs hb => ⟨bs, htx ▸ hb, by rw [hline, List.flatten_nil, List.append_nil]⟩⟩

theorem Transmits.refl (s : State) : Transmits s s [] := .of_same rfl rfl rfl

theorem Transmits.trans {more : List Bytes} (h : Transmits s t frames) (k : Transmits t u more) :
    Transmits s u (frames ++ more) := by
  refine ⟨k.cfg.trans h.cfg, h.line.trans k.line, fun bs hb => ?_⟩
  obtain ⟨cs, hc, hst⟩ := h.order bs hb
  obtain ⟨ds, hd, htu⟩ := k.order cs (h.cfg ▸ hc)
  exact ⟨ds, h.cfg ▸ hd, by rw [htu, hst, List.flatten_append, List.append_assoc _ frames.flatten]⟩

/-- POP TX by TXC moves the oldest byte to the end of the line, or finds none. -/
theorem popInst_transmits (h : s.inv) (hagent : s.agent = .txc) (hu : popInst .tx s = .ok t) : Transmits s t [] := by
  have hok := State.inv_fifo h .tx
  obtain ⟨bs, hb, _⟩ := Fifo.ok_holds hok
  cases bs with
  | nil =>
    cases (popInst_empty (i := .tx) hb.1).symm.trans hu
    exact .of_same rfl rfl rfl
  | cons b bs =>
    cases (popInst_cons (i := .tx) (fifoPop_cons hok.1 hb)).symm.trans hu
    refine ⟨by simp, by simp [hagent], fun bs' hb' => ⟨bs, ?_, ?_⟩⟩
    · simpa using Fifo.holds_pop hb
    · simp [hagent, ← Fifo.holds_unique hb hb']

/-! ### Every instruction under the discipline -/

/-- The frames an instruction writes. -/
def framesIn : Instr → List Bytes
  | .write frame => [frame]
  | _ => []

/-- What the discipline leaves to an instruction of the agent `a`: no reset of `TX_FIFO`, no PUSH or STORE on it, and POP TX by
TXC alone (60_exceptions R206). -/
def keepsTransmitOrder (a : Agent) : Instr → Prop
  | .reset | .fifoReset .tx | .push .tx _ | .store .tx _ => False
  | .pop .tx => a = .txc
  | _ => True

theorem exec_codec_transmits {i : Instr} (he : exec i s = .next t)
    (hi : (∃ d, i = .crc16 d) ∨ (∃ p, i = .encode p) ∨ (∃ w, i = .decode w)) : Transmits s t [] := by
  obtain ⟨_, htx, _, _, hline, _, hcrc⟩ := exec_codec_frame he hi
  exact .of_same hcrc.cfg htx hline

theorem exec_framer_transmits {i : Instr} (he : exec i s = .next t) (hi : (∃ b, i = .feed b) ∨ i = .framerReset) :
    Transmits s t [] := by
  obtain ⟨_, htx, hline, hcrc⟩ := exec_framer_frame he hi
  exact .of_same hcrc.cfg htx hline

theorem exec_receive_transmits {i : Instr} (he : exec i s = .next t)
    (hi : i = .poll ∨ (∃ p c, i = .frameShort p c) ∨ (∃ p c, i = .frameLong p c)) : Transmits s t [] := by
  obtain ⟨htx, hline, hcrc⟩ := exec_receive_frame he hi
  exact .of_same hcrc.cfg htx hline

/-- A WRITE that is enabled and completes has written its frame. -/
theorem exec_write_transmits {frame : Bytes} (h : s.inv) (hfree : writeHolds frame s = false)
    (he : exec (.write frame) s = .next t) : Transmits s t [frame] := by
  rcases execWrite_cases frame s with ⟨_, hw⟩ | ⟨hheld, _⟩ | ⟨_, _, hw⟩ | ⟨hcount, hroom, _⟩
  · cases hw.symm.trans he
  · cases hfree.symm.trans hheld
  · cases hw.symm.trans he
  · obtain ⟨bs, hb, _⟩ := Fifo.ok_holds (State.inv_fifo h .tx)
    obtain ⟨f, hw, hf, _⟩ := exec_write_stores h hb hcount hroom
    cases hw.symm.trans he
    have hline := State.filled_txLine s .tx f false
    refine ⟨(State.filled_frame s .tx f false).cfg, hline ▸ List.prefix_refl _, fun bs' hb' => ⟨bs ++ frame, ?_, ?_⟩⟩
    · exact (State.filled_fifo s .tx f false).symm ▸ hf
    · rw [hline, ← Fifo.holds_unique hb hb', List.flatten_singleton, List.append_assoc]

theorem exec_transmits {i : Instr} (h : s.inv) (hi : keepsTransmitOrder s.agent i) (hfree : instrHolds i s = false)
    (he : exec i s = .next t) : Transmits s t (framesIn i) := by
  cases i with
  | reset => exact hi.elim
  | push f b =>
    cases f with
    | tx => exact hi.elim
    | rx =>
      obtain ⟨u, hu, rfl⟩ := ofExcept_map_eq_next he
      obtain ⟨hf, hline, _⟩ := pushInst_frame hu
      exact .of_same hf.cfg hf.otherFifo hline
  | store f data =>
    cases f with
    | tx => exact hi.elim
    | rx =>
      rw [exec, execStore] at he
      split at he
      · cases he
      · obtain ⟨u, hu, rfl⟩ := ofExcept_map_eq_next he
        obtain ⟨hf, hline, _⟩ := storeInst_frame hu
        exact .of_same hf.cfg hf.otherFifo hline
  | pop f =>
    have hu := ofExcept_eq_next he
    cases f with
    | tx => exact popInst_transmits h hi hu
    | rx =>
      obtain ⟨hf, ⟨_, _, hline, _⟩ | ⟨b, _, _, hline⟩⟩ := popInst_frame hu
      · exact .of_same hf.cfg hf.otherFifo hline
      · exact .of_same hf.cfg hf.otherFifo (by simpa using hline)
  | length f => cases he; exact .of_same rfl rfl rfl
  | freeSpace f => cases he; exact .of_same rfl rfl rfl
  | fifoReset f =>
    cases f with
    | tx => exact hi.elim
    | rx => cases he; exact .of_same rfl rfl rfl
  | crc16 bytes => exact exec_codec_transmits he (.inl ⟨_, rfl⟩)
  | encode payload => exact exec_codec_transmits he (.inr (.inl ⟨_, rfl⟩))
  | decode win => exact exec_codec_transmits he (.inr (.inr ⟨_, rfl⟩))
  | feed b => exact exec_framer_transmits he (.inl ⟨_, rfl⟩)
  | poll => exact exec_receive_transmits he (.inl rfl)
  | framerReset => exact exec_framer_transmits he (.inr rfl)
  | write frame => exact exec_write_transmits h hfree he
  | unassignedE hi => cases he
  | unassignedF hi => cases he
  | frameShort payload crc => exact exec_receive_transmits he (.inr (.inl ⟨_, _, rfl⟩))
  | frameLong payload crc => exact exec_receive_transmits he (.inr (.inr ⟨_, _, rfl⟩))

end

/-! ### Every request under the discipline -/

/-- The premises on a request: the roles on the transmit side, and no reset of `TX_FIFO` (60_exceptions R206). -/
def Event.transmitDisciplined (e : Event) : Prop := keepsTransmitRoles e = true ∧ empties .tx e = false

theorem transmitDisciplined_op {a : Agent} {r : OpRequest} {i : Instr} (h : Event.transmitDisciplined (.op a r))
    (hd : decodeOp r = .ok i) : keepsTransmitOrder a i ∧ hostWrites [.op a r] = framesIn i := by
  simp only [Event.transmitDisciplined, keepsTransmitRoles, empties, hd] at h
  have hwrites : hostWrites [.op a r] = if a = .host then framesIn i else [] := by
    cases a with
    | host => simp only [hostWrites, hd]; cases i <;> rfl
    | _ => rfl
  rw [hwrites]
  cases i with
  | write frame => exact ⟨trivial, if_pos (of_decide_eq_true h.1)⟩
  | push f _ | store f _ =>
    cases f with
    | rx => exact ⟨trivial, ite_self _⟩
    | tx => simp at h
  | pop f =>
    cases f with
    | rx => exact ⟨trivial, ite_self _⟩
    | tx => exact ⟨by simpa [keepsTransmitOrder] using h, ite_self _⟩
  | fifoReset f =>
    cases f with
    | rx => exact ⟨trivial, ite_self _⟩
    | tx => simp at h
  | reset => simp at h
  | _ => exact ⟨trivial, ite_self _⟩

/-- What the line's decoder answers is a packet. -/
theorem decodeLine_packet {bytes more : Bytes} {i : Instr} (h : decodeLine bytes = .ok (i, more)) :
    (∃ p c, i = .frameShort p c) ∨ ∃ p c, i = .frameLong p c := by
  unfold decodeLine at h
  split at h
  · cases h
  · split at h
    · split at h
      · obtain ⟨payload, crc, rfl, _⟩ := takeFrame_eq_ok h
        exact .inl ⟨payload, crc, rfl⟩
      · cases h
    · split at h
      · split at h
        · obtain ⟨payload, crc, rfl, _⟩ := takeFrame_eq_ok h
          exact .inr ⟨payload, crc, rfl⟩
        · cases h
      · cases h

/-- The acting agent and the requests do not decide whether an instruction holds. -/
theorem instrHolds_request (i : Instr) (s : State) (a : Agent) (es : List Event) :
    instrHolds i { s with agent := a, pending := es } = instrHolds i s := by cases i <;> rfl

theorem instrHolds_of_enabled {s : State} {a : Agent} {r : OpRequest} {i : Instr}
    (h : Event.enabled s (.op a r) = true) (hd : decodeOp r = .ok i) : instrHolds i s = false := by
  simpa [Event.enabled, hd] using h

/-- Serving an enabled request writes the frame it asks for, if it asks for one. -/
theorem serve_transmits {e : Event} {rest : List Event} {s t : State} (h : s.inv) (hd : e.transmitDisciplined)
    (henabled : e.enabled s = true) (he : serve e rest s = .next t) :
    Transmits s t (hostWrites [e]) ∧ ∃ left, t.pending = putBack left rest := by
  have hcontrol (a : Agent) (es : List Event) : Transmits s { s with agent := a, pending := es } [] := .of_same rfl rfl rfl
  cases e with
  | op a r =>
    rw [serve] at he
    split at he
    · rename_i i hdec
      obtain ⟨hi, hwrites⟩ := transmitDisciplined_op hd hdec
      have hfree := instrHolds_of_enabled henabled hdec
      have hwork := exec_transmits (State.inv_request h a rest) hi ((instrHolds_request i s a rest).trans hfree) he
      obtain ⟨_, _, hp⟩ := exec_keepsControl he
      exact ⟨hwrites ▸ (hcontrol a rest).trans hwork, [], hp⟩
    · cases he
  | framerStep =>
    obtain ⟨u, hu, rfl⟩ := ofExcept_map_eq_next he
    obtain ⟨hf, _⟩ := framerStep_frame hu
    exact ⟨.of_same hf.cfg hf.tx hf.txLine, [], hf.pending⟩
  | txStep =>
    have hu := ofExcept_eq_next he
    have hwork := popInst_transmits (State.inv_request h .txc rest) rfl hu
    exact ⟨(hcontrol .txc rest).trans hwork, [], (popInst_frame hu).1.pending⟩
  | line bytes =>
    cases bytes with
    | nil => cases he; exact ⟨hcontrol .rxp rest, [], rfl⟩
    | cons b bs =>
      rw [serve] at he
      split at he
      · have hwork := exec_receive_transmits he (.inr (decodeLine_packet ‹_›))
        obtain ⟨_, _, hp⟩ := exec_keepsControl he
        exact ⟨(hcontrol _ _).trans hwork, _, hp⟩
      · obtain ⟨u, hu, rfl⟩ := ofExcept_map_eq_next he
        obtain ⟨hf, _⟩ := receiveByte_frame hu
        exact ⟨.of_same hf.cfg hf.tx hf.txLine, bs, hf.pending⟩

theorem hostWrites_of_agent_ne {es : List Event} (h : ∀ e ∈ es, e.agent ≠ .host) : hostWrites es = [] := by
  induction es with
  | nil => rfl
  | cons e es ih =>
    have hrest := ih fun d hd => h d (List.mem_cons_of_mem e hd)
    have he := h e List.mem_cons_self
    cases e with
    | op a r =>
      cases a with
      | host => exact absurd rfl he
      | _ => exact hrest
    | _ => exact hrest

theorem hostWrites_putBack (left : Bytes) (es : List Event) : hostWrites (putBack left es) = hostWrites es := by
  cases left <;> rfl

/-- Only HOST's requests write, and it has none waiting before the one that is served. -/
theorem hostWrites_served {before after : List Event} {e : Event} (hagent : ∀ d ∈ before, d.agent ≠ e.agent) :
    hostWrites (before ++ e :: after) = hostWrites [e] ++ hostWrites (before ++ after) := by
  rw [hostWrites_append, ← List.singleton_append, hostWrites_append, hostWrites_append]
  by_cases he : e.agent = .host
  · rw [hostWrites_of_agent_ne fun d hd => he ▸ hagent d hd]
    rfl
  · rw [hostWrites_of_agent_ne (es := [e]) (by simpa using he)]
    rfl

theorem transmitDisciplined_putBack {left : Bytes} {es : List Event} (h : ∀ e ∈ es, e.transmitDisciplined) :
    ∀ e ∈ putBack left es, e.transmitDisciplined := by
  cases left with
  | nil => exact h
  | cons b bs => exact List.forall_mem_cons.2 ⟨⟨rfl, rfl⟩, h⟩

/-! ### Steps and runs -/

theorem framerStep_enabled_iff {s : State} : Event.enabled s .framerStep = true ↔ s.rx.length ≠ 0 := by
  simp [Event.enabled, Fifo.isEmpty]

theorem txStep_enabled_iff {s : State} : Event.enabled s .txStep = true ↔ s.tx.length ≠ 0 := by
  simp [Event.enabled, Fifo.isEmpty]

/-- With no request to serve FRM's step is served if it is enabled, else TXC's if it is, else nothing happens (log 13). -/
theorem idle_serves_enabled (s : State) :
    (∃ e, (e = .framerStep ∨ e = .txStep) ∧ e.enabled s = true ∧ idle s = serve e s.pending s) ∨
    (s.rx.length = 0 ∧ s.tx.length = 0 ∧ idle s = .next s) := by
  by_cases hrx : s.rx.length = 0
  · by_cases htx : s.tx.length = 0
    · exact .inr ⟨hrx, htx, by simp [idle, Fifo.isEmpty, hrx, htx]⟩
    · exact .inl ⟨.txStep, .inr rfl, txStep_enabled_iff.2 htx, by simp [idle, Fifo.isEmpty, hrx, htx]⟩
  · exact .inl ⟨.framerStep, .inl rfl, framerStep_enabled_iff.2 hrx, by simp [idle, Fifo.isEmpty, hrx]⟩

/-- A step takes the frame it writes from HOST's requests, and keeps the discipline. -/
theorem step_transmits {s t : State} (h : s.inv) (hd : ∀ e ∈ s.pending, e.transmitDisciplined) (hstep : step s = .next t) :
    ∃ frames, Transmits s t frames ∧ hostWrites s.pending = frames ++ hostWrites t.pending ∧
      ∀ e ∈ t.pending, e.transmitDisciplined := by
  rcases step_cases s with ⟨e, rest, hp, he⟩ | ⟨_, he⟩ <;> rw [he] at hstep
  · obtain ⟨before, after, hsplit, rfl, henabled, _, hagent⟩ := pick_spec hp
    rw [hsplit] at hd ⊢
    obtain ⟨hbefore, he, hafter⟩ := List.forall_mem_append.1 hd |>.imp_right List.forall_mem_cons.1
    obtain ⟨hwork, left, hpend⟩ := serve_transmits h he henabled hstep
    rw [hpend, hostWrites_putBack]
    exact ⟨_, hwork, hostWrites_served hagent, transmitDisciplined_putBack (List.forall_mem_append.2 ⟨hbefore, hafter⟩)⟩
  · rcases idle_serves_enabled s with ⟨e, he, henabled, hidle⟩ | ⟨_, _, hidle⟩ <;> rw [hidle] at hstep
    · have hnone : e.transmitDisciplined ∧ hostWrites [e] = [] := by rcases he with rfl | rfl <;> exact ⟨⟨rfl, rfl⟩, rfl⟩
      obtain ⟨hwork, left, hpend⟩ := serve_transmits h hnone.1 henabled hstep
      rw [hpend, hostWrites_putBack]
      exact ⟨_, hwork, by rw [hnone.2]; rfl, transmitDisciplined_putBack hd⟩
    · cases hstep
      exact ⟨[], .refl _, rfl, hd⟩

theorem run_transmits {k : Nat} {s t : State} (h : s.inv) (hd : ∀ e ∈ s.pending, e.transmitDisciplined)
    (hrun : run k s = .next t) : ∃ frames, Transmits s t frames ∧ hostWrites s.pending = frames ++ hostWrites t.pending := by
  induction k generalizing s with
  | zero => cases hrun; exact ⟨[], .refl _, rfl⟩
  | succ k ih =>
    obtain ⟨u, hu, hrest⟩ := core_run_succ_next hrun
    obtain ⟨frames, hwork, hwrites, hd'⟩ := step_transmits h hd hu
    obtain ⟨more, hwork', hwrites'⟩ := ih (stepKeepsInvariant s u h hu) hd' hrest
    exact ⟨frames ++ more, hwork.trans hwork', by rw [hwrites, hwrites', List.append_assoc]⟩

/-! ### The obligations -/

/-- Settles O54: a run composes its steps. -/
theorem transmitLineIsWrittenFramesInOrder : Obligations.TransmitLineIsWrittenFramesInOrder := by
  intro k s t bs h hd hb hrun
  obtain ⟨frames, hwork, hwrites⟩ := run_transmits h hd hrun
  obtain ⟨cs, hc, horder⟩ := hwork.order bs hb
  exact ⟨frames, cs, hwrites, hwork.cfg ▸ hc, horder⟩

/-- Settles O50, by the size of the frame; with room it is one STORE. -/
theorem writeStoresHoldsOrRefuses : Obligations.WriteStoresHoldsOrRefuses := by
  intro frame s bs h hb
  have hfree : s.tx.freeSpace s.cfg.cTx = s.cfg.cTx - bs.length - 1 := by rw [Fifo.freeSpace, hb.1]
  refine ⟨fun hlong => if_pos hlong, fun hfits hfull => ?held, fun hcount hroom => ?stored⟩
  case held =>
    rw [exec, execWrite, if_neg (Nat.not_lt.2 hfits), if_pos (writeHolds_iff.2 ⟨hfits, hfree ▸ hfull⟩)]
    rfl
  case stored =>
    obtain ⟨f, hw, hf, hstart, hkeeps⟩ := exec_write_stores h hb hcount (hfree ▸ hroom)
    have hframe := State.filled_frame s .tx f false
    have hfifo : (s.filled .tx f false).tx = f := State.filled_fifo s .tx f false
    exact ⟨_, hw, rfl, hfifo ▸ hf, hfifo ▸ hkeeps, hfifo ▸ hstart, hframe.otherFifo, State.filled_txLine s .tx f false,
      hframe.keepsControl, hframe.keepsFramer, rfl⟩

/-- Settles O51: with room WRITE is a STORE, which refuses the count. -/
theorem writeBeyondStoreCountRefused : Obligations.WriteBeyondStoreCountRefused := by
  intro frame s hcount hroom
  rw [exec_write_of_room hroom]
  exact if_pos hcount

end Sys2Proof.Machine
end

section
/-! The steps FRM and TXC take (44_boundary R191, R194): each as the operations it is made of, and the drain of the block by
the steps they take on their own while no request can be served (log 13). -/

namespace Sys2Proof.Machine

/-! ### The framer's step -/

/-- The framer has worked alike from two states that differ in the result alone. -/
theorem FedAlike.eq_setResult {s u v : State} {r : Result} (h : FedAlike u v) (hu : FramerFrame s u)
    (hv : FramerFrame (s.setResult r) v) : v = u.setResult r := by
  obtain ⟨hframing, herr, hcrc⟩ := h
  obtain ⟨hcfg, hframer, hdel⟩ := State.framing_eq_iff.1 hframing
  have hrx := hv.rx.trans hu.rx.symm
  have htx := hv.tx.trans hu.tx.symm
  have hline := hv.txLine.trans hu.txLine.symm
  have hagent := hv.agent.trans hu.agent.symm
  have hpend := hv.pending.trans hu.pending.symm
  have hres : v.result = r := hv.result
  cases u
  cases v
  simp_all [State.setResult]

/-- FEED does not read the result of the operation before it. -/
theorem feedByte_setResult {s u : State} {b : Byte} (hok : s.framer.ok s.cfg.stgCap) (hu : feedByte b s = .ok u)
    (r : Result) : feedByte b (s.setResult r) = .ok (u.setResult r) := by
  obtain ⟨v, hv, halike⟩ := feedByte_fedAlike (s := s) (t := s.setResult r) ⟨rfl, rfl, rfl⟩ hok hu
  rw [hv, halike.eq_setResult (feedByte_frame hu).1 (feedByte_frame hv).1]

/-- An enabled framer step is POP RX and then FEED of the byte popped, up to the results on the way. -/
theorem framerStep_eq_pop_feed {s : State} (h : s.inv) (hne : s.rx.length ≠ 0) :
    ∃ b f u, exec (.pop .rx) s = .next ((s.setFifo .rx f).setResult (.popped true b)) ∧
      exec (.feed b) ((s.setFifo .rx f).setResult (.popped true b)) = .next (u.withPayloadsSince s) ∧ framerStep s = .ok u := by
  obtain ⟨b, f, hpop, hf, _⟩ := fifoPop_ok (State.inv_fifo h .rx) hne
  have hinv : (s.setFifo .rx f).inv := State.inv_setFifo h hf
  obtain ⟨u, hu, _⟩ := feedByte_keeps_inv hinv b
  refine ⟨b, f, u, congrArg ofExcept (popInst_cons hpop), ?_, ?_⟩
  · exact (exec_feed_of_ok (feedByte_setResult hinv.2.2.2 hu (.popped true b))).trans rfl
  · rw [State.cap_rx, State.fifo_rx] at hpop
    simp only [framerStep, hpop, hu]

theorem serve_framerStep_eq {s u : State} {es : List Event} (h : framerStep { s with agent := .frm, pending := es } = .ok u) :
    serve .framerStep es s = .next (u.withPayloadsSince s) := by
  rw [serve]
  simp only [h, exceptMap_ok, ofExcept_ok]
  rfl

/-! ### TXC's step -/

/-- POP TX with the oldest byte there. -/
theorem popInst_tx_cons {s : State} {b : Byte} {bs : Bytes} (h : s.inv) (hb : s.tx.holds s.cfg.cTx (b :: bs)) :
    ∃ f, popInst .tx s = .ok (((s.setFifo .tx f).notePop .tx b).setResult (.popped true b)) ∧ f.holds s.cfg.cTx bs ∧
      f.mem = s.tx.mem :=
  ⟨_, popInst_cons (fifoPop_cons (State.inv_fifo h .tx).1 hb), Fifo.holds_pop hb, rfl⟩

/-! ### The drain -/

theorem core_run_of_step {M : Host.Core} {k : Nat} {s u : M.State} (h : M.step s = .next u) :
    M.run (k + 1) s = M.run k u := by
  simp only [Host.Core.run, h]

theorem run_of_step {k : Nat} {s u : State} (h : step s = .next u) : run (k + 1) s = run k u :=
  core_run_of_step (M := Sys2Proof.core) h

/-- FRM's step takes a byte out of `RX_FIFO`, if there is one, and leaves the transmit side alone. -/
theorem serve_framerStep_drains {s : State} (h : s.inv) (es : List Event) :
    ∃ t, serve .framerStep es s = .next t ∧ t.inv ∧ t.pending = es ∧ Transmits s t [] ∧
      t.rx.length = s.rx.length - 1 ∧ t.tx.length = s.tx.length := by
  obtain ⟨u, hu, hf, hi, hlen⟩ := framerStep_total (State.inv_request h .frm es)
  exact ⟨_, serve_framerStep_eq hu, State.inv_setResult hi _, hf.pending, .of_same hf.cfg hf.tx hf.txLine, hlen,
    congrArg Fifo.length hf.tx⟩

/-- TXC's step takes a byte out of `TX_FIFO`, if there is one, and leaves `RX_FIFO` alone. -/
theorem serve_txStep_drains {s : State} (h : s.inv) (es : List Event) :
    ∃ t, serve .txStep es s = .next t ∧ t.inv ∧ t.pending = es ∧ Transmits s t [] ∧
      t.rx.length = s.rx.length ∧ t.tx.length = s.tx.length - 1 := by
  have hinv := State.inv_request h .txc es
  obtain ⟨t, ht, hi, _, hpend, _, _, _, _, hother, hlen⟩ := popInst_spec hinv .tx
  obtain ⟨hcfg, hline, horder⟩ := popInst_transmits hinv rfl ht
  exact ⟨t, congrArg ofExcept ht, hi, hpend, ⟨hcfg, hline, horder⟩, congrArg Fifo.length hother, hlen⟩

/-- With no request to serve and a byte in either FIFO, a step takes one byte out of them, and the line and `TX_FIFO` carry what
they carried. -/
theorem step_drains {s : State} (h : s.inv) (hnone : pick s [] s.pending = none) (hne : s.rx.length + s.tx.length ≠ 0) :
    ∃ t, step s = .next t ∧ t.inv ∧ t.pending = s.pending ∧ Transmits s t [] ∧
      t.rx.length + t.tx.length + 1 = s.rx.length + s.tx.length := by
  have hidle : step s = idle s := by rw [step, advance, hnone]
  rw [hidle]
  rcases idle_serves_enabled s with ⟨e, rfl | rfl, henabled, hserve⟩ | ⟨hrx, htx, _⟩
  · obtain ⟨t, ht, hi, hpend, hwork, hrx, htx⟩ := serve_framerStep_drains h s.pending
    have hlen := framerStep_enabled_iff.1 henabled
    exact ⟨t, hserve.trans ht, hi, hpend, hwork, by omega⟩
  · obtain ⟨t, ht, hi, hpend, hwork, hrx, htx⟩ := serve_txStep_drains h s.pending
    have hlen := txStep_enabled_iff.1 henabled
    exact ⟨t, hserve.trans ht, hi, hpend, hwork, by omega⟩
  · omega

/-- Alone in the list, a request that is not enabled is not picked. -/
theorem pick_disabled {s : State} {e : Event} (h : e.enabled s = false) : pick s [] [e] = none := by
  simp [pick, h]

section
variable {s : State} {a : Agent} {r : OpRequest} {frame : Bytes}

theorem enabled_write_iff (hd : decodeOp r = .ok (.write frame)) :
    Event.enabled s (.op a r) = true ↔ writeHolds frame s = false := by
  simp [Event.enabled, hd, instrHolds]

/-- A WRITE for which there is room, alone in the list, is done in one step. -/
theorem step_write_alone (h : s.inv) (hp : s.pending = [.op a r]) (hd : decodeOp r = .ok (.write frame))
    (hcount : frame.length ≤ countMax) (hroom : frame.length ≤ s.tx.freeSpace s.cfg.cTx) :
    ∃ t, step s = .next t ∧ t.pending = [] ∧ t.result = .none ∧ Transmits s t [frame] := by
  have hinv := State.inv_request h a []
  have hfree : writeHolds frame s = false := not_writeHolds_of_room hroom
  obtain ⟨bs, hb, _⟩ := Fifo.ok_holds (State.inv_fifo h .tx)
  obtain ⟨f, he, _⟩ := exec_write_stores hinv hb hcount hroom
  obtain ⟨hcfg, hline, horder⟩ := exec_write_transmits hinv hfree he
  refine ⟨_, ?_, (State.filled_frame _ .tx f false).pending, rfl, hcfg, hline, horder⟩
  rw [step_of_head hp ((enabled_write_iff hd).2 hfree), serve_op hd, he]

/-- A WRITE that could fit, alone in the list, is done once the drain has made room for it. -/
theorem run_write_alone {n : Nat} (h : s.inv) (hp : s.pending = [.op a r]) (hd : decodeOp r = .ok (.write frame))
    (hfits : frame.length ≤ s.cfg.cTx - 1) (hcount : frame.length ≤ countMax) (hn : s.rx.length + s.tx.length = n) :
    ∃ k t, k ≤ n + 1 ∧ run k s = .next t ∧ t.pending = [] ∧ t.result = .none ∧ Transmits s t [frame] := by
  induction n using Nat.strong_induction_on generalizing s with
  | _ n ih =>
    by_cases hroom : frame.length ≤ s.tx.freeSpace s.cfg.cTx
    · obtain ⟨t, ht, hdone⟩ := step_write_alone h hp hd hcount hroom
      exact ⟨1, t, by omega, run_of_step ht, hdone⟩
    · have hheld : Event.enabled s (.op a r) = false := by
        rw [Bool.eq_false_iff, ne_eq, enabled_write_iff hd, Bool.not_eq_false, writeHolds_iff]
        exact ⟨hfits, Nat.not_le.1 hroom⟩
      have hne : s.tx.length ≠ 0 := by rw [Fifo.freeSpace] at hroom; omega
      obtain ⟨u, hu, hi, hpend, hwork, hlen⟩ := step_drains h (hp ▸ pick_disabled hheld) (by omega)
      obtain ⟨k, t, hk, ht, hpt, hres, hwork'⟩ := ih (n - 1) (by omega) hi (hpend.trans hp) (hwork.cfg ▸ hfits) (by omega)
      exact ⟨k + 1, t, by omega, (run_of_step hu).trans ht, hpt, hres, hwork.trans hwork'⟩

end

/-- With no request left every byte in either FIFO is taken out of it by a step of its own. -/
theorem run_quiescent {n : Nat} {s : State} (h : s.inv) (hp : s.pending = []) (hn : s.rx.length + s.tx.length = n) :
    ∃ t, run n s = .next t ∧ t.rx.length = 0 ∧ t.tx.length = 0 ∧ t.pending = [] ∧ Transmits s t [] := by
  induction n generalizing s with
  | zero => exact ⟨s, rfl, by omega, by omega, hp, .refl s⟩
  | succ n ih =>
    obtain ⟨u, hu, hi, hpend, hwork, hlen⟩ := step_drains h (by rw [hp]; rfl) (by omega)
    obtain ⟨t, ht, hrx, htx, hpt, hwork'⟩ := ih hi (hpend.trans hp) (by omega)
    exact ⟨t, (run_of_step hu).trans ht, hrx, htx, hpt, hwork.trans hwork'⟩

/-! ### The obligations -/

/-- Settles O48: the step is served from the head of the list. -/
theorem framerStepIsPopThenFeed : Obligations.FramerStepIsPopThenFeed := by
  intro s es h hp hne
  obtain ⟨b, f, u, hpop, hfeed, hstep⟩ := framerStep_eq_pop_feed (State.inv_request h .frm es) hne
  exact ⟨b, _, _, hpop, rfl, hfeed, (step_of_head hp (framerStep_enabled_iff.2 hne)).trans (serve_framerStep_eq hstep)⟩

/-- Settles O49: the byte popped is the head of what `TX_FIFO` holds. -/
theorem transmitStepSendsOldestByte : Obligations.TransmitStepSendsOldestByte := by
  constructor
  · intro s b bs es h hp hb
    have hne : s.tx.length ≠ 0 := by rw [hb.1]; exact Nat.succ_ne_zero _
    obtain ⟨f, hpop, hf, hmem⟩ := popInst_tx_cons (State.inv_request h .txc es) hb
    have hstep := (step_of_head hp (txStep_enabled_iff.2 hne)).trans (congrArg ofExcept hpop)
    exact ⟨_, hstep, rfl, by simp, by simpa using hf, by simpa using hmem, by simp, ⟨by simp, by simp, by simp⟩, by simp,
      by simp, by simp⟩
  · intro s b bs h hb
    obtain ⟨f, hpop, _⟩ := popInst_tx_cons h hb
    exact ⟨_, congrArg ofExcept hpop, by simp⟩

/-- Settles O52, by induction on the bytes in the FIFOs. -/
theorem heldWriteIsDoneAfterDrain : Obligations.HeldWriteIsDoneAfterDrain := by
  intro s a r frame bs h hp hd hfits hcount hb
  obtain ⟨k, t, hk, ht, hpend, hres, hwork⟩ := run_write_alone h hp hd hfits hcount rfl
  obtain ⟨cs, hc, horder⟩ := hwork.order bs hb
  exact ⟨k, t, cs, hk, ht, hpend, hres, hc, hwork.line, by rwa [List.flatten_singleton] at horder⟩

/-- Settles O53, by induction on the bytes in the FIFOs. -/
theorem quiescentBlockDrains : Obligations.QuiescentBlockDrains := by
  intro s bs h hp hb
  obtain ⟨t, ht, hrx, htx, hpt, hwork⟩ := run_quiescent h hp rfl
  obtain ⟨cs, hc, horder⟩ := hwork.order bs hb
  obtain rfl : cs = [] := List.eq_nil_of_length_eq_zero (hc.1.symm.trans htx)
  exact ⟨t, ht, hrx, htx, by simpa using horder, hpt⟩

end Sys2Proof.Machine
end

section
/-! The staging bytes a FEED leaves alone (20_memory R61, 43_stream_framer R161 to R166), and FEED as the decode pass on the bytes
it holds. -/

namespace Sys2Proof.Machine

/-! ### Bytes outside a set of indices -/

section
variable {P Q : Nat → Prop} {m m' m'' : Memory}

theorem keepsBytesOutside.refl (P : Nat → Prop) (m : Memory) : keepsBytesOutside P m m := fun _ _ => rfl

theorem keepsBytesOutside.trans (h : keepsBytesOutside P m m') (k : keepsBytesOutside P m' m'') : keepsBytesOutside P m m'' :=
  fun a ha => (k a ha).trans (h a ha)

theorem keepsBytesOutside.mono (h : keepsBytesOutside P m m') (hPQ : ∀ a, P a → Q a) : keepsBytesOutside Q m m' :=
  fun a ha => h a (mt (hPQ a) ha)

end

/-! ### The decode pass -/

section
variable {s t : State} {win : Bytes}

/-- The shift writes below the number of the buffered bytes. -/
theorem shiftLeft_keepsBytes {k : Nat} (hfit : win.length ≤ s.cfg.stgCap) (h : shiftLeft k win s = .ok t) :
    keepsBytesOutside (· < win.length) s.framer.stg t.framer.stg := by
  obtain ⟨m, hm, _, hout, _⟩ := writeRun_spec (cap := s.cfg.stgCap) (m := s.framer.stg) (bs := win.drop k) (i := 0)
    (by rw [List.length_drop]; omega)
  rw [shiftLeft, hm] at h
  cases h
  exact fun a ha => hout a (by rw [List.length_drop]; omega)

theorem react_keepsBytes {r : RejectReason} (hfit : win.length ≤ s.cfg.stgCap) (h : react r win s = .ok t) :
    keepsBytesOutside (· < win.length) s.framer.stg t.framer.stg := by
  unfold react resync at h
  split at h
  · cases h; exact .refl _ _
  · split at h
    · exact shiftLeft_keepsBytes hfit h
    · cases h; exact .refl _ _

theorem passTrip_keepsBytes (hfit : win.length ≤ s.cfg.stgCap) (h : passTrip win s = .ok (some t)) :
    keepsBytesOutside (· < win.length) s.framer.stg t.framer.stg := by
  unfold passTrip at h
  split at h
  · cases h
  · obtain ⟨u, hu, heq⟩ := exceptMap_eq_ok h
    cases heq
    simpa using shiftLeft_keepsBytes (by simpa using hfit) hu
  · obtain ⟨u, hu, heq⟩ := exceptMap_eq_ok h
    cases heq
    simpa using react_keepsBytes (by simpa using hfit) hu

/-- The windows of a pass only get shorter, so all its trips write below the length of the first. -/
theorem passLoop_keepsBytes {k : Nat} (hfit : s.framer.fits s.cfg.stgCap win) (h : passLoop k s = .ok t) :
    keepsBytesOutside (· < win.length) s.framer.stg t.framer.stg := by
  induction k generalizing s win with
  | zero => cases h; exact .refl _ _
  | succ k ih =>
    rw [passLoop] at h
    split at h
    · cases h; exact .refl _ _
    · rename_i hn
      have hne : win ≠ [] := fun he => hn (by rw [Framer.n_of_holds hfit.holds, he]; rfl)
      simp only [Framer.readRun_fits hfit] at h
      rcases passTrip_spec hfit hne with ⟨htrip, _⟩ | ⟨u, left, htrip, hframe, hleft, hlt, _⟩ <;> simp only [htrip] at h
      · cases h; exact .refl _ _
      · have hrest := ih (win := left) (hframe.cfg ▸ hleft) h
        exact (passTrip_keepsBytes hfit.room htrip).trans (hrest.mono fun a ha => Nat.lt_trans ha hlt)

/-- FEED writes no staging byte beyond the one it appends (43_stream_framer R161, R162). -/
theorem feedByte_keepsBytes {b : Byte} (hok : s.framer.ok s.cfg.stgCap) (hold : s.framer.holds win)
    (h : feedByte b s = .ok t) : keepsBytesOutside (· ≤ win.length) s.framer.stg t.framer.stg := by
  obtain ⟨hfit, hroom⟩ := Framer.fits_of_holds hok hold
  rw [feedByte] at h
  split at h
  · cases h; exact .refl _ _
  · obtain ⟨u, hu, _, hfit', _⟩ := appendByte_spec b hfit hroom
    rw [appendByte_eq hold hroom] at h hu
    cases hu
    have happend := s.appended_keepsBytes win.length b
    have hpass := passLoop_keepsBytes (s := s.appended win.length b) hfit' h
    exact (happend.mono fun a ha => Nat.le_of_eq ha).trans (hpass.mono fun a ha => by simpa [Nat.lt_succ_iff] using ha)

end

/-! ### The obligation -/

/-- Settles O40: the pass on the contents gives all but the storage, and each write of the storage is below the bytes held. -/
theorem feedRefinesDecodePass : Obligations.FeedRefinesDecodePass := by
  intro b s win hinv hold
  obtain ⟨_, _, _, hok⟩ := hinv
  obtain ⟨u, hu, hrun⟩ := feedByte_runs hok hold b
  refine ⟨u.withPayloadsSince s, exec_feed_of_ok hu, hrun.fits.holds, hrun.delivered, ?_, hrun.errors, hrun.crcAcc,
    feedByte_keepsBytes (t := u) hok hold hu, hrun.frame.keepsControl, hrun.frame.rx, hrun.frame.tx, hrun.frame.txLine⟩
  rw [State.withPayloadsSince_result, hrun.delivered, List.drop_left]

end Sys2Proof.Machine
end

section
/-! The refusals and the event history (60_exceptions R200, R207, R208): on which operands an instruction is refused, and which
error conditions an instruction and a step record. -/

namespace Sys2Proof.Machine

/-! ### Refusals -/

/-- A computation that completes or faults is no refusal. -/
theorem ofExcept_ne_refused (x : Except Fault State) (r : Refusal) : ofExcept x ≠ .refused r := by
  cases x <;> exact nofun

/-- Settles O58, by the instruction: an arm refuses by its own guard, or not at all. -/
theorem refusalsAreTheClosedList : Obligations.RefusalsAreTheClosedList := by
  intro i s r h
  cases i with
  | reset => cases h
  | push f b => exact absurd h (ofExcept_ne_refused _ r)
  | store f data =>
    rw [exec, execStore] at h
    split at h
    · cases h; exact .inr (.inl ⟨rfl, data, ‹_›, .inl ⟨f, rfl⟩⟩)
    · exact absurd h (ofExcept_ne_refused _ r)
  | pop f => exact absurd h (ofExcept_ne_refused _ r)
  | length f => cases h
  | freeSpace f => cases h
  | fifoReset f => cases h
  | crc16 bytes =>
    rw [exec, execCrc16] at h
    split at h
    · cases h; exact .inr (.inl ⟨rfl, bytes, ‹_›, .inr (.inl rfl)⟩)
    · cases h
  | encode payload =>
    rw [exec, execEncode] at h
    split at h
    · rename_i hlen
      cases h
      exact .inr (.inr (.inl ⟨rfl, payload, hlen.imp Nat.lt_one_iff.1 id, rfl⟩))
    · cases h
  | decode win => cases h
  | feed b => exact absurd h (ofExcept_ne_refused _ r)
  | poll => exact absurd h (ofExcept_ne_refused _ r)
  | framerReset => cases h
  | write frame =>
    rw [exec] at h
    rcases execWrite_cases frame s with ⟨hlen, he⟩ | ⟨_, he⟩ | ⟨hlen, _, he⟩ | ⟨_, _, he⟩ <;> rw [he] at h
    · cases h; exact .inr (.inr (.inr ⟨rfl, frame, hlen, rfl⟩))
    · cases h
    · cases h; exact .inr (.inl ⟨rfl, frame, hlen, .inr (.inr rfl)⟩)
    · exact absurd h (ofExcept_ne_refused _ r)
  | unassignedE hi => cases h; exact .inl ⟨rfl, hi, .inl rfl⟩
  | unassignedF hi => cases h; exact .inl ⟨rfl, hi, .inr rfl⟩
  | frameShort payload crc => exact absurd h (ofExcept_ne_refused _ r)
  | frameLong payload crc => exact absurd h (ofExcept_ne_refused _ r)

/-! ### The error conditions an instruction and a step record -/

/-- The error conditions of the block: E8 and E9 are outside it (60_exceptions R200). -/
abbrev blockCodes : List ErrorCode := [.e1, .e2, .e3, .e4, .e5, .e6, .e7]

theorem addsErrors.errors_isPrefix {codes : List ErrorCode} {s t : State} (h : addsErrors codes s t) :
    s.errors <+: t.errors := by
  obtain ⟨es, he, _⟩ := h
  exact ⟨es, he.symm⟩

/-- A code that is none of those added was there before. -/
theorem addsErrors.mem_of_mem {codes : List ErrorCode} {s t : State} {e : ErrorCode} (h : addsErrors codes s t)
    (he : e ∉ codes) (hmem : e ∈ t.errors) : e ∈ s.errors := by
  obtain ⟨es, heq, hcodes⟩ := h
  rw [heq] at hmem
  exact (List.mem_append.1 hmem).resolve_right fun hm => he (hcodes e hm)

theorem pushInst_addsErrors {i : Inst} {b : Byte} {s t : State} (h : pushInst i b s = .ok t) : addsErrors [.e6] s t := by
  obtain ⟨_, _, _, hadds⟩ := pushInst_frame h
  exact hadds

theorem storeInst_addsErrors {i : Inst} {data : Bytes} {s t : State} (h : storeInst i data s = .ok t) :
    addsErrors [.e6] s t := by
  obtain ⟨_, _, _, hadds⟩ := storeInst_frame h
  exact hadds

theorem popInst_addsErrors {i : Inst} {s t : State} (h : popInst i s = .ok t) : addsErrors blockCodes s t := by
  obtain ⟨_, ⟨_, _, _, he⟩ | ⟨_, _, he, _⟩⟩ := popInst_frame h
  · exact ⟨[.e7], he, by simp⟩
  · exact .of_eq he

theorem exec_codec_addsErrors {i : Instr} {s t : State} (h : exec i s = .next t)
    (hi : (∃ d, i = .crc16 d) ∨ (∃ p, i = .encode p) ∨ (∃ w, i = .decode w)) : addsErrors blockCodes s t := by
  obtain ⟨_, _, _, _, _, herr, _⟩ := exec_codec_frame h hi
  exact .of_eq herr

/-- A computation that only adds conditions of the block does so whatever result its answer is given. -/
theorem addsErrors_of_map {codes : List ErrorCode} {s t : State} {x : Except Fault State} {r : State → Result}
    (hx : ∀ u, x = .ok u → addsErrors codes s u) (hcodes : ∀ e ∈ codes, e ∈ blockCodes)
    (h : ofExcept (x.map (fun u => u.setResult (r u))) = .next t) : addsErrors blockCodes s t := by
  obtain ⟨u, hu, rfl⟩ := ofExcept_map_eq_next h
  exact (hx u hu).mono hcodes

/-- Every instruction but RESET only adds to the history, and only conditions of the block (60_exceptions R200). -/
theorem exec_addsErrors {i : Instr} {s t : State} (hi : i ≠ .reset) (h : exec i s = .next t) : addsErrors blockCodes s t := by
  cases i with
  | reset => exact absurd rfl hi
  | push f b => exact addsErrors_of_map (fun _ => pushInst_addsErrors) (by decide) h
  | store f data =>
    rw [exec, execStore] at h
    split at h
    · cases h
    · exact addsErrors_of_map (fun _ => storeInst_addsErrors) (by decide) h
  | pop f => exact popInst_addsErrors (ofExcept_eq_next h)
  | length f => cases h; exact .of_eq rfl
  | freeSpace f => cases h; exact .of_eq rfl
  | fifoReset f => cases h; exact .of_eq (State.setFifo_errors s f _)
  | crc16 bytes => exact exec_codec_addsErrors h (.inl ⟨_, rfl⟩)
  | encode payload => exact exec_codec_addsErrors h (.inr (.inl ⟨_, rfl⟩))
  | decode win => exact exec_codec_addsErrors h (.inr (.inr ⟨_, rfl⟩))
  | feed b => exact addsErrors_of_map (fun _ hu => (feedByte_frame hu).2) (by decide) h
  | poll => exact addsErrors_of_map (fun _ hu => (framerSteps_frame hu).2) (by decide) h
  | framerReset => cases h; exact .of_eq rfl
  | write frame =>
    rw [exec] at h
    rcases execWrite_cases frame s with ⟨_, he⟩ | ⟨_, he⟩ | ⟨_, _, he⟩ | ⟨_, _, he⟩ <;> rw [he] at h
    · cases h
    · cases h; exact .of_eq rfl
    · cases h
    · exact addsErrors_of_map (fun _ => storeInst_addsErrors) (by decide) h
  | unassignedE hi => cases h
  | unassignedF hi => cases h
  | frameShort payload crc => exact addsErrors_of_map (fun _ hu => (receiveBytes_frame hu).2) (by decide) h
  | frameLong payload crc => exact addsErrors_of_map (fun _ hu => (receiveBytes_frame hu).2) (by decide) h

/-- The history after `s` is that of `s` with conditions of the block added, or it was started afresh (RESET, log 7). -/
def ExtendsOrRestarts (s t : State) : Prop := addsErrors blockCodes s t ∨ t.errors = []

theorem ExtendsOrRestarts.mem_of_mem {s t : State} {e : ErrorCode} (h : ExtendsOrRestarts s t) (he : e ∉ blockCodes)
    (hmem : e ∈ t.errors) : e ∈ s.errors := by
  rcases h with hadds | hnil
  · exact hadds.mem_of_mem he hmem
  · rw [hnil] at hmem
    cases hmem

theorem exec_extendsOrRestarts {i : Instr} {s t : State} (h : exec i s = .next t) : ExtendsOrRestarts s t := by
  by_cases hi : i = .reset
  · subst hi
    cases h
    exact .inr rfl
  · exact .inl (exec_addsErrors hi h)

/-- Serving an event: who acts and which requests are left does not matter to the history. -/
theorem serve_extendsOrRestarts {e : Event} {rest : List Event} {s t : State} (h : serve e rest s = .next t) :
    ExtendsOrRestarts s t := by
  cases e with
  | op a r =>
    rw [serve] at h
    split at h
    · exact exec_extendsOrRestarts (s := { s with agent := a, pending := rest }) h
    · cases h
  | framerStep =>
    exact .inl (addsErrors_of_map (s := { s with agent := .frm, pending := rest }) (fun _ hu => (framerStep_frame hu).2)
      (by decide) h)
  | txStep => exact .inl (popInst_addsErrors (s := { s with agent := .txc, pending := rest }) (ofExcept_eq_next h))
  | line bytes =>
    cases bytes with
    | nil => cases h; exact .inl (.of_eq rfl)
    | cons b bs =>
      rw [serve] at h
      split at h
      · exact exec_extendsOrRestarts (s := { s with agent := .rxp, pending := putBack _ rest }) h
      · exact .inl (addsErrors_of_map (s := { s with agent := .rxp, pending := putBack bs rest })
          (fun _ hu => (receiveByte_frame hu).2) (by decide) h)

theorem step_extendsOrRestarts {s t : State} (h : step s = .next t) : ExtendsOrRestarts s t := by
  rcases step_cases s with ⟨e, rest, _, he⟩ | ⟨_, he⟩ <;> rw [he] at h
  · exact serve_extendsOrRestarts h
  · rcases idle_cases s with ⟨e, he⟩ | he <;> rw [he] at h
    · exact serve_extendsOrRestarts h
    · cases h; exact .inl (.of_eq rfl)

/-! ### The conditions by their operation -/

/-- A pass on a window that is rejected records the code of the reason first. -/
theorem listPass_reject_codes {c : Config} {win : Bytes} {why : RejectReason} (hne : win ≠ [])
    (hd : decodeWindow c win = .reject why) (k : Nat) : [errorOfReject why] <+: (listPass c (k + 1) win).codes := by
  cases win with
  | nil => exact absurd rfl hne
  | cons b win => simp [listPass, hd]

/-- A FEED whose window is rejected records the code of the reason before anything else. -/
theorem exec_feed_reject_errors {b : Byte} {s : State} {win : Bytes} {why : RejectReason} (h : s.inv)
    (hold : s.framer.holds win) (hne : win ≠ []) (hd : decodeWindow s.cfg (win ++ [b]) = .reject why) :
    ∃ t, exec (.feed b) s = .next t ∧ s.errors ++ [errorOfReject why] <+: t.errors := by
  obtain ⟨u, hu, hrun⟩ := exec_feed_runs h hold b
  refine ⟨_, hu, ?_⟩
  rw [State.withPayloadsSince_errors, hrun.errors, listFeed_accumulating hne, List.prefix_append_right_inj]
  exact listPass_reject_codes (by simp) hd win.length

theorem State.filled_errors (s : State) (i : Inst) (f : Fifo) (ov : Bool) :
    (s.filled i f ov).errors = if ov then s.errors ++ [.e6] else s.errors := by
  simp [State.filled]

/-- PUSH records E6 when the instance is full, and nothing else (60_exceptions R207). -/
theorem exec_push_errors {i : Inst} {s : State} (hcap : 0 < s.cap i) (b : Byte) : ∃ t, exec (.push i b) s = .next t ∧
    t.errors = if (s.fifo i).length = s.cap i - 1 then s.errors ++ [.e6] else s.errors := by
  by_cases hfull : (s.fifo i).length = s.cap i - 1
  · exact ⟨_, exec_push_eq (fifoPush_full b hfull), by rw [State.filled_errors, if_pos hfull]; rfl⟩
  · exact ⟨_, exec_push_eq (fifoPush_room b hcap hfull), by rw [State.filled_errors, if_neg hfull]; rfl⟩

/-- STORE records E6 when its bytes do not fit, and nothing else (60_exceptions R207). -/
theorem exec_store_errors {i : Inst} {data : Bytes} {s : State} (hcap : 0 < s.cap i) (hcount : data.length ≤ countMax) :
    ∃ t, exec (.store i data) s = .next t ∧
      t.errors = if s.cap i - (s.fifo i).length - 1 < data.length then s.errors ++ [.e6] else s.errors := by
  by_cases hover : (s.fifo i).freeSpace (s.cap i) < data.length
  · exact ⟨_, exec_store_eq hcount (fifoStore_overflow hover), by rw [State.filled_errors]; exact (if_pos hover).symm⟩
  · obtain ⟨m, hm, _⟩ := fifoStore_room hcap (Nat.not_lt.1 hover)
    exact ⟨_, exec_store_eq hcount hm, by rw [State.filled_errors]; exact (if_neg hover).symm⟩

/-- POP records E7 when the instance is empty, and nothing else (60_exceptions R207). -/
theorem exec_pop_errors {i : Inst} {s : State} (hok : (s.fifo i).ok (s.cap i)) : ∃ t, exec (.pop i) s = .next t ∧
    t.errors = if (s.fifo i).length = 0 then s.errors ++ [.e7] else s.errors := by
  by_cases hempty : (s.fifo i).length = 0
  · exact ⟨_, congrArg ofExcept (popInst_empty hempty), by rw [if_pos hempty]; rfl⟩
  · obtain ⟨b, f, hpop, _⟩ := fifoPop_ok hok hempty
    exact ⟨_, congrArg ofExcept (popInst_cons hpop), by rw [if_neg hempty]; simp⟩

/-- Settles O59, by the operation; a step adds what the event it serves adds. -/
theorem errorHistoryNamesTheConditions : Obligations.ErrorHistoryNamesTheConditions := by
  refine ⟨fun b s win why hinv hold hne hd => ?feed, fun i b s hcap => exec_push_errors (by omega) b,
    fun i data s hcap hcount => exec_store_errors (by omega) hcount, fun i s hok => exec_pop_errors hok,
    fun s t h => ?step, fun i s t hi h => (exec_addsErrors hi h).errors_isPrefix⟩
  case feed =>
    obtain ⟨t, ht, hcode⟩ := exec_feed_reject_errors hinv hold hne hd
    refine ⟨t, ht, ?_, ?_, ?_, ?_, ?_⟩ <;> (rintro rfl; exact hcode)
  case step =>
    have hstep := step_extendsOrRestarts h
    exact ⟨hstep.mem_of_mem (by decide), hstep.mem_of_mem (by decide)⟩

end Sys2Proof.Machine
end

section
/-! RESET and the lasting loss of synchronisation under `discard_all` (70_reset_and_hazards R220, R228): a short packet read from
a stray `03` on is a long form that declares too much. -/

namespace Sys2Proof.Machine

/-! ### FEED below six bytes -/

/-- FEED of bytes behind a non-empty buffer appends them all as long as fewer than six are buffered (42_packet_codec R142 line 1,
43_stream_framer R162). -/
theorem execAll_feed_few {bs win : Bytes} {s : State} (hinv : s.inv) (hold : s.framer.holds win) (hne : win ≠ [])
    (hfew : (win ++ bs).length < minPacket) :
    ∃ t, execAll (bs.map .feed) s = .next t ∧ t.inv ∧ t.framer.holds (win ++ bs) ∧ Delivers s t [] := by
  induction bs generalizing win s with
  | nil => exact ⟨s, rfl, hinv, by rwa [List.append_nil], rfl, (List.append_nil _).symm, rfl⟩
  | cons b bs ih =>
    rw [List.append_cons] at hfew ⊢
    have hmore : decodeWindow s.cfg (win ++ [b]) = .needMore :=
      decodeWindow_of_short ((List.prefix_append _ bs).length_le.trans_lt hfew)
    have hfeed := exec_feed_appends hold (Framer.fits_of_holds hinv.2.2.2 hold).2 (absurd · hne) hmore
    obtain ⟨t, ht, hinvt, holdt, hdel⟩ := ih (exec_keeps_inv hinv hfeed) (Framer.holds_append hold b) (by simp) hfew
    refine ⟨t, ?_, hinvt, holdt, hdel.cfg, hdel.delivered, hdel.errors⟩
    simp only [List.map_cons, execAll, hfeed]
    exact ht

/-- A candidate start in SEEKING is buffered alone (43_stream_framer R161). -/
theorem exec_feed_starts {s : State} {b : Byte} (hinv : s.inv) (hseek : s.framer.lastValidIndex = -1)
    (hb : b = 0x02 ∨ b = 0x03) :
    ∃ t, exec (.feed b) s = .next t ∧ t.framer.holds [b] ∧ t.delivered = s.delivered :=
  have hold := Framer.holds_nil_iff.2 hseek
  ⟨_, exec_feed_appends hold (Framer.fits_of_holds hinv.2.2.2 hold).2 (fun _ => isCandidate_iff.2 hb)
    (decodeWindow_of_short (by simp [minPacket])), Framer.holds_append hold b, rfl⟩

/-! ### A short packet behind a stray `03` -/

/-- DECODE rejects a window whose declared size exceeds `S`, whatever `ZERO_LEN` is (42_packet_codec R142 line 4). -/
theorem decodeWindow_of_oversize {c : Config} {w : Bytes} {h : Header} (hh : headerOf w = some h) (hmin : 6 ≤ w.length)
    (hlen : h.len ≠ 0) (hover : c.stgCap < h.size) : decodeWindow c w = .reject .oversize := by
  simp [decodeWindow, checkWindow, hh, hlen, hover, Nat.not_lt.2 hmin, minPacket]

/-- Read from a byte `03` on, the first bytes of a short packet are a long-form header of length `512 + LL` (70 R228). -/
theorem headerOf_startLong_short {n : Nat} (hn : n ≤ 255) (bs : Bytes) :
    headerOf (startLong :: startShort :: BitVec.ofNat 8 n :: bs) = some ⟨3, 512 + n, 518 + n⟩ := by
  refine headerOf_of_marker (.inr ⟨rfl, rfl, ?_, by omega⟩)
  have hbyte : (BitVec.ofNat 8 n).toNat = n := by rw [BitVec.toNat_ofNat]; omega
  simp [startShort, hbyte]

/-- The bytes of a short packet up to its fifth, those from its sixth on, and its end marker. -/
theorem shortFrame_split {p : Bytes} (hp : 1 ≤ p.length) (crc : U16) : ∃ x y z gs,
    shortFrame p crc = [startShort, BitVec.ofNat 8 p.length, x, y] ++ z :: (gs ++ [endMark]) := by
  obtain ⟨x, ps, rfl⟩ := List.exists_cons_of_length_pos hp
  obtain ⟨y, z, gs, hbody⟩ : ∃ y z gs, ps ++ [hi8 crc, lo8 crc] = y :: z :: gs := by
    match ps with
    | [] => exact ⟨_, _, _, rfl⟩
    | [_] => exact ⟨_, _, _, rfl⟩
    | _ :: _ :: _ => exact ⟨_, _, _, rfl⟩
  refine ⟨x, y, z, gs, ?_⟩
  calc shortFrame (x :: ps) crc
      = startShort :: BitVec.ofNat 8 (x :: ps).length :: x :: (ps ++ [hi8 crc, lo8 crc] ++ [endMark]) := by simp [shortFrame]
    _ = _ := by rw [hbody]; rfl

/-! ### The obligations -/

/-- Settles O16, by the definition of RESET. -/
theorem resetOperationEmptiesTheBlock : Obligations.ResetOperationEmptiesTheBlock := fun s =>
  ⟨(resetBlock s).setResult .none, rfl, ⟨rfl, rfl, rfl⟩, rfl, rfl, rfl, rfl, rfl, rfl, rfl, rfl, rfl⟩

/-- Settles O46: four bytes are buffered behind the `03`, the fifth makes the window oversize and empties the buffer, those up to
the end marker are discarded in SEEKING, and the end marker is buffered as a start. -/
theorem discardAllCanStayLost : Obligations.DiscardAllCanStayLost := by
  intro p crc s hinv hpol hold hp hmax hsmall hgarbage
  obtain ⟨x, y, z, gs, hframe⟩ := shortFrame_split hp crc
  rw [hframe] at hgarbage ⊢
  have hgs : ∀ g ∈ gs, g ≠ 0x02 ∧ g ≠ 0x03 := by simpa using hgarbage
  obtain ⟨t, ht, hinvt, holdt, hdel⟩ :=
    execAll_feed_few (bs := [startShort, BitVec.ofNat 8 p.length, x, y]) hinv hold (by simp) (by simp [minPacket])
  have hover := decodeWindow_of_oversize (headerOf_startLong_short hmax [x, y, z]) (by simp) (by simp)
    (hdel.cfg ▸ hsmall : t.cfg.stgCap < 518 + p.length)
  obtain ⟨u, hu, hseek, hdelu⟩ := (oversizeFollowsThePolicy z t _ hinvt holdt (by simp) hover).1 (hdel.cfg ▸ hpol)
  obtain ⟨r, hr⟩ := execAll_feed_garbage hseek hgs
  have hinvu := State.inv_setResult (exec_keeps_inv hinvt hu) r
  obtain ⟨v, hv, holdv, hdelv⟩ := exec_feed_starts (b := endMark) hinvu hseek (.inr rfl)
  refine ⟨v, ?_, holdv, by rw [hdelv, State.setResult_delivered, hdelu, hdel.delivered, List.append_nil]⟩
  rw [List.map_append, execAll_append_next ht]
  simp only [List.map_cons, List.map_append, List.map_nil, execAll, hu, execAll_append_next hr, hv]

end Sys2Proof.Machine
end
